-- ==== Sys2Proof/Word.lean ====
section
/-! DEFINITION. The two value types of the frame engine: the byte of the wire (R8) and the 32-bit word of every
numeric register, command word, operand word and result value (R7, R70, R76). -/

namespace Sys2Proof

/-- A byte of either wire stream: 8 bits, an unsigned integer 0..255 (R8). -/
abbrev Byte := BitVec 8

/-- A 32-bit word: a numeric register (R7), a command or operand word (R70), a result value (R76). -/
abbrev Word := BitVec 32

end Sys2Proof
end

