-- ==== Sys2Proof/Syntax.lean ====
section
/-! DEFINITION. The command set (R71, R74): one constructor per row of spec/opcode_table.json, its operands as the
formats of R71 give them. A timeout operand is `none` for the source's `null` (P = 0) and `some t` for P = 1 (R73),
so that the illegal pair P = 0 with TO ≠ 0 has no term: the decoder refuses it by name. -/

namespace Sys2Proof

/-- One command of the frame engine. -/
inductive Instr where
  /-- `ACCEPT_BYTE b` (OPC 0x01, format B, R150). -/
  | acceptByte (b : Byte)
  /-- `TICK` (OPC 0x02, format N, R196). -/
  | tick
  /-- `RESET_PARSER` (OPC 0x03, format N, R160). -/
  | resetParser
  /-- `CFGW r, V` (OPC 0x04, format RW, R220). -/
  | cfgw (r : Byte) (v : Word)
  /-- `CFGR r` (OPC 0x05, format R, R222). -/
  | cfgr (r : Byte)
  /-- `CKSUM sel, d` (OPC 0x06, format C, R106). -/
  | cksum (sel : Byte) (data : List Byte)
  /-- `SEND id, type, resp, data` (OPC 0x10, format M, R125). -/
  | send (resp : Bool) (fid typ : Word) (data : List Byte)
  /-- `QUERY id, type, resp, timeout, data` (OPC 0x11, format MQ, R126). -/
  | query (resp : Bool) (fid typ : Word) (timeout : Option Word) (data : List Byte)
  /-- `RESPOND id, type, resp, data` (OPC 0x12, format M, R127). -/
  | respond (resp : Bool) (fid typ : Word) (data : List Byte)
  /-- `LADD id, timeout` (OPC 0x20, format L, R190). -/
  | ladd (lid : Word) (timeout : Option Word)
  /-- `LREM k` (OPC 0x21, format S, R191). -/
  | lrem (k : BitVec 16)
  /-- `LRENEW k` (OPC 0x22, format S, R192). -/
  | lrenew (k : BitVec 16)
  /-- `LREAD k` (OPC 0x23, format S, R194). -/
  | lread (k : BitVec 16)
  deriving DecidableEq, Repr

end Sys2Proof
end

