-- ==== Sys2Proof/WellFormed.lean ====
section
/-! DEFINITION. Which command terms have an encoding: the byte count `n` of a data operand is one 32-bit operand
word (R71, R72), so a data operand holds fewer than 2^32 bytes. Every other operand's type is its field's width. -/

namespace Sys2Proof

/-- A data operand whose byte count fits the operand word N (R71, R72). -/
def dataFits (d : List Byte) : Bool := decide (d.length < 2 ^ 32)

/-- The command has an encoding (R70 to R72). -/
def Instr.wf : Instr → Bool
  | .acceptByte _ => true
  | .tick => true
  | .resetParser => true
  | .cfgw _ _ => true
  | .cfgr _ => true
  | .cksum _ d => dataFits d
  | .send _ _ _ d => dataFits d
  | .query _ _ _ _ d => dataFits d
  | .respond _ _ _ d => dataFits d
  | .ladd _ _ => true
  | .lrem _ => true
  | .lrenew _ => true
  | .lread _ => true

end Sys2Proof
end

