-- ==== Sys2Proof/Decode.lean ====
section
/-! DEFINITION. The command interface of R70 to R75 and R86: the decoder, total on any list of words, which refuses
each illegal encoding by name; then the encoder, written from the same rules; then the two readings of an opcode-table
word the host's fixed names ask for. -/

namespace Sys2Proof

/-! ## The command word (R70) -/

/-- W[7:0], the opcode. -/
def fieldOpc (w : Word) : Byte := w.extractLsb' 0 8

/-- W[15:8], the 8-bit argument A. -/
def fieldA (w : Word) : Byte := w.extractLsb' 8 8

/-- W[31:16], the slot index S, reserved outside format S. -/
def fieldS (w : Word) : BitVec 16 := w.extractLsb' 16 16

/-- The 13 assigned operations of R74. -/
inductive Op where
  | acceptByte | tick | resetParser | cfgw | cfgr | cksum | send | query | respond | ladd | lrem | lrenew | lread
  deriving DecidableEq, Repr

/-- The opcode map of R74. -/
def Op.code : Op → Byte
  | .acceptByte => 0x01
  | .tick => 0x02
  | .resetParser => 0x03
  | .cfgw => 0x04
  | .cfgr => 0x05
  | .cksum => 0x06
  | .send => 0x10
  | .query => 0x11
  | .respond => 0x12
  | .ladd => 0x20
  | .lrem => 0x21
  | .lrenew => 0x22
  | .lread => 0x23

/-- Every operation once, in the order of R74. -/
def Op.all : List Op :=
  [.acceptByte, .tick, .resetParser, .cfgw, .cfgr, .cksum, .send, .query, .respond, .ladd, .lrem, .lrenew, .lread]

/-- The operation an opcode names; `none` for an unassigned one (R74). -/
def Op.ofCode? (c : Byte) : Option Op := Op.all.find? (fun op => op.code == c)

/-- The bits of A that the operation's format uses (R71); the others are reserved and must be 0. -/
def Op.maskA : Op → Byte
  | .acceptByte => 0xFF
  | .tick => 0x00
  | .resetParser => 0x00
  | .cfgw => 0xFF
  | .cfgr => 0xFF
  | .cksum => 0xFF
  | .send => 0x01
  | .query => 0x03
  | .respond => 0x01
  | .ladd => 0x02
  | .lrem => 0x00
  | .lrenew => 0x00
  | .lread => 0x00

/-- Format S (R71): the only one that uses the field S. -/
def Op.usesS : Op → Bool
  | .lrem | .lrenew | .lread => true
  | .acceptByte | .tick | .resetParser | .cfgw | .cfgr | .cksum | .send | .query | .respond | .ladd => false

/-- No reserved bit of W is set (R71, R75). -/
def Op.reservedClear (op : Op) (w : Word) : Bool :=
  (fieldA w &&& ~~~op.maskA) == 0 && (op.usesS || fieldS w == 0)

/-! ## Operand words (R71, R72, R86) -/

/-- The number of operand words before the data words, the count word N included (R71). -/
def Op.fixedOperands : Op → Nat
  | .acceptByte | .tick | .resetParser | .cfgr | .lrem | .lrenew | .lread => 0
  | .cfgw => 1
  | .ladd => 2
  | .cksum => 1
  | .send => 3
  | .query => 4
  | .respond => 3

/-- The operations whose last fixed operand word is the byte count N of data words that follow (R71). -/
def Op.hasData : Op → Bool
  | .cksum | .send | .query | .respond => true
  | .acceptByte | .tick | .resetParser | .cfgw | .cfgr | .ladd | .lrem | .lrenew | .lread => false

/-- `ceil(n/4)`: the number of data words that carry `n` bytes (R72). -/
def dataWordCount (n : Nat) : Nat := (n + 3) / 4

/-- The command's number of operand words (R86), found from OPC and N alone; `none` while N is not yet delivered. -/
def Op.operandLength (op : Op) (ops : List Word) : Option Nat :=
  if op.hasData then
    (ops[op.fixedOperands - 1]?).map fun n => op.fixedOperands + dataWordCount n.toNat
  else some op.fixedOperands

/-- The four bytes of a data word, the first in its most-significant byte (R72). -/
def wordBytes (w : Word) : List Byte :=
  [w.extractLsb' 24 8, w.extractLsb' 16 8, w.extractLsb' 8 8, w.extractLsb' 0 8]

/-- The byte sequence of `n` bytes that the data words carry (R72). -/
def dataBytes (n : Nat) (ws : List Word) : List Byte := (ws.flatMap wordBytes).take n

/-- Every pad byte of the last data word is 0 (R72, R75). -/
def padClear (n : Nat) (ws : List Word) : Bool := ((ws.flatMap wordBytes).drop n).all (· == 0)

/-! ## The decoder -/

/-- Why an encoding is illegal (R75). -/
inductive Illegal where
  /-- The OPC is not in the map of R74. -/
  | unassignedOpcode
  /-- A reserved bit of W is non-zero. -/
  | reservedBits
  /-- `P = 0` with `TO ≠ 0`. -/
  | timeoutWithoutP
  /-- A pad byte of the last data word is non-zero. -/
  | padBytes
  deriving DecidableEq, Repr

/-- What the decoder finds at the head of the words the host has delivered. -/
inductive Decoded where
  /-- Not all words of the next command are there yet. -/
  | incomplete
  /-- A whole command that R75 makes illegal, and the words after it. -/
  | illegal (why : Illegal) (rest : List Word)
  /-- A whole command, and the words after it. -/
  | instr (i : Instr) (rest : List Word)
  deriving DecidableEq, Repr

/-- The timeout operand (R73): `P = 0` is `null`; `none` of the outer option is the illegal `P = 0` with `TO ≠ 0`. -/
def timeoutOf (p : Bool) (t : Word) : Option (Option Word) :=
  if p then some (some t) else if t = 0 then some none else none

/-- Build the command of `op` from its command word and exactly its operand words (R71), or say why it is illegal. -/
def build (op : Op) (w : Word) (args : List Word) : Except Illegal Instr :=
  let a := fieldA w
  let r := a.getLsbD 0
  let n := (args.getD (op.fixedOperands - 1) 0).toNat
  let ds := args.drop op.fixedOperands
  let d := dataBytes n ds
  if !op.reservedClear w then .error .reservedBits
  else if op.hasData && !padClear n ds then .error .padBytes
  else match op with
    | .acceptByte => .ok (.acceptByte a)
    | .tick => .ok .tick
    | .resetParser => .ok .resetParser
    | .cfgw => .ok (.cfgw a (args.getD 0 0))
    | .cfgr => .ok (.cfgr a)
    | .cksum => .ok (.cksum a d)
    | .send => .ok (.send r (args.getD 0 0) (args.getD 1 0) d)
    | .query =>
      match timeoutOf (a.getLsbD 1) (args.getD 2 0) with
      | some t => .ok (.query r (args.getD 0 0) (args.getD 1 0) t d)
      | none => .error .timeoutWithoutP
    | .respond => .ok (.respond r (args.getD 0 0) (args.getD 1 0) d)
    | .ladd =>
      match timeoutOf (a.getLsbD 1) (args.getD 1 0) with
      | some t => .ok (.ladd (args.getD 0 0) t)
      | none => .error .timeoutWithoutP
    | .lrem => .ok (.lrem (fieldS w))
    | .lrenew => .ok (.lrenew (fieldS w))
    | .lread => .ok (.lread (fieldS w))

/-- Decode the first command of a list of words. An unassigned OPC has no operand words (R86). An illegal encoding of
an assigned OPC is as long as R86 makes it from OPC and N (log entry 10). -/
def decode (ws : List Word) : Decoded :=
  match ws with
  | [] => .incomplete
  | w :: ops =>
    match Op.ofCode? (fieldOpc w) with
    | none => .illegal .unassignedOpcode ops
    | some op =>
      match op.operandLength ops with
      | none => .incomplete
      | some n =>
        if ops.length < n then .incomplete
        else match build op w (ops.take n) with
          | .error why => .illegal why (ops.drop n)
          | .ok i => .instr i (ops.drop n)

/-! ## The encoder -/

/-- The command word of an operation: S in bits 31..16, A in bits 15..8, OPC in bits 7..0 (R70). -/
def commandWord (op : Op) (a : Byte) (k : BitVec 16) : Word := k ++ a ++ op.code

/-- Pack a byte sequence into data words, the first byte of each in its most-significant byte, pad bytes 0 (R72). -/
def packWords : List Byte → List Word
  | [] => []
  | [b0] => [b0 ++ (0 : Byte) ++ (0 : Byte) ++ (0 : Byte)]
  | [b0, b1] => [b0 ++ b1 ++ (0 : Byte) ++ (0 : Byte)]
  | [b0, b1, b2] => [b0 ++ b1 ++ b2 ++ (0 : Byte)]
  | b0 :: b1 :: b2 :: b3 :: rest => (b0 ++ b1 ++ b2 ++ b3) :: packWords rest

/-- The flags A[0] = R and A[1] = P (R71). -/
def flagsA (r p : Bool) : Byte := (if r then 0x01 else 0x00) ||| (if p then 0x02 else 0x00)

/-- The count word N and the data words (R71, R72). -/
def dataOperand (d : List Byte) : List Word := BitVec.ofNat 32 d.length :: packWords d

/-- The words of a command (R70 to R74). -/
def encode : Instr → List Word
  | .acceptByte b => [commandWord .acceptByte b 0]
  | .tick => [commandWord .tick 0 0]
  | .resetParser => [commandWord .resetParser 0 0]
  | .cfgw r v => [commandWord .cfgw r 0, v]
  | .cfgr r => [commandWord .cfgr r 0]
  | .cksum sel d => commandWord .cksum sel 0 :: dataOperand d
  | .send r fid typ d => commandWord .send (flagsA r false) 0 :: fid :: typ :: dataOperand d
  | .query r fid typ t d =>
    commandWord .query (flagsA r t.isSome) 0 :: fid :: typ :: t.getD 0 :: dataOperand d
  | .respond r fid typ d => commandWord .respond (flagsA r false) 0 :: fid :: typ :: dataOperand d
  | .ladd lid t => [commandWord .ladd (flagsA false t.isSome) 0, lid, t.getD 0]
  | .lrem k => [commandWord .lrem 0 k]
  | .lrenew k => [commandWord .lrenew 0 k]
  | .lread k => [commandWord .lread 0 k]

/-! ## Opcode-table words (the host's numbering: bit 0 is the least significant bit of the first word) -/

/-- The words of the low `nbits` bits of `w`, the first word lowest. -/
def tableWords (nbits w : Nat) : List Word :=
  (List.range ((nbits + 31) / 32)).map fun j => BitVec.ofNat 32 (w % 2 ^ nbits / 2 ^ (32 * j))

/-- The number of words of the command that starts a list of words, by R86. -/
def commandLength : List Word → Nat
  | [] => 0
  | w :: ops =>
    match Op.ofCode? (fieldOpc w) with
    | none => 1
    | some op => 1 + (op.operandLength ops).getD 0

/-- The words of one command whose bits are `w`: every bit above `nbits` is 0, operand words included, and the list
ends where the command ends (log entry 16). -/
def commandWords (nbits w : Nat) : List Word :=
  let ws := tableWords nbits w ++ List.replicate 5 0
  let n := commandLength ws
  (ws ++ List.replicate (n - ws.length) 0).take n

/-- The command the decoder reads from an opcode-table word (`none` where it refuses). -/
def decodeTableWord (nbits w : Nat) : Option Instr :=
  match decode (commandWords nbits w) with
  | .instr i _ => some i
  | .illegal _ _ => none
  | .incomplete => none

end Sys2Proof
end

