-- ==== Sys2Proof/Machine/Bits.lean ====
section
/-! DEFINITION. The byte and number notation of R8 and R9: big-endian sequences, truncation to a field, saturation. -/

namespace Sys2Proof.Machine

/-- `BE(v, n)`: the n-byte big-endian sequence of `v mod 2^(8n)`, most-significant byte first (R8). -/
def be (v : Nat) : Nat → List Byte
  | 0 => []
  | n + 1 => BitVec.ofNat 8 (v / 2 ^ (8 * n)) :: be v n

/-- `BEval`: the unsigned value of a big-endian byte sequence (R8). -/
def beVal (bs : List Byte) : Nat := bs.foldl (fun acc b => acc * 256 + b.toNat) 0

/-- `v mod 2^(8n)` of a 32-bit value: its low-order `n` bytes (R58, R109). -/
def lowBytes (n : Nat) (v : Word) : Word := BitVec.ofNat 32 (v.toNat % 2 ^ (8 * n))

/-- One step of big-endian accumulation into a 32-bit register, `(acc << 8) OR b mod 2^32` (R57, R153). -/
def shiftIn (acc : Word) (b : Byte) : Word := (acc <<< 8) ||| b.setWidth 32

/-- `sat32(v) = min(v, 2^32 − 1)` (R9). -/
def sat32 (v : Nat) : Word := BitVec.ofNat 32 (min v (2 ^ 32 - 1))

/-- A flag as bit 0 of a word. -/
def flagWord (b : Bool) : Word := if b then 1 else 0

end Sys2Proof.Machine
end

