-- ==== Sys2Proof/Config.lean ====
section
/-! DEFINITION. What one build of the block fixes: the parameters the spec leaves OPEN (R6, R36, 92_eei_decisions.md),
as plain data, and the one value the spec does not state (log entry 8). The values the spec's own vectors use stand in
Sys2Proof/Machine/Defaults.lean. -/

namespace Sys2Proof

/-- A parameter set `(W, poly, init, refin, refout, xorout)` of the CRC computation (R110); `W` is the index `w`. -/
structure CrcDef (w : Nat) where
  poly   : BitVec w
  init   : BitVec w
  refin  : Bool
  refout : Bool
  xorout : BitVec w
  deriving DecidableEq, Repr

/-- The parameter `CKSUM_DEFS` (R6): the final XOR of the XOR checksum (R102) and one R110 parameter set for each of
CRC8, CRC16 and CRC32 (R103 to R105). DESIGN CHOICE (log entry 6): a definition is an R110 parameter set. -/
structure CksumDefs where
  xorOut : Byte
  crc8   : CrcDef 8
  crc16  : CrcDef 16
  crc32  : CrcDef 32
  deriving DecidableEq, Repr

/-- The four OPEN parameters of R6. No command changes them (R36). -/
structure Params where
  /-- `N_ID_SLOTS`: the number of ID-listener slots; `none` is the unbounded registry R6 allows. -/
  nIdSlots   : Option Nat
  /-- `PAYLOAD_CAP` in bytes; `none` is the model value `∞` (R6, R187). -/
  payloadCap : Option Nat
  /-- `PEER_INIT`: the peer role at reset (R6). -/
  peerInit   : BitVec 1
  /-- `CKSUM_DEFS` (R6). -/
  cksumDefs  : CksumDefs
  deriving DecidableEq, Repr

/-- FREE VALUE (log entry 8). A result value is 32 bits (R76) and a slot index of 2^32 or more does not fit one; the
spec does not say what word is returned for it. Nothing constrains this word. -/
opaque Config.wideSlotIndex : Nat → Word

end Sys2Proof
end

