-- ==== Sys2Proof/Machine/Defaults.lean ====
section
/-! DEFINITION. The values of the OPEN parameters that the spec's vectors use (92_eei_decisions.md, "OPEN parameters,
summarised"; R102 to R105). `State.reset` takes them (log entry 5); every statement about a state holds for all
parameter values the state may carry. -/

namespace Sys2Proof.Machine

/-- CRC-8/MAXIM (R103). -/
def defaultCrc8 : CrcDef 8 := { poly := 0x31, init := 0x00, refin := true, refout := true, xorout := 0x00 }

/-- CRC-16/ARC (R104). -/
def defaultCrc16 : CrcDef 16 := { poly := 0x8005, init := 0x0000, refin := true, refout := true, xorout := 0x0000 }

/-- CRC-32/ISO-HDLC (R105). -/
def defaultCrc32 : CrcDef 32 :=
  { poly := 0x04C11DB7, init := 0xFFFFFFFF, refin := true, refout := true, xorout := 0xFFFFFFFF }

/-- The default of `CKSUM_DEFS` (R102 to R105, decision D6). -/
def defaultCksumDefs : CksumDefs :=
  { xorOut := 0xFF, crc8 := defaultCrc8, crc16 := defaultCrc16, crc32 := defaultCrc32 }

/-- The parameters of every vector of 95_test_vectors.md: N_ID_SLOTS = 4, PAYLOAD_CAP = ∞, PEER_INIT = 0. -/
def defaultParams : Params :=
  { nIdSlots := some 4, payloadCap := none, peerInit := 0, cksumDefs := defaultCksumDefs }

end Sys2Proof.Machine
end

