-- ==== Sys2Proof/Machine/State.lean ====
section
/-! DEFINITION. The state of the frame engine: the four parts of R20 (configuration registers, NEXT_ID, parser state,
slot file), the parameters it was built with (R36), and its three ports to the host: the RESET input (R270), the words
the host has delivered (R59, R70) and the responses handed back (R76, R77, R240). All of it is plain data. -/

namespace Sys2Proof.Machine

/-- The checksum selector (R100): the legal values 0..4 of CKSUM_SEL and `f_ck_sel` (R21, R29). -/
inductive CksumSel where
  | nosum | xor | crc8 | crc16 | crc32
  deriving DecidableEq, Repr

/-- The parser state `pstate` (R23). -/
inductive PState where
  | sof | id | len | typ | headCksum | data | dataCksum
  deriving DecidableEq, Repr

/-- The writable configuration registers 0x00 to 0x07 (R21). -/
structure CfgRegs where
  idSize        : Word
  lenSize       : Word
  typeSize      : Word
  sofByte       : Byte
  sofEn         : Bool
  cksumSel      : CksumSel
  chunkSize     : Word
  parserTimeout : Word
  peer          : BitVec 1
  deriving DecidableEq, Repr

/-- The parser state (R23 to R29, R31). `dcount` is held beside `dbuf` as R28 has it; that it equals `len(dbuf)` is
part of the invariant in Safety.lean. -/
structure Parser where
  pstate    : PState
  fpos      : BitVec 3
  rxId      : Word
  rxLen     : Word
  rxType    : Word
  rxCk      : Word
  hbuf      : List Byte
  dbuf      : List Byte
  dcount    : Word
  fIdSize   : BitVec 3
  fLenSize  : BitVec 3
  fTypeSize : BitVec 3
  fCkSel    : CksumSel
  ptCount   : Word
  deriving DecidableEq, Repr

/-- One ID-listener slot `{valid, id, has_to, countdown, max_to}` (R30). -/
structure Slot where
  valid     : Bool
  id        : Word
  hasTo     : Bool
  countdown : Word
  maxTo     : Word
  deriving DecidableEq, Repr

/-- A free slot, `{0, 0, 0, 0, 0}` (R30, R191). -/
def Slot.free : Slot := { valid := false, id := 0, hasTo := false, countdown := 0, maxTo := 0 }

/-- The status codes (R240). -/
inductive Status where
  | ok | illegalCmd | badConfig | lenOverflow | tableFull | badSlot
  deriving DecidableEq, Repr

/-- The fields of a `Dispatch` event (R77); `matchList` is its `match`. -/
structure DispatchInfo where
  frameId    : Word
  typ        : Word
  len        : Word
  data       : List Byte
  isResponse : Bool
  matchList  : List Nat
  deriving DecidableEq, Repr

/-- The four kinds of event (R77). -/
inductive Event where
  | txClaim
  | txChunk (bytes : List Byte)
  | txRelease
  | dispatch (d : DispatchInfo)
  deriving DecidableEq, Repr

/-- What one command hands back: its status, its result values and its events in order (R76, R77, R240). -/
structure Response where
  status : Status
  values : List Word
  events : List Event
  deriving DecidableEq, Repr

/-- The whole machine. -/
structure State where
  /-- The build's parameters (R36); no command changes them. -/
  params  : Params
  /-- Configuration registers 0x00 to 0x07 (R21). -/
  cfg     : CfgRegs
  /-- `NEXT_ID` (R22). -/
  nextId  : Word
  /-- The parser (R23 to R29, R31). -/
  parser  : Parser
  /-- The ID-listener slot file (R30), slot k at position k: `N_ID_SLOTS` entries, or the used ones of an unbounded
  file, where every slot past the end is free (log entry 7). -/
  slots   : List Slot
  /-- The RESET input is asserted (R270; log entry 4). -/
  resetIn : Bool
  /-- Words the host has delivered and no command has consumed, oldest first (R59, R70; log entry 1). -/
  input   : List Word
  /-- Responses handed back, oldest first: outputs, which no command reads (R20, R34; log entry 3). -/
  output  : List Response
  deriving DecidableEq, Repr

/-- Reasons the machine stops with a fault. TFE has no traps (R249): no step of the machine faults. -/
inductive Fault where
  /-- Raised by the host model's delivery of a `TxChunk` to an absent transmit sink (R252, I7), never by a step.
  Safe: the spec names this fault. -/
  | noTransmitSink
  deriving DecidableEq, Repr

/-- Reasons a run is refused. -/
inductive Refusal where
  /-- Raised by an arm of `exec` whose instruction has no meaning yet; safe. No arm does. -/
  | notModelled (mnemonic : String)
  /-- Raised by ACCEPT_BYTE on a build with a finite PAYLOAD_CAP that would enter DATA with `rx_len` above it: "A model
  of such a build must refuse the run" (R187, I4). Safe: the run is outside the spec. -/
  | payloadCapExceeded
  deriving DecidableEq, Repr

/-- The configuration registers after RESET (R21, R270). -/
def CfgRegs.reset (peerInit : BitVec 1) : CfgRegs :=
  { idSize := 4, lenSize := 4, typeSize := 4, sofByte := 0x00, sofEn := false, cksumSel := .nosum,
    chunkSize := 0, parserTimeout := 0, peer := peerInit }

/-- The parser after RESET (R270). -/
def Parser.reset : Parser :=
  { pstate := .sof, fpos := 0, rxId := 0, rxLen := 0, rxType := 0, rxCk := 0, hbuf := [], dbuf := [], dcount := 0,
    fIdSize := 4, fLenSize := 4, fTypeSize := 4, fCkSel := .nosum, ptCount := 0 }

/-- The slot file after RESET: every slot free (R270). An unbounded file lists none. -/
def resetSlots (n : Option Nat) : List Slot := List.replicate (n.getD 0) Slot.free

/-- A machine just after RESET, built with parameters `p` (R270). -/
def State.resetWith (p : Params) : State :=
  { params := p, cfg := CfgRegs.reset p.peerInit, nextId := 0, parser := Parser.reset, slots := resetSlots p.nIdSlots,
    resetIn := false, input := [], output := [] }

/-- The machine just after RESET with the parameters of the spec's vectors (log entry 5). -/
def State.reset : State := State.resetWith defaultParams

end Sys2Proof.Machine
end

