-- ==== Sys2Proof/Machine/Checksum.lean ====
section
/-! DEFINITION. The checksum engine (R100 to R111). -/

namespace Sys2Proof.Machine

/-- The code of a selector in CKSUM_SEL and in the A field of `CKSUM` (R21, R100). -/
def CksumSel.code : CksumSel → Nat
  | .nosum => 0
  | .xor => 1
  | .crc8 => 2
  | .crc16 => 3
  | .crc32 => 4

/-- The selector a value names; values above 4 select nothing (R100). -/
def CksumSel.ofCode? : Nat → Option CksumSel
  | 0 => some .nosum
  | 1 => some .xor
  | 2 => some .crc8
  | 3 => some .crc16
  | 4 => some .crc32
  | _ => none

/-- `CKSIZE(sel)`, the width in bytes (R100). -/
def cksize : CksumSel → Nat
  | .nosum => 0
  | .xor => 1
  | .crc8 => 1
  | .crc16 => 2
  | .crc32 => 4

/-- The XOR checksum (R102). -/
def xorSum (xorOut : Byte) (d : List Byte) : Byte := d.foldl (· ^^^ ·) 0x00 ^^^ xorOut

/-- One bit of the CRC computation: shift left, and XOR the polynomial where the top bit was 1 (R110). -/
def crcBit {w : Nat} (poly c : BitVec w) : BitVec w := if c.msb then (c <<< 1) ^^^ poly else c <<< 1

/-- `n` bits of the CRC computation. -/
def crcBits {w : Nat} (poly : BitVec w) : Nat → BitVec w → BitVec w
  | 0, c => c
  | n + 1, c => crcBits poly n (crcBit poly c)

/-- One byte of the CRC computation (R110). -/
def crcByte {w : Nat} (k : CrcDef w) (c : BitVec w) (b : Byte) : BitVec w :=
  let b' := if k.refin then b.reverse else b
  crcBits k.poly 8 (c ^^^ (b'.setWidth w <<< (w - 8)))

/-- The CRC of a byte sequence under a parameter set (R110). -/
def crc {w : Nat} (k : CrcDef w) (d : List Byte) : BitVec w :=
  let c := d.foldl (crcByte k) k.init
  (if k.refout then c.reverse else c) ^^^ k.xorout

/-- One byte of the least-significant-bit-first loop of R110, with `p` the reflected polynomial. -/
def crcByteLsb {w : Nat} (p c : BitVec w) (b : Byte) : BitVec w :=
  let bit (c : BitVec w) : BitVec w := if c.getLsbD 0 then (c >>> 1) ^^^ p else c >>> 1
  Nat.repeat bit 8 (c ^^^ b.setWidth w)

/-- The least-significant-bit-first loop of R110. -/
def crcLsb {w : Nat} (k : CrcDef w) (d : List Byte) : BitVec w :=
  d.foldl (crcByteLsb k.poly.reverse) k.init ^^^ k.xorout

/-- `CK(sel, d)` (R101). -/
def ck (defs : CksumDefs) (sel : CksumSel) (d : List Byte) : Word :=
  match sel with
  | .nosum => 0
  | .xor => (xorSum defs.xorOut d).setWidth 32
  | .crc8 => (crc defs.crc8 d).setWidth 32
  | .crc16 => (crc defs.crc16 d).setWidth 32
  | .crc32 => crc defs.crc32 d

/-- `CK(sel, d) mod 2^(8·cs)`, the value compared and put on the wire (R109). -/
def ckWire (defs : CksumDefs) (sel : CksumSel) (d : List Byte) : Word := lowBytes (cksize sel) (ck defs sel d)

end Sys2Proof.Machine
end

