-- ==== Sys2Proof/Machine/Ops.lean ====
section
/-! DEFINITION. The operations the meanings share: field updates, ending a command with its response or with an error
status (R9, R246), the slot file (R30, R193, R195), the RESET input (R270), and taking the next command from the host. -/

namespace Sys2Proof.Machine

/-- What every meaning and the step answer. -/
abbrev Result := Host.Outcome State Fault Refusal

/-- Go on from a next state; a stop stays the stop it is. -/
def andThen (r : Result) (f : State → Result) : Result :=
  match r with
  | .next t => f t
  | .fault e => .fault e
  | .refused e => .refused e

/-! ## Field updates -/

def State.setCfg (s : State) (c : CfgRegs) : State := { s with cfg := c }
def State.setNextId (s : State) (v : Word) : State := { s with nextId := v }
def State.setParser (s : State) (p : Parser) : State := { s with parser := p }
def State.setSlots (s : State) (l : List Slot) : State := { s with slots := l }
def State.setInput (s : State) (ws : List Word) : State := { s with input := ws }

/-- Hand one response back to the host (R76, R77, R240). -/
def State.reply (s : State) (st : Status) (vals : List Word) (evs : List Event) : State :=
  { s with output := s.output ++ [{ status := st, values := vals, events := evs }] }

/-! ## Ending a command -/

/-- `return (OK, vals)` after emitting `evs` (R9). -/
def complete (s : State) (vals : List Word) (evs : List Event) : Result := .next (s.reply .ok vals evs)

/-- `raise S` (R9): the error status, no value, no event and no state write (R246). TFE has no trap mechanism (R249),
so this is all an error does. -/
def raise (st : Status) (s : State) : Result := .next (s.reply st [] [])

/-- The code of a status (R240). -/
def Status.code : Status → Word
  | .ok => 0
  | .illegalCmd => 1
  | .badConfig => 2
  | .lenOverflow => 3
  | .tableFull => 4
  | .badSlot => 5

/-! ## The slot file -/

/-- `k < N_ID_SLOTS`; always so in an unbounded file. -/
def slotInRange (n : Option Nat) (k : Nat) : Bool :=
  match n with
  | some n => decide (k < n)
  | none => true

/-- Slot `k`; a slot past the listed ones is free. -/
def slotAt (slots : List Slot) (k : Nat) : Slot := slots.getD k Slot.free

/-- Write slot `k`, a listed one or the one after the last. -/
def putSlot (slots : List Slot) (k : Nat) (v : Slot) : List Slot :=
  if k < slots.length then slots.set k v else slots ++ [v]

/-- The lowest index of a slot with `valid = 0`, where one exists in range (R193, R242). -/
def freeSlot? (n : Option Nat) (slots : List Slot) : Option Nat :=
  let k := slots.findIdx (fun sl => !sl.valid)
  if slotInRange n k then some k else none

/-- What `LISTEN` writes into its slot (R193); the timeout is `none` for P = 0. -/
def listenSlot (id : Word) (timeout : Option Word) : Slot :=
  { valid := true, id := id, hasTo := timeout.isSome, countdown := timeout.getD 0, maxTo := timeout.getD 0 }

/-- `MATCH(fid)`: the ascending list of valid slots whose `id` is `fid` (R195). -/
def matchSlots (slots : List Slot) (fid : Word) : List Nat :=
  (List.range slots.length).filter fun k => (slotAt slots k).valid && (slotAt slots k).id == fid

/-- A slot index as a 32-bit result value (R76). An index that does not fit is a free value (log entry 8). -/
def slotIndexWord (k : Nat) : Word := if k < 2 ^ 32 then BitVec.ofNat 32 k else Config.wideSlotIndex k

/-! ## The RESET input -/

/-- Every state element at its reset value, no event and no status (R270). The two word ports are the host's side of
the interface and are not state elements: they stay as they are (log entry 4). -/
def State.hwReset (s : State) : State :=
  { State.resetWith s.params with input := s.input, output := s.output }

/-! ## The host's side of the ports -/

/-- The host delivers words (R59, R70). -/
def State.issue (s : State) (ws : List Word) : State := s.setInput (s.input ++ ws)

/-- The host asserts the RESET input; what it had delivered of a command not yet started is dropped. -/
def State.assertReset (s : State) : State := { s with resetIn := true, input := [] }

/-- The command at the head of the delivered words. -/
def State.nextCommand (s : State) : Decoded := decode s.input

/-- An illegal encoding: `ILLEGAL_CMD` and no other effect (R75, R241). -/
def rejectCommand (rest : List Word) (s : State) : Result := raise .illegalCmd (s.setInput rest)

/-- Place a command's words before the others delivered, with RESET not asserted (log entry 2). -/
def State.placeWords (s : State) (ws : List Word) : State := { s with resetIn := false, input := ws ++ s.input }

end Sys2Proof.Machine
end

