-- ==== Sys2Proof/Machine/Operands.lean ====
section
/-! DEFINITION. The configuration register space (R50): the registers a command names by number, which of them may be
written, which values are legal, and their reads and writes (R21, R220 to R222). -/

namespace Sys2Proof.Machine

/-- The assigned registers 0x00 to 0x0B (R21). -/
inductive CfgReg where
  | idSize | lenSize | typeSize | sofCtrl | cksumSel | chunkSize | parserTimeout | peer | nextId | pstate | ptCount | nSlots
  deriving DecidableEq, Repr

/-- The register number (R21). -/
def CfgReg.num : CfgReg → Byte
  | .idSize => 0x00
  | .lenSize => 0x01
  | .typeSize => 0x02
  | .sofCtrl => 0x03
  | .cksumSel => 0x04
  | .chunkSize => 0x05
  | .parserTimeout => 0x06
  | .peer => 0x07
  | .nextId => 0x08
  | .pstate => 0x09
  | .ptCount => 0x0A
  | .nSlots => 0x0B

/-- Every register once, in the order of R21. -/
def CfgReg.all : List CfgReg :=
  [.idSize, .lenSize, .typeSize, .sofCtrl, .cksumSel, .chunkSize, .parserTimeout, .peer, .nextId, .pstate, .ptCount,
   .nSlots]

/-- The register a number names; `none` for 0x0C to 0xFF, which are unassigned (R21). -/
def CfgReg.ofNum? (r : Byte) : Option CfgReg := CfgReg.all.find? (fun g => g.num == r)

/-- Access RW in R21: `CFGW` may name it. -/
def CfgReg.writable : CfgReg → Bool
  | .idSize | .lenSize | .typeSize | .sofCtrl | .cksumSel | .chunkSize | .parserTimeout | .peer => true
  | .nextId | .pstate | .ptCount | .nSlots => false

/-- A legal field width, 1..4 (R221, decision D3). -/
def legalWidth (v : Word) : Bool := decide (1 ≤ v.toNat ∧ v.toNat ≤ 4)

/-- `LEGAL(r, V)` (R221). A read-only register has no legal value to write. -/
def CfgReg.legal (g : CfgReg) (v : Word) : Bool :=
  match g with
  | .idSize => legalWidth v
  | .lenSize => legalWidth v
  | .typeSize => legalWidth v
  | .sofCtrl => v.extractLsb' 9 23 == 0
  | .cksumSel => decide (v.toNat ≤ 4)
  | .chunkSize => true
  | .parserTimeout => true
  | .peer => decide (v.toNat ≤ 1)
  | .nextId => false
  | .pstate => false
  | .ptCount => false
  | .nSlots => false

/-- Write a legal value into a writable register (R220). A read-only register is never written. -/
def CfgRegs.write (c : CfgRegs) (g : CfgReg) (v : Word) : CfgRegs :=
  match g with
  | .idSize => { c with idSize := v }
  | .lenSize => { c with lenSize := v }
  | .typeSize => { c with typeSize := v }
  | .sofCtrl => { c with sofByte := v.extractLsb' 0 8, sofEn := v.getLsbD 8 }
  | .cksumSel => { c with cksumSel := (CksumSel.ofCode? v.toNat).getD c.cksumSel }
  | .chunkSize => { c with chunkSize := v }
  | .parserTimeout => { c with parserTimeout := v }
  | .peer => { c with peer := v.setWidth 1 }
  | .nextId => c
  | .pstate => c
  | .ptCount => c
  | .nSlots => c

/-- The code of a parser state (R23). -/
def PState.code : PState → Word
  | .sof => 0
  | .id => 1
  | .len => 2
  | .typ => 3
  | .headCksum => 4
  | .data => 5
  | .dataCksum => 6

/-- `min(N_ID_SLOTS, 2^32 − 1)` (R21). -/
def nSlotsWord (n : Option Nat) : Word :=
  match n with
  | some n => sat32 n
  | none => sat32 (2 ^ 32 - 1)

/-- The 32-bit value of a register (R21, R222). -/
def State.readReg (s : State) (g : CfgReg) : Word :=
  match g with
  | .idSize => s.cfg.idSize
  | .lenSize => s.cfg.lenSize
  | .typeSize => s.cfg.typeSize
  | .sofCtrl => (flagWord s.cfg.sofEn <<< 8) ||| s.cfg.sofByte.setWidth 32
  | .cksumSel => BitVec.ofNat 32 s.cfg.cksumSel.code
  | .chunkSize => s.cfg.chunkSize
  | .parserTimeout => s.cfg.parserTimeout
  | .peer => s.cfg.peer.setWidth 32
  | .nextId => s.nextId
  | .pstate => s.parser.pstate.code
  | .ptCount => s.parser.ptCount
  | .nSlots => nSlotsWord s.params.nIdSlots

end Sys2Proof.Machine
end

