-- ==== Sys2Proof/Machine/ConfigAccess.lean ====
section
/-! DEFINITION. The commands CFGW and CFGR (R220 to R224) and CKSUM (R106), none of which touches parser or slots. -/

namespace Sys2Proof.Machine

/-- `CFGW r, V` (R220). -/
def execCfgw (r : Byte) (v : Word) (s : State) : Result :=
  match CfgReg.ofNum? r with
  | none => raise .illegalCmd s
  | some g =>
    if !g.writable then raise .illegalCmd s
    else if !g.legal v then raise .badConfig s
    else complete (s.setCfg (s.cfg.write g v)) [] []

/-- `CFGR r` (R222). -/
def execCfgr (r : Byte) (s : State) : Result :=
  match CfgReg.ofNum? r with
  | none => raise .illegalCmd s
  | some g => complete s [s.readReg g] []

/-- `CKSUM sel, d` (R106): the selector is the operand's, not CKSUM_SEL. -/
def execCksum (sel : Byte) (d : List Byte) (s : State) : Result :=
  match CksumSel.ofCode? sel.toNat with
  | none => raise .badConfig s
  | some c => complete s [ck s.params.cksumDefs c d] []

end Sys2Proof.Machine
end

