-- ==== Sys2Proof/Machine/Listener.lean ====
section
/-! DEFINITION. The ID-listener slots and the tick (R190 to R199): LADD, LREM, LRENEW, LREAD and TICK. -/

namespace Sys2Proof.Machine

/-- `LADD` (R190). -/
def execLadd (lid : Word) (timeout : Option Word) (s : State) : Result :=
  match freeSlot? s.params.nIdSlots s.slots with
  | none => raise .tableFull s
  | some k => complete (s.setSlots (putSlot s.slots k (listenSlot lid timeout))) [slotIndexWord k] []

/-- Slot `k` is in range and valid: what LREM and LRENEW need (R245). -/
def liveSlot (s : State) (k : Nat) : Bool := slotInRange s.params.nIdSlots k && (slotAt s.slots k).valid

/-- `LREM k` (R191). -/
def execLrem (k : BitVec 16) (s : State) : Result :=
  if liveSlot s k.toNat then complete (s.setSlots (putSlot s.slots k.toNat Slot.free)) [] []
  else raise .badSlot s

/-- A renewed slot: a timed one's countdown is its `max_to` again (R192). -/
def Slot.renew (sl : Slot) : Slot := if sl.hasTo then { sl with countdown := sl.maxTo } else sl

/-- `LRENEW k` (R192). -/
def execLrenew (k : BitVec 16) (s : State) : Result :=
  if liveSlot s k.toNat then complete (s.setSlots (putSlot s.slots k.toNat (slotAt s.slots k.toNat).renew)) [] []
  else raise .badSlot s

/-- The four words of a slot (R194): `valid | has_to << 1`, `id`, `countdown`, `max_to`. -/
def Slot.words (sl : Slot) : List Word :=
  [flagWord sl.valid ||| (flagWord sl.hasTo <<< 1), sl.id, sl.countdown, sl.maxTo]

/-- `LREAD k` (R194). -/
def execLread (k : BitVec 16) (s : State) : Result :=
  if slotInRange s.params.nIdSlots k.toNat then complete s (slotAt s.slots k.toNat).words []
  else raise .badSlot s

/-- One tick of a slot (R196): a timed slot is freed at countdown ≤ 1 and counts down otherwise. -/
def Slot.age (sl : Slot) : Slot :=
  if sl.valid && sl.hasTo then
    if sl.countdown.toNat ≤ 1 then Slot.free else { sl with countdown := sl.countdown - 1 }
  else sl

/-- One tick of the parse-timeout counter (R196, R31). -/
def Parser.countTick (p : Parser) : Parser := { p with ptCount := sat32 (p.ptCount.toNat + 1) }

/-- `TICK` (R196). -/
def execTick (s : State) : Result :=
  complete ((s.setParser s.parser.countTick).setSlots (s.slots.map Slot.age)) [] []

end Sys2Proof.Machine
end

