-- ==== Sys2Proof/Machine/Parser.lean ====
section
/-! DEFINITION. The frame parser (R150 to R166, R187): the internal actions CLEAR, BEGIN and DISPATCH, one step per
parser state, and the commands ACCEPT_BYTE and RESET_PARSER. -/

namespace Sys2Proof.Machine

/-- `CLEAR` (R161): the parser idle; `f_*` and `pt_count` stay. -/
def Parser.clear (p : Parser) : Parser :=
  { p with pstate := .sof, fpos := 0, rxId := 0, rxLen := 0, rxType := 0, rxCk := 0, hbuf := [], dbuf := [], dcount := 0 }

/-- `BEGIN` (R151): CLEAR, latch the widths and the selector, enter ID. -/
def Parser.beginFrame (c : CfgRegs) (p : Parser) : Parser :=
  { p.clear with
    fIdSize := c.idSize.setWidth 3, fLenSize := c.lenSize.setWidth 3, fTypeSize := c.typeSize.setWidth 3,
    fCkSel := c.cksumSel, pstate := .id }

/-- What a parser step gives: the parser after it with the events emitted, or a frame longer than a finite payload
buffer, a run the model refuses (R187). -/
inductive Parsed where
  | ok (p : Parser) (evs : List Event)
  | overCap
  deriving DecidableEq, Repr

/-- The event of `DISPATCH` (R158), its `match` list taken from the slots now (R195). `is_response` is 0 (D12). -/
def dispatchInfo (slots : List Slot) (p : Parser) : DispatchInfo :=
  { frameId := p.rxId, typ := p.rxType, len := p.rxLen, data := p.dbuf, isResponse := false,
    matchList := matchSlots slots p.rxId }

/-- `DISPATCH` (R158): emit the frame, then CLEAR. -/
def dispatchFrame (slots : List Slot) (p : Parser) : Parsed := .ok p.clear [.dispatch (dispatchInfo slots p)]

/-- A silent drop: CLEAR and no event (R156, R159, R247). -/
def dropFrame (p : Parser) : Parsed := .ok p.clear []

/-- `rx_len` is above a finite PAYLOAD_CAP (R187). -/
def overCap (cap : Option Nat) (rxLen : Word) : Bool :=
  match cap with
  | some n => decide (n < rxLen.toNat)
  | none => false

/-- `pstate <- DATA`, where the payload buffer can hold the frame (R155, R156, R187). -/
def enterData (cap : Option Nat) (p : Parser) : Parsed :=
  if overCap cap p.rxLen then .overCap else .ok { p with pstate := .data } []

/-- State ID (R153). -/
def stepId (b : Byte) (p : Parser) : Parser :=
  let p := { p with rxId := shiftIn p.rxId b, hbuf := p.hbuf ++ [b], fpos := p.fpos + 1 }
  if p.fpos = p.fIdSize then { p with fpos := 0, pstate := .len } else p

/-- State LEN (R154). -/
def stepLen (b : Byte) (p : Parser) : Parser :=
  let p := { p with rxLen := shiftIn p.rxLen b, hbuf := p.hbuf ++ [b], fpos := p.fpos + 1 }
  if p.fpos = p.fLenSize then { p with fpos := 0, pstate := .typ } else p

/-- State TYPE (R155). -/
def stepType (prm : Params) (slots : List Slot) (b : Byte) (p : Parser) : Parsed :=
  let p := { p with rxType := shiftIn p.rxType b, hbuf := p.hbuf ++ [b], fpos := p.fpos + 1 }
  if p.fpos = p.fTypeSize then
    let p := { p with fpos := 0 }
    if 0 < cksize p.fCkSel then .ok { p with rxCk := 0, pstate := .headCksum } []
    else if p.rxLen = 0 then dispatchFrame slots p
    else enterData prm.payloadCap p
  else .ok p []

/-- State HEADCKSUM (R156). -/
def stepHeadCksum (prm : Params) (slots : List Slot) (b : Byte) (p : Parser) : Parsed :=
  let p := { p with rxCk := shiftIn p.rxCk b, fpos := p.fpos + 1 }
  if p.fpos.toNat = cksize p.fCkSel then
    let p := { p with fpos := 0 }
    if p.rxCk ≠ ckWire prm.cksumDefs p.fCkSel p.hbuf then dropFrame p
    else if p.rxLen = 0 then dispatchFrame slots p
    else enterData prm.payloadCap { p with dbuf := [], dcount := 0 }
  else .ok p []

/-- State DATA (R157). -/
def stepData (slots : List Slot) (b : Byte) (p : Parser) : Parsed :=
  let p := { p with dbuf := p.dbuf ++ [b], dcount := p.dcount + 1 }
  if p.dcount = p.rxLen then
    if cksize p.fCkSel = 0 then dispatchFrame slots p
    else .ok { p with rxCk := 0, fpos := 0, pstate := .dataCksum } []
  else .ok p []

/-- State DATACKSUM (R159). -/
def stepDataCksum (prm : Params) (slots : List Slot) (b : Byte) (p : Parser) : Parsed :=
  let p := { p with rxCk := shiftIn p.rxCk b, fpos := p.fpos + 1 }
  if p.fpos.toNat = cksize p.fCkSel then
    let p := { p with fpos := 0 }
    if p.rxCk ≠ ckWire prm.cksumDefs p.fCkSel p.dbuf then dropFrame p
    else dispatchFrame slots p
  else .ok p []

/-- State SOF (R152): SOF_EN, SOF_BYTE and the widths to latch are read live. -/
def stepSof (c : CfgRegs) (b : Byte) (p : Parser) : Parser :=
  if c.sofEn then
    if b = c.sofByte then p.beginFrame c else p
  else stepId b (p.beginFrame c)

/-- One step of the parser (R152 to R159). -/
def parserStep (prm : Params) (c : CfgRegs) (slots : List Slot) (b : Byte) (p : Parser) : Parsed :=
  match p.pstate with
  | .sof => .ok (stepSof c b p) []
  | .id => .ok (stepId b p) []
  | .len => .ok (stepLen b p) []
  | .typ => stepType prm slots b p
  | .headCksum => stepHeadCksum prm slots b p
  | .data => stepData slots b p
  | .dataCksum => stepDataCksum prm slots b p

/-- The stall test of R150 and R164: the timeout is enabled and exceeded, and a frame is in flight. -/
def Parser.stalled (timeout : Word) (p : Parser) : Bool :=
  decide (timeout ≠ 0) && decide (timeout.toNat < p.ptCount.toNat) && decide (p.pstate ≠ .sof)

/-- The parser when `ACCEPT_BYTE` comes to its byte: a stalled frame dropped, `pt_count` zeroed (R150). -/
def Parser.arrive (timeout : Word) (p : Parser) : Parser :=
  { (if p.stalled timeout then p.clear else p) with ptCount := 0 }

/-- `ACCEPT_BYTE b` (R150). -/
def execAcceptByte (b : Byte) (s : State) : Result :=
  match parserStep s.params s.cfg s.slots b (s.parser.arrive s.cfg.parserTimeout) with
  | .ok p evs => complete (s.setParser p) [] evs
  | .overCap => .refused .payloadCapExceeded

/-- `RESET_PARSER` (R160). -/
def execResetParser (s : State) : Result := complete (s.setParser s.parser.clear) [] []

end Sys2Proof.Machine
end

