-- ==== Sys2Proof/Machine/Serializer.lean ====
section
/-! DEFINITION. The frame serializer (R120 to R132): ID selection, frame composition, chunking, and the commands SEND,
QUERY and RESPOND. -/

namespace Sys2Proof.Machine

/-- The ID of a response: FID cut to the field (R120). -/
def responseId (c : CfgRegs) (fid : Word) : Word := lowBytes c.idSize.toNat fid

/-- The stamped ID of an allocation (R121): the counter's low `8w − 1` bits, with PEER as the field's top bit. -/
def allocatedId (c : CfgRegs) (nextId : Word) : Word :=
  let w := c.idSize.toNat
  let raw := nextId.toNat % 2 ^ (8 * w)
  BitVec.ofNat 32 ((raw % 2 ^ (8 * w - 1)) ||| (c.peer.toNat <<< (8 * w - 1)))

/-- NEXT_ID after an allocation (R121). -/
def advancedId (c : CfgRegs) (nextId : Word) : Word :=
  let w := c.idSize.toNat
  let raw := nextId.toNat % 2 ^ (8 * w)
  BitVec.ofNat 32 ((raw + 1) % 2 ^ (8 * w))

/-- The frame's ID (R120, R121). -/
def frameIdOf (resp : Bool) (fid : Word) (s : State) : Word :=
  if resp then responseId s.cfg fid else allocatedId s.cfg s.nextId

/-- NEXT_ID after the frame's ID is chosen (R120, R121). -/
def nextIdAfter (resp : Bool) (s : State) : Word := if resp then s.nextId else advancedId s.cfg s.nextId

/-- The header bytes H (R122). -/
def headerBytes (c : CfgRegs) (id typ : Word) (n : Nat) : List Byte :=
  be id.toNat c.idSize.toNat ++ be n c.lenSize.toNat ++ be typ.toNat c.typeSize.toNat

/-- A checksum field: the big-endian checksum of a window, absent when no strategy is active (R109, R123, R124). -/
def cksumField (defs : CksumDefs) (sel : CksumSel) (window : List Byte) : List Byte :=
  be (ckWire defs sel window).toNat (cksize sel)

/-- The start-of-frame byte, where one is configured (R123). -/
def sofField (c : CfgRegs) : List Byte := if c.sofEn then [c.sofByte] else []

/-- HEAD (R123). -/
def frameHead (defs : CksumDefs) (c : CfgRegs) (id typ : Word) (n : Nat) : List Byte :=
  let h := headerBytes c id typ n
  sofField c ++ h ++ cksumField defs c.cksumSel h

/-- TAIL (R124): a zero-length payload carries no checksum. -/
def frameTail (defs : CksumDefs) (c : CfgRegs) (d : List Byte) : List Byte :=
  d ++ (if 0 < d.length then cksumField defs c.cksumSel d else [])

/-- FRAME (R124). -/
def frameBytes (defs : CksumDefs) (c : CfgRegs) (id typ : Word) (d : List Byte) : List Byte :=
  frameHead defs c id typ d.length ++ frameTail defs c d

/-- Pieces of `n` bytes, the last with what is left; `fuel` bounds the number of pieces. -/
def pieces (n : Nat) : Nat → List Byte → List (List Byte)
  | 0, _ => []
  | fuel + 1, l => if l.isEmpty then [] else l.take n :: pieces n fuel (l.drop n)

/-- `CHUNKS(F)` (R128); CHUNK_SIZE = 0 is one piece, the whole frame. -/
def chunks (size : Word) (f : List Byte) : List (List Byte) :=
  if size = 0 then [f] else pieces size.toNat f.length f

/-- The events of a transmitted frame (R129). -/
def txEvents (c : CfgRegs) (f : List Byte) : List Event :=
  .txClaim :: ((chunks c.chunkSize f).map Event.txChunk ++ [.txRelease])

/-- The payload count does not fit in LEN_SIZE bytes (R125, R244). -/
def lenOverflows (c : CfgRegs) (n : Nat) : Bool := decide (2 ^ (8 * c.lenSize.toNat) - 1 < n)

/-- Transmit a frame and end the command with `vals` after it (R125 to R127, R129). -/
def transmit (id typ : Word) (d : List Byte) (vals : List Word) (s : State) : Result :=
  complete s vals (txEvents s.cfg (frameBytes s.params.cksumDefs s.cfg id typ d))

/-- The common part of SEND and RESPOND (R125, R127). -/
def sendFrame (resp : Bool) (fid typ : Word) (d : List Byte) (s : State) : Result :=
  if lenOverflows s.cfg d.length then raise .lenOverflow s
  else
    let id := frameIdOf resp fid s
    transmit id typ d [id] (s.setNextId (nextIdAfter resp s))

/-- `SEND` (R125). -/
def execSend (resp : Bool) (fid typ : Word) (d : List Byte) (s : State) : Result := sendFrame resp fid typ d s

/-- `RESPOND` (R127): SEND with `isResponse` taken as 1, whatever the caller's flag A[0] holds. -/
def execRespond (_resp : Bool) (fid typ : Word) (d : List Byte) (s : State) : Result := sendFrame true fid typ d s

/-- `QUERY` (R126): the listener is in its slot before the first byte is emitted. -/
def execQuery (resp : Bool) (fid typ : Word) (timeout : Option Word) (d : List Byte) (s : State) : Result :=
  if lenOverflows s.cfg d.length then raise .lenOverflow s
  else match freeSlot? s.params.nIdSlots s.slots with
    | none => raise .tableFull s
    | some k =>
      let id := frameIdOf resp fid s
      transmit id typ d [id, slotIndexWord k]
        ((s.setNextId (nextIdAfter resp s)).setSlots (putSlot s.slots k (listenSlot id timeout)))

end Sys2Proof.Machine
end

