-- ==== Sys2Proof/Machine/Dispatch.lean ====
section
/-! DEFINITION. One arm per command (R74). -/

namespace Sys2Proof.Machine

def exec (i : Instr) (s : State) : Host.Outcome State Fault Refusal :=
  match i with
  | .acceptByte b => Sys2Proof.Machine.execAcceptByte b s
  | .tick => Sys2Proof.Machine.execTick s
  | .resetParser => Sys2Proof.Machine.execResetParser s
  | .cfgw r v => Sys2Proof.Machine.execCfgw r v s
  | .cfgr r => Sys2Proof.Machine.execCfgr r s
  | .cksum sel data => Sys2Proof.Machine.execCksum sel data s
  | .send resp fid typ data => Sys2Proof.Machine.execSend resp fid typ data s
  | .query resp fid typ timeout data => Sys2Proof.Machine.execQuery resp fid typ timeout data s
  | .respond resp fid typ data => Sys2Proof.Machine.execRespond resp fid typ data s
  | .ladd lid timeout => Sys2Proof.Machine.execLadd lid timeout s
  | .lrem k => Sys2Proof.Machine.execLrem k s
  | .lrenew k => Sys2Proof.Machine.execLrenew k s
  | .lread k => Sys2Proof.Machine.execLread k s

end Sys2Proof.Machine
end

