-- ==== Sys2Proof/Machine/Step.lean ====
section
/-! DEFINITION. One step of the machine: the RESET input (R270), or the next command of the host, atomically and in
the order issued (R51). With no whole command delivered the engine waits (R271; log entry 1). -/

namespace Sys2Proof.Machine

def step (s : State) : Host.Outcome State Fault Refusal :=
  if s.resetIn then .next s.hwReset
  else match s.nextCommand with
    | .incomplete => .next s
    | .illegal _ rest => rejectCommand rest s
    | .instr i rest => exec i (s.setInput rest)

/-- `s` with the command of opcode-table bits `w` delivered as the next one (log entries 2 and 16). -/
def State.withFetchWord (s : State) (nbits w : Nat) : State := s.placeWords (commandWords nbits w)

end Sys2Proof.Machine
end

