-- ==== Sys2Proof/Machine/Assembler.lean ====
section
/-! DEFINITION. Command sequences: the mnemonic syntax of R78, its pseudo-commands ACCEPTS (R79) and TICKS (R87) and
their expansion, the words a program assembles to, running a sequence of commands in the host's order (R51), and delivering
its words in pieces with steps between. -/

namespace Sys2Proof.Machine

/-! ## Running commands in order -/

/-- The commands of a list, one atomic step each, in order (R51), stopping where one does. -/
def runCommands : List Instr → State → Result
  | [], s => .next s
  | i :: is, s => andThen (exec i s) (runCommands is)

/-- The next `n` steps. -/
def runSteps : Nat → State → Result
  | 0, s => .next s
  | n + 1, s => andThen (step s) (runSteps n)

/-- The host delivers words in pieces (R59, R60): it issues the words of each piece, then lets the number of steps
beside it go by. -/
def deliver : List (List Word × Nat) → State → Result
  | [], s => .next s
  | (ws, n) :: ps, s => andThen (runSteps n (s.issue ws)) (deliver ps)

/-- The words of a sequence of commands, in order (R70). -/
def commandStream (is : List Instr) : List Word := is.flatMap encode

/-- `ACCEPTS [b0, ..., b(n-1)]` expands to one `ACCEPT_BYTE` per byte, in order (R79). -/
def acceptsExpansion (bs : List Byte) : List Instr := bs.map Instr.acceptByte

/-- `TICKS t` expands to `t` copies of `TICK` (R87). -/
def ticksExpansion (t : Nat) : List Instr := List.replicate t Instr.tick

/-- Feed bytes to the parser (R79). -/
def accepts (bs : List Byte) (s : State) : Result := runCommands (acceptsExpansion bs) s

/-- Issue `t` ticks (R87). -/
def ticks (t : Nat) (s : State) : Result := runCommands (ticksExpansion t) s

/-! ## Lines of the mnemonic syntax (R78) -/

/-- A line of R78, a name already read as the number it stands for. `resp` is `none` where `resp=` is left out. -/
inductive AsmLine where
  | acceptByte (b : Byte)
  | tick
  | resetParser
  | cfgw (r : Byte) (v : Word)
  | cfgr (r : Byte)
  | cksum (sel : Byte) (data : List Byte)
  | send (fid typ : Word) (resp : Option Bool) (data : List Byte)
  | respond (fid typ : Word) (resp : Option Bool) (data : List Byte)
  | query (fid typ : Word) (resp : Option Bool) (timeout : Option Word) (data : List Byte)
  | ladd (lid : Word) (timeout : Option Word)
  | lrem (k : BitVec 16)
  | lrenew (k : BitVec 16)
  | lread (k : BitVec 16)
  | accepts (bs : List Byte)
  | ticks (t : Nat)
  deriving DecidableEq, Repr

/-- The commands a line stands for: "A `resp=` that is left out means `resp=0`" (R78); R79 and R87 for the
pseudo-commands. -/
def AsmLine.expand : AsmLine → List Instr
  | .acceptByte b => [.acceptByte b]
  | .tick => [.tick]
  | .resetParser => [.resetParser]
  | .cfgw r v => [.cfgw r v]
  | .cfgr r => [.cfgr r]
  | .cksum sel d => [.cksum sel d]
  | .send fid typ resp d => [.send (resp.getD false) fid typ d]
  | .respond fid typ resp d => [.respond (resp.getD false) fid typ d]
  | .query fid typ resp t d => [.query (resp.getD false) fid typ t d]
  | .ladd lid t => [.ladd lid t]
  | .lrem k => [.lrem k]
  | .lrenew k => [.lrenew k]
  | .lread k => [.lread k]
  | .accepts bs => acceptsExpansion bs
  | .ticks t => ticksExpansion t

/-- The command words a list of lines assembles to. -/
def assemble (ls : List AsmLine) : List Word := commandStream (ls.flatMap AsmLine.expand)

/-! ## Reading the text of a line (R78) -/

/-- The tokens of a line. -/
inductive Tok where
  | word (cs : List Char)
  | comma | equals | lbracket | rbracket
  deriving DecidableEq, Repr

/-- End the word collected so far. -/
def Tok.flush (acc : List Char) : List Tok := if acc.isEmpty then [] else [.word acc.reverse]

/-- Split a line into tokens, `acc` being the word in progress, backwards; `;` starts a comment (R78). -/
def lex (acc : List Char) : List Char → List Tok
  | [] => Tok.flush acc
  | c :: cs =>
    if c = ';' then Tok.flush acc
    else if c = ',' then Tok.flush acc ++ Tok.comma :: lex [] cs
    else if c = '=' then Tok.flush acc ++ Tok.equals :: lex [] cs
    else if c = '[' then Tok.flush acc ++ Tok.lbracket :: lex [] cs
    else if c = ']' then Tok.flush acc ++ Tok.rbracket :: lex [] cs
    else if c = ' ' || c = '\t' then Tok.flush acc ++ lex [] cs
    else lex (c :: acc) cs

/-- The value of a digit in a base of at most 16. -/
def digit? (base : Nat) (c : Char) : Option Nat :=
  let n := c.toNat
  let v := if 48 ≤ n ∧ n ≤ 57 then n - 48 else if 65 ≤ n ∧ n ≤ 70 then n - 55 else if 97 ≤ n ∧ n ≤ 102 then n - 87 else 16
  if v < base then some v else none

/-- Digits in a base. -/
def digits? (base : Nat) (cs : List Char) : Option Nat :=
  if cs.isEmpty then none
  else cs.foldl (fun acc c => acc.bind fun a => (digit? base c).map fun d => a * base + d) (some 0)

/-- A number, decimal or `0x` hexadecimal. -/
def number? : List Char → Option Nat
  | '0' :: 'x' :: cs => digits? 16 cs
  | cs => digits? 10 cs

/-- A number of at most `w` bits. -/
def numberOf? (w : Nat) (cs : List Char) : Option (BitVec w) :=
  (number? cs).bind fun n => if n < 2 ^ w then some (BitVec.ofNat w n) else none

/-- The register names of R21. -/
def regNames : List (String × Byte) :=
  [("ID_SIZE", 0x00), ("LEN_SIZE", 0x01), ("TYPE_SIZE", 0x02), ("SOF_CTRL", 0x03), ("CKSUM_SEL", 0x04),
   ("CHUNK_SIZE", 0x05), ("PARSER_TIMEOUT", 0x06), ("PEER", 0x07), ("NEXT_ID", 0x08), ("PSTATE", 0x09),
   ("PT_COUNT", 0x0A), ("N_SLOTS", 0x0B)]

/-- The selector names of R78. -/
def selNames : List (String × Byte) := [("NONE", 0), ("XOR", 1), ("CRC8", 2), ("CRC16", 3), ("CRC32", 4)]

/-- A name of a table, or a number (R78). -/
def nameOrNumber? (names : List (String × Byte)) (cs : List Char) : Option Byte :=
  match names.find? (fun p => p.1.toList == cs) with
  | some p => some p.2
  | none => numberOf? 8 cs

/-- The flag of `resp=R`. DESIGN CHOICE (log entry 15): R is written as any other number is, and has one bit; R78 does
not say how it is written. -/
def respOf? (cs : List Char) : Option Bool := (numberOf? 1 cs).map (· == 1)

/-- `timeout=t` or `timeout=null`. -/
def timeoutOf? (cs : List Char) : Option (Option Word) :=
  if cs = "null".toList then some none else (numberOf? 32 cs).map some

/-- What follows a byte of a list: the bracket that ends the line, or a comma and the next byte. -/
def byteTail? : List Tok → Option (List Byte)
  | [.rbracket] => some []
  | .comma :: .word cs :: ts => (numberOf? 8 cs).bind fun b => (byteTail? ts).map fun bs => b :: bs
  | _ => none

/-- The bytes after an opening bracket, up to the closing one that ends the line. DESIGN CHOICE (log entry 15): a comma
stands between two bytes only, so a list with one after its last byte is refused; R78 does not show that form. -/
def byteList? : List Tok → Option (List Byte)
  | [.rbracket] => some []
  | .word cs :: ts => (numberOf? 8 cs).bind fun b => (byteTail? ts).map fun bs => b :: bs
  | _ => none

/-- `key=value` at the head of the tokens. -/
def keyed? (key : String) : List Tok → Option (List Char × List Tok)
  | .word k :: .equals :: .word v :: ts => if k = key.toList then some (v, ts) else none
  | _ => none

/-- `, key=value` at the head of the tokens. -/
def commaKeyed? (key : String) : List Tok → Option (List Char × List Tok)
  | .comma :: ts => keyed? key ts
  | _ => none

/-- `, data=[…]`, which ends the line. -/
def commaData? : List Tok → Option (List Byte)
  | .comma :: .word k :: .equals :: .lbracket :: ts => if k = "data".toList then byteList? ts else none
  | _ => none

/-- `, resp=R`, which may be left out. -/
def optionalResp? (ts : List Tok) : Option (Option Bool × List Tok) :=
  match commaKeyed? "resp" ts with
  | some (v, rest) => (respOf? v).map fun r => (some r, rest)
  | none => some (none, ts)

/-- `id=F, type=T` and an optional `resp=R`, which SEND, RESPOND and QUERY share. -/
def messageHead? (ts : List Tok) : Option (Word × Word × Option Bool × List Tok) :=
  match keyed? "id" ts with
  | none => none
  | some (f, ts) =>
    match commaKeyed? "type" ts with
    | none => none
    | some (t, ts) =>
      match numberOf? 32 f, numberOf? 32 t, optionalResp? ts with
      | some f, some t, some (r, ts) => some (f, t, r, ts)
      | _, _, _ => none

/-- The operands of a line whose mnemonic is read. -/
def readOperands (mnemonic : List Char) (ts : List Tok) : Option AsmLine :=
  if mnemonic = "ACCEPT_BYTE".toList then
    match ts with
    | [.word b] => (numberOf? 8 b).map .acceptByte
    | _ => none
  else if mnemonic = "TICK".toList then if ts = [] then some .tick else none
  else if mnemonic = "RESET_PARSER".toList then if ts = [] then some .resetParser else none
  else if mnemonic = "CFGW".toList then
    match ts with
    | [.word r, .comma, .word v] =>
      (nameOrNumber? regNames r).bind fun r => (numberOf? 32 v).map fun v => .cfgw r v
    | _ => none
  else if mnemonic = "CFGR".toList then
    match ts with
    | [.word r] => (nameOrNumber? regNames r).map .cfgr
    | _ => none
  else if mnemonic = "CKSUM".toList then
    match ts with
    | .word c :: .comma :: .lbracket :: ts =>
      (nameOrNumber? selNames c).bind fun c => (byteList? ts).map fun d => .cksum c d
    | _ => none
  else if mnemonic = "SEND".toList then
    (messageHead? ts).bind fun (f, t, r, ts) => (commaData? ts).map fun d => .send f t r d
  else if mnemonic = "RESPOND".toList then
    (messageHead? ts).bind fun (f, t, r, ts) => (commaData? ts).map fun d => .respond f t r d
  else if mnemonic = "QUERY".toList then
    (messageHead? ts).bind fun (f, t, r, ts) =>
      (commaKeyed? "timeout" ts).bind fun (o, ts) =>
        (timeoutOf? o).bind fun o => (commaData? ts).map fun d => .query f t r o d
  else if mnemonic = "LADD".toList then
    (keyed? "id" ts).bind fun (l, ts) =>
      (commaKeyed? "timeout" ts).bind fun (o, ts) =>
        if ts = [] then (numberOf? 32 l).bind fun l => (timeoutOf? o).map fun o => .ladd l o else none
  else if mnemonic = "ACCEPTS".toList then
    match ts with
    | .lbracket :: ts => (byteList? ts).map .accepts
    | _ => none
  else if mnemonic = "TICKS".toList then
    match ts with
    | [.word t] => (number? t).map .ticks
    | _ => none
  else
    match ts with
    | [.word k] =>
      (numberOf? 16 k).bind fun k =>
        if mnemonic = "LREM".toList then some (.lrem k)
        else if mnemonic = "LRENEW".toList then some (.lrenew k)
        else if mnemonic = "LREAD".toList then some (.lread k)
        else none
    | _ => none

/-- Read one line: nothing on an empty or comment line (log entry 15), `none` where it is no line of R78. -/
def readLine (cs : List Char) : Option (List AsmLine) :=
  match lex [] cs with
  | [] => some []
  | .word m :: ts => (readOperands m ts).map fun l => [l]
  | _ => none

end Sys2Proof.Machine
end

