-- ==== Sys2Proof/Machine/HostSide.lean ====
section
/-! DEFINITION. The host's duties towards the events TFE hands it (R252, R253, I7), which the spec states "so that a
model of the whole system gets them right". No step of the machine uses this file (log entry 14). -/

namespace Sys2Proof.Machine

/-- Which of its handlers a host has connected: the sink is mandatory, the two arbitration hooks are not (R252). -/
structure HostLinks where
  claim   : Bool
  sink    : Bool
  release : Bool
  deriving DecidableEq, Repr

/-- The Message the host builds from a `Dispatch` (R253, R77). -/
structure HostMessage where
  typ        : Word
  frameId    : Word
  data       : List Byte
  isResponse : Bool
  deriving DecidableEq, Repr

/-- The host's own listener tables: the type of each type listener, and the number of generic listeners. -/
structure HostTables where
  typeListeners    : List Word
  genericListeners : Nat
  deriving DecidableEq, Repr

/-- What the host does on an event. Listeners are named by slot index or by position in their table. -/
inductive HostAct where
  | claimBus
  | writeSink (bytes : List Byte)
  | releaseBus
  | callId (slot : Nat) (m : HostMessage)
  | callType (pos : Nat) (m : HostMessage)
  | callGeneric (pos : Nat) (m : HostMessage)
  deriving DecidableEq, Repr

/-- The Message of a dispatched frame (R253 step 1). -/
def messageOf (d : DispatchInfo) : HostMessage :=
  { typ := d.typ, frameId := d.frameId, data := d.data, isResponse := d.isResponse }

/-- The positions of the type listeners whose type is the message's, in table order. -/
def typeMatches (h : HostTables) (t : Word) : List Nat :=
  (List.range h.typeListeners.length).filter fun k => h.typeListeners.getD k 0 == t

/-- The fan-out of a dispatch in its fixed order, from snapshots (R253 steps 2 to 5). -/
def fanOut (h : HostTables) (d : DispatchInfo) : List HostAct :=
  let m := messageOf d
  d.matchList.map (HostAct.callId · m)
    ++ (typeMatches h d.typ).map (HostAct.callType · m)
    ++ (List.range h.genericListeners).map (HostAct.callGeneric · m)

/-- What the host does on one event: an absent hook is a no-op, an absent sink is a host fault (R252). -/
def hostDeliver (l : HostLinks) (h : HostTables) : Event → Host.Outcome (List HostAct) Fault Refusal
  | .txClaim => .next (if l.claim then [.claimBus] else [])
  | .txChunk bs => if l.sink then .next [.writeSink bs] else .fault .noTransmitSink
  | .txRelease => .next (if l.release then [.releaseBus] else [])
  | .dispatch d => .next (fanOut h d)

/-- What the host does on the events of a command, in order; it stops at a fault. -/
def hostDeliverAll (l : HostLinks) (h : HostTables) : List Event → Host.Outcome (List HostAct) Fault Refusal
  | [] => .next []
  | e :: es =>
    match hostDeliver l h e with
    | .next as =>
      match hostDeliverAll l h es with
      | .next bs => .next (as ++ bs)
      | .fault f => .fault f
      | .refused r => .refused r
    | .fault f => .fault f
    | .refused r => .refused r

end Sys2Proof.Machine
end

