-- ==== Sys2Proof/Safety.lean ====
section
/-! DEFINITION. The terms in which claims are stated: the invariants of the state between commands (R37, R25 to R28,
R30), what a response and a run hand to the host, and which registers frame a message. -/

namespace Sys2Proof.Machine

/-! ## The invariant -/

/-- Every configuration register holds a legal value (R21, R221). The other registers' types admit legal values only. -/
structure CfgRegs.Legal (c : CfgRegs) : Prop where
  idSize   : 1 ≤ c.idSize.toNat ∧ c.idSize.toNat ≤ 4
  lenSize  : 1 ≤ c.lenSize.toNat ∧ c.lenSize.toNat ≤ 4
  typeSize : 1 ≤ c.typeSize.toNat ∧ c.typeSize.toNat ≤ 4

/-- The number of header bytes of the frame in flight: its latched ID, LEN and TYPE widths. -/
def Parser.headerLength (p : Parser) : Nat := p.fIdSize.toNat + p.fLenSize.toNat + p.fTypeSize.toNat

/-- The parser-state invariants of R37, with the bounds of R27 to R29 and what makes them inductive (DEDUCED from
R151, R155 and R161: no payload byte is held before DATA, and the whole header is held from HEADCKSUM on). -/
structure Parser.Inv (p : Parser) : Prop where
  /-- R29: the latched widths are 1..4. -/
  widths : (1 ≤ p.fIdSize.toNat ∧ p.fIdSize.toNat ≤ 4) ∧ (1 ≤ p.fLenSize.toNat ∧ p.fLenSize.toNat ≤ 4) ∧
    (1 ≤ p.fTypeSize.toNat ∧ p.fTypeSize.toNat ≤ 4)
  /-- R27: `hbuf` holds 0..12 bytes. -/
  hbufBound : p.hbuf.length ≤ 12
  /-- R28: `dcount` is always `len(dbuf)`. -/
  dcount : p.dcount.toNat = p.dbuf.length
  /-- R37, first item, with the accumulators CLEAR zeroes (R161). -/
  idle : p.pstate = .sof → p.fpos = 0 ∧ p.hbuf = [] ∧ p.dbuf = [] ∧ p.dcount = 0 ∧
    p.rxId = 0 ∧ p.rxLen = 0 ∧ p.rxType = 0 ∧ p.rxCk = 0
  /-- R37, second item, and the last for ID. -/
  inId : p.pstate = .id → p.hbuf.length = p.fpos.toNat ∧ p.fpos.toNat < p.fIdSize.toNat ∧ p.dbuf = []
  /-- R37, second item, and the last for LEN. -/
  inLen : p.pstate = .len →
    p.hbuf.length = p.fIdSize.toNat + p.fpos.toNat ∧ p.fpos.toNat < p.fLenSize.toNat ∧ p.dbuf = []
  /-- R37, second item, and the last for TYPE. -/
  inTyp : p.pstate = .typ →
    p.hbuf.length = p.fIdSize.toNat + p.fLenSize.toNat + p.fpos.toNat ∧ p.fpos.toNat < p.fTypeSize.toNat ∧ p.dbuf = []
  /-- R37, third item, and the last for HEADCKSUM. -/
  inHeadCksum : p.pstate = .headCksum →
    p.hbuf.length = p.headerLength ∧ p.fCkSel ≠ .nosum ∧ p.fpos.toNat < cksize p.fCkSel ∧ p.dbuf = []
  /-- R37, fourth item; no field is open, so `fpos` is 0 (R24). -/
  inData : p.pstate = .data → p.hbuf.length = p.headerLength ∧ p.dcount.toNat < p.rxLen.toNat ∧ p.fpos = 0
  /-- R37, fifth item, and the last for DATACKSUM. -/
  inDataCksum : p.pstate = .dataCksum →
    p.hbuf.length = p.headerLength ∧ p.dcount = p.rxLen ∧ 0 < p.rxLen.toNat ∧ p.fCkSel ≠ .nosum ∧
      p.fpos.toNat < cksize p.fCkSel

/-- The accumulators hold the big-endian value of the bytes of their field accepted so far (R25). -/
structure Parser.HoldsFields (p : Parser) : Prop where
  rxId   : p.rxId.toNat = beVal (p.hbuf.take p.fIdSize.toNat)
  rxLen  : p.rxLen.toNat = beVal ((p.hbuf.drop p.fIdSize.toNat).take p.fLenSize.toNat)
  rxType : p.rxType.toNat = beVal ((p.hbuf.drop (p.fIdSize.toNat + p.fLenSize.toNat)).take p.fTypeSize.toNat)

/-- A slot's fields agree (R30, R193, R196): a free slot is all zero, an untimed one holds no count, a timed one's
count is at most the value LRENEW restores, and is 0 only where that is 0. -/
structure Slot.Inv (sl : Slot) : Prop where
  free    : sl.valid = false → sl = Slot.free
  untimed : sl.hasTo = false → sl.countdown = 0 ∧ sl.maxTo = 0
  bounded : sl.countdown.toNat ≤ sl.maxTo.toNat
  live    : sl.countdown = 0 → sl.maxTo = 0

/-- The invariant of the machine between commands. -/
structure State.Inv (s : State) : Prop where
  cfg    : s.cfg.Legal
  parser : s.parser.Inv
  /-- A bounded file holds `N_ID_SLOTS` slots (R30). -/
  count  : ∀ n, s.params.nIdSlots = some n → s.slots.length = n
  slots  : ∀ sl ∈ s.slots, sl.Inv

/-! ## What the host is handed -/

/-- The bytes of the `TxChunk` events, in order: the transmit byte stream (R50). -/
def chunkBytes : List Event → List Byte
  | [] => []
  | .txChunk bs :: es => bs ++ chunkBytes es
  | .txClaim :: es => chunkBytes es
  | .txRelease :: es => chunkBytes es
  | .dispatch _ :: es => chunkBytes es

/-- The frames dispatched by a list of events, in order. -/
def dispatchesOf : List Event → List DispatchInfo
  | [] => []
  | .dispatch d :: es => d :: dispatchesOf es
  | .txClaim :: es => dispatchesOf es
  | .txChunk _ :: es => dispatchesOf es
  | .txRelease :: es => dispatchesOf es

/-- All events of a list of responses, in order. -/
def eventsOf (rs : List Response) : List Event := rs.flatMap Response.events

/-! ## Framing -/

/-- The registers that decide how a frame looks on the wire are equal (R273, R165). -/
structure CfgRegs.SameFraming (c c' : CfgRegs) : Prop where
  idSize   : c.idSize = c'.idSize
  lenSize  : c.lenSize = c'.lenSize
  typeSize : c.typeSize = c'.typeSize
  sofByte  : c.sofByte = c'.sofByte
  sofEn    : c.sofEn = c'.sofEn
  cksumSel : c.cksumSel = c'.cksumSel

/-- The command transmits a message of type `typ` and payload `d`. -/
def Transmits (i : Instr) (typ : Word) (d : List Byte) : Prop :=
  (∃ r f, i = .send r f typ d) ∨ (∃ r f t, i = .query r f typ t d) ∨ (∃ r f, i = .respond r f typ d)

/-- The payload count fits in LEN_SIZE bytes (R125, R244). -/
def CfgRegs.Fits (c : CfgRegs) (d : List Byte) : Prop := d.length ≤ 2 ^ (8 * c.lenSize.toNat) - 1

/-- Every CRC polynomial has a non-zero constant term, as the defaults have (R166). -/
structure OddPolys (k : CksumDefs) : Prop where
  crc8  : k.crc8.poly.getLsbD 0 = true
  crc16 : k.crc16.poly.getLsbD 0 = true
  crc32 : k.crc32.poly.getLsbD 0 = true

/-! ## Encodings -/

/-- What R75 makes illegal in a whole command of the assigned operation `op` with command word `w` and operand words
`args`: a set bit of A that the format leaves reserved, S outside format S, `P = 0` with `TO ≠ 0`, a non-zero pad byte. -/
inductive IllegalFields (op : Op) (w : Word) (args : List Word) : Prop where
  | reservedA (j : Nat) (used : op.maskA.getLsbD j = false) (set : (fieldA w).getLsbD j = true)
  | reservedS (unused : op.usesS = false) (set : fieldS w ≠ 0)
  | queryTimeout (isOp : op = .query) (p : w.getLsbD 9 = false) (t : args.getD 2 0 ≠ 0)
  | laddTimeout (isOp : op = .ladd) (p : w.getLsbD 9 = false) (t : args.getD 1 0 ≠ 0)
  | pad (data : op.hasData = true) (j : Nat) (b : Byte) (past : (args.getD (op.fixedOperands - 1) 0).toNat ≤ j)
      (at_ : ((args.drop op.fixedOperands).flatMap wordBytes)[j]? = some b) (nonzero : b ≠ 0)

/-! ## Safe runs -/

/-- A run is safe when no command of it stops: TFE has no traps (R249), and only a finite PAYLOAD_CAP refuses (R187). -/
def SafeRun (is : List Instr) (s : State) : Prop := ∃ t, runCommands is s = .next t

end Sys2Proof.Machine
end

