-- ==== Sys2Proof/Certificates/Slice0/Obligations.lean ====
section
/-! DEFINITION. The statements for the provers, in the order of the spec's files. Each docstring names the rules it
formalises. `s.reply st vals evs` is `s` with one response handed back and nothing else changed, so a conclusion of the
form `exec i s = .next (….reply …)` is the whole effect of the command: every field not named is as before. -/

open Sys2Proof Sys2Proof.Machine

/-! ## Encoding (30_encoding.md) -/

/-- Words written out bit by bit from R70 to R74, one of each format, decode to their commands. -/
def Obligations.WrittenWordsDecode : Prop :=
  decode [0x00005501#32] = .instr (.acceptByte 0x55) [] ∧
  decode [0x00000002#32] = .instr .tick [] ∧
  decode [0x00000003#32] = .instr .resetParser [] ∧
  decode [0x00000304#32, 0x000001AA#32] = .instr (.cfgw 0x03 0x1AA) [] ∧
  decode [0x00000B05#32] = .instr (.cfgr 0x0B) [] ∧
  decode [0x00000406#32, 9, 0x31323334#32, 0x35363738#32, 0x39000000#32] =
    .instr (.cksum 4 [0x31, 0x32, 0x33, 0x34, 0x35, 0x36, 0x37, 0x38, 0x39]) [] ∧
  decode [0x00000010#32, 0, 0x10#32, 3, 0x10203000#32] = .instr (.send false 0 0x10 [0x10, 0x20, 0x30]) [] ∧
  decode [0x00000211#32, 0, 0x42#32, 3, 2, 0xDEAD0000#32] = .instr (.query false 0 0x42 (some 3) [0xDE, 0xAD]) [] ∧
  decode [0x00000112#32, 9, 0x56#32, 1, 0x77000000#32] = .instr (.respond true 9 0x56 [0x77]) [] ∧
  decode [0x00000220#32, 5, 0] = .instr (.ladd 5 (some 0)) [] ∧
  decode [0x00000020#32, 5, 0] = .instr (.ladd 5 none) [] ∧
  decode [0x00010021#32] = .instr (.lrem 1) [] ∧
  decode [0x00050022#32] = .instr (.lrenew 5) [] ∧
  decode [0x80000023#32] = .instr (.lread 0x8000) []

/-- Decoding an encoded well-formed command gives it back and leaves the words after it (R70 to R74, R86). -/
def Obligations.DecodeOfEncodeIsTheCommand : Prop :=
  ∀ (i : Instr) (rest : List Word), i.wf = true → decode (encode i ++ rest) = .instr i rest

/-- A command has one encoding: words that decode to it are its encoding, and it is well formed (R70 to R75). -/
def Obligations.DecodedWordsAreTheEncoding : Prop :=
  ∀ (ws : List Word) (i : Instr) (rest : List Word),
    decode ws = .instr i rest → i.wf = true ∧ ws = encode i ++ rest

/-- R75: an unassigned opcode, or a whole command with an illegal field, returns `ILLEGAL_CMD` with no other effect.
An unassigned OPC has no operand words (R86); how far an illegal command of an assigned OPC reaches is log entry 10. -/
def Obligations.IllegalEncodingsReturnIllegalCmd : Prop :=
  ∀ (s : State) (w : Word), s.resetIn = false →
    (∀ ops : List Word, (∀ op : Op, op.code ≠ w.extractLsb' 0 8) → s.input = w :: ops →
      step s = .next ((s.setInput ops).reply .illegalCmd [] [])) ∧
    (∀ (op : Op) (args rest : List Word), op.code = w.extractLsb' 0 8 → op.operandLength args = some args.length →
      IllegalFields op w args → s.input = w :: (args ++ rest) →
      step s = .next ((s.setInput rest).reply .illegalCmd [] []))

/-- The converse of R75: a whole command of an assigned OPC with no illegal field is a command, of the length R86 gives
it. -/
def Obligations.LegalEncodingsAreCommands : Prop :=
  ∀ (op : Op) (w : Word) (args rest : List Word), op.code = w.extractLsb' 0 8 →
    op.operandLength args = some args.length → ¬ IllegalFields op w args →
    ∃ i, decode (w :: (args ++ rest)) = .instr i rest

/-- R51: the step runs the command at the head of the delivered words, whole, on the state with those words taken. -/
def Obligations.StepRunsTheDecodedCommand : Prop :=
  ∀ (s : State) (i : Instr) (rest : List Word), s.resetIn = false → decode s.input = .instr i rest →
    step s = exec i { s with input := rest }

/-- The model's own convention (log entry 1): with no whole command delivered, nothing happens. -/
def Obligations.StepWaitsForAWholeCommand : Prop :=
  (∀ s : State, s.resetIn = false → decode s.input = .incomplete → step s = .next s) ∧
  decode [] = .incomplete ∧ step State.reset = .next State.reset

/-! ## State and reset (10_state.md, 70_reset_and_hazards.md) -/

/-- R270: the RESET input puts every state element at its reset value, hands back nothing, and keeps the build's
parameters; every slot is free. That one step performs RESET and takes the input away (`t.resetIn = false`) is the
model's choice (log entry 4). -/
def Obligations.ResetInputResetsEveryElement : Prop :=
  ∀ s : State, ∃ t, step { s with resetIn := true } = .next t ∧
    t.cfg = { idSize := 4, lenSize := 4, typeSize := 4, sofByte := 0x00, sofEn := false, cksumSel := .nosum,
              chunkSize := 0, parserTimeout := 0, peer := s.params.peerInit } ∧
    t.nextId = 0 ∧
    t.parser = { pstate := .sof, fpos := 0, rxId := 0, rxLen := 0, rxType := 0, rxCk := 0, hbuf := [], dbuf := [],
                 dcount := 0, fIdSize := 4, fLenSize := 4, fTypeSize := 4, fCkSel := .nosum, ptCount := 0 } ∧
    (∀ k, slotAt t.slots k = { valid := false, id := 0, hasTo := false, countdown := 0, maxTo := 0 }) ∧
    t.output = s.output ∧ t.params = s.params ∧ t.resetIn = false

/-- The invariant holds just after RESET, whatever the build's parameters. -/
def Obligations.ResetStateHasTheInvariant : Prop :=
  ∀ p : Params, (State.resetWith p).Inv ∧ (State.resetWith p).parser.HoldsFields

/-- R37: the parser-state invariants, and those of the registers and slots, hold between commands: every step from any
state that has them keeps them. -/
def Obligations.EveryStepKeepsTheInvariant : Prop :=
  ∀ s t : State, s.Inv → step s = .next t → t.Inv

/-- R25: the accumulators hold the big-endian value of the bytes of their field accepted so far; every step keeps it. -/
def Obligations.AccumulatorsHoldTheFieldsReceived : Prop :=
  ∀ s t : State, s.Inv → s.parser.HoldsFields → step s = .next t → t.parser.HoldsFields

/-- R36: no command (and no RESET) changes a parameter of the build. -/
def Obligations.NothingChangesTheParameters : Prop :=
  ∀ s t : State, step s = .next t → t.params = s.params

/-- Which commands write which part of the state (R22, R62, R131, R198, R224): whatever else a command does, a part it
is not listed for is unchanged. -/
def Obligations.OnlyTheNamedCommandsWriteEachPart : Prop :=
  ∀ (i : Instr) (s t : State), exec i s = .next t →
    (t.cfg ≠ s.cfg → ∃ r v, i = .cfgw r v) ∧
    (t.nextId ≠ s.nextId → (∃ f y d, i = .send false f y d) ∨ (∃ f y o d, i = .query false f y o d)) ∧
    (t.parser ≠ s.parser → (∃ b, i = .acceptByte b) ∨ i = .resetParser ∨
      (i = .tick ∧ t.parser = { s.parser with ptCount := t.parser.ptCount })) ∧
    (t.slots ≠ s.slots → i = .tick ∨ (∃ l o, i = .ladd l o) ∨ (∃ k, i = .lrem k) ∨ (∃ k, i = .lrenew k) ∨
      (∃ r f y o d, i = .query r f y o d)) ∧
    t.input = s.input ∧ t.resetIn = s.resetIn

/-! ## Checksum engine (40_checksum.md) -/

/-- R106: `CKSUM` returns the checksum of its operand under the operand's selector and changes nothing; a selector
above 4 is `BAD_CONFIG`. -/
def Obligations.CksumReturnsTheChecksum : Prop :=
  ∀ (s : State) (sel : Byte) (d : List Byte),
    (∀ c : CksumSel, sel.toNat = c.code →
      exec (.cksum sel d) s = .next (s.reply .ok [ck s.params.cksumDefs c d] [])) ∧
    (4 < sel.toNat → exec (.cksum sel d) s = .next (s.reply .badConfig [] []))

/-- R101: a checksum fits in its width, under every definition of the algorithms. -/
def Obligations.ChecksumFitsItsWidth : Prop :=
  ∀ (k : CksumDefs) (c : CksumSel) (d : List Byte), (ck k c d).toNat < 2 ^ (8 * cksize c)

/-- The check values R102 to R105 give for the default algorithms, on the empty input and on "123456789". -/
def Obligations.DefaultChecksumsHaveTheirCheckValues : Prop :=
  let d : List Byte := [0x31, 0x32, 0x33, 0x34, 0x35, 0x36, 0x37, 0x38, 0x39]
  ck defaultCksumDefs .xor [] = 0xFF ∧ ck defaultCksumDefs .xor d = 0xCE ∧
  ck defaultCksumDefs .crc8 [] = 0x00 ∧ ck defaultCksumDefs .crc8 d = 0xA1 ∧
  ck defaultCksumDefs .crc16 [] = 0x0000 ∧ ck defaultCksumDefs .crc16 d = 0xBB3D ∧
  ck defaultCksumDefs .crc32 [] = 0x00000000 ∧ ck defaultCksumDefs .crc32 d = 0xCBF43926

/-- R110: for a reflected parameter set whose initial value is its own reflection, the most-significant-bit-first
computation equals the least-significant-bit-first loop. -/
def Obligations.ReflectedCrcEqualsTheLsbFirstLoop : Prop :=
  ∀ (w : Nat) (k : CrcDef w) (d : List Byte), 8 ≤ w → k.refin = true → k.refout = true → k.init.reverse = k.init →
    crc k d = crcLsb k d

/-- R166 (a): changing one byte of a window changes its checksum, for the XOR sum and for every CRC whose polynomial
has a non-zero constant term. -/
def Obligations.OneChangedByteChangesTheChecksum : Prop :=
  ∀ (k : CksumDefs) (c : CksumSel) (u v : List Byte) (x y : Byte), OddPolys k → c ≠ .nosum → x ≠ y →
    ck k c (u ++ x :: v) ≠ ck k c (u ++ y :: v)

/-! ## Frame serializer (41_serializer.md) -/

/-- R81: the length of a frame, its minimum (reached with no SOF, widths 1, no checksum and an empty payload), and its
length with the default widths, no SOF and no checksum. -/
def Obligations.FrameLengthFormula : Prop :=
  ∀ (k : CksumDefs) (c : CfgRegs) (id typ : Word) (d : List Byte),
    (frameBytes k c id typ d).length =
      (if c.sofEn then 1 else 0) + c.idSize.toNat + c.lenSize.toNat + c.typeSize.toNat + cksize c.cksumSel +
        d.length + (if 0 < d.length then cksize c.cksumSel else 0) ∧
    (c.Legal → 3 ≤ (frameBytes k c id typ d).length) ∧
    (c.sofEn = false → c.idSize = 1 → c.lenSize = 1 → c.typeSize = 1 → c.cksumSel = .nosum →
      (frameBytes k c id typ []).length = 3) ∧
    (c.sofEn = false → c.idSize = 4 → c.lenSize = 4 → c.typeSize = 4 → c.cksumSel = .nosum →
      (frameBytes k c id typ d).length = 12 + d.length)

/-- R128: the pieces of a frame, in order, are the frame; CHUNK_SIZE = 0 is one piece; otherwise every piece but the
last has exactly CHUNK_SIZE bytes and the last has 1..CHUNK_SIZE. -/
def Obligations.ChunksCutTheFrameExactly : Prop :=
  ∀ (size : Word) (f : List Byte), f ≠ [] →
    (chunks size f).flatten = f ∧
    (size = 0 → chunks size f = [f]) ∧
    (size ≠ 0 → (∀ p ∈ (chunks size f).dropLast, p.length = size.toNat) ∧
      ∀ p ∈ chunks size f, 1 ≤ p.length ∧ p.length ≤ size.toNat)

/-- R125, R121, R129: a non-response SEND that fits completes: it allocates the ID, stamps the peer bit on it, advances
NEXT_ID with wrapping, and emits claim, the frame's chunks and release. -/
def Obligations.SendAllocatesStampsAndTransmits : Prop :=
  ∀ (s : State) (fid typ : Word) (d : List Byte), s.cfg.Legal → s.cfg.Fits d →
    ∃ id next : Word,
      id.toNat = s.nextId.toNat % 2 ^ (8 * s.cfg.idSize.toNat - 1) +
        s.cfg.peer.toNat * 2 ^ (8 * s.cfg.idSize.toNat - 1) ∧
      next.toNat = (s.nextId.toNat + 1) % 2 ^ (8 * s.cfg.idSize.toNat) ∧
      exec (.send false fid typ d) s = .next ((s.setNextId next).reply .ok [id]
        (.txClaim :: ((chunks s.cfg.chunkSize (frameBytes s.params.cksumDefs s.cfg id typ d)).map .txChunk
          ++ [.txRelease])))

/-- R120, R125, R127: a response that fits (SEND with R = 1, or RESPOND with either flag) completes: it carries FID cut
to the field, with no peer bit, and leaves NEXT_ID alone. -/
def Obligations.ResponsesCarryTheRequestsId : Prop :=
  ∀ (s : State) (flag : Bool) (fid typ : Word) (d : List Byte), s.cfg.Fits d →
    ∃ id : Word, id.toNat = fid.toNat % 2 ^ (8 * s.cfg.idSize.toNat) ∧
      ∀ i ∈ [Instr.send true fid typ d, Instr.respond flag fid typ d],
        exec i s = .next (s.reply .ok [id]
          (.txClaim :: ((chunks s.cfg.chunkSize (frameBytes s.params.cksumDefs s.cfg id typ d)).map .txChunk
            ++ [.txRelease])))

/-- R126, R193: a QUERY that fits, with a free slot, completes: it transmits exactly what SEND would, with the lowest
free slot `k` holding the stamped ID and the timeout, and returns the ID and `k`. The conclusion gives every field:
beside the slot file, NEXT_ID is the one SEND leaves. -/
def Obligations.QueryListensAndTransmits : Prop :=
  ∀ (s : State) (resp : Bool) (fid typ : Word) (t : Option Word) (d : List Byte) (k : Nat),
    s.cfg.Fits d → slotInRange s.params.nIdSlots k = true → (slotAt s.slots k).valid = false →
    (∀ j < k, (slotAt s.slots j).valid = true) →
    ∃ (id next : Word) (slots : List Slot) (evs : List Event),
      exec (.send resp fid typ d) s = .next ((s.setNextId next).reply .ok [id] evs) ∧
      exec (.query resp fid typ t d) s =
        .next (((s.setNextId next).setSlots slots).reply .ok [id, slotIndexWord k] evs) ∧
      slotAt slots k = { valid := true, id := id, hasTo := t.isSome, countdown := t.getD 0, maxTo := t.getD 0 } ∧
      ∀ j, j ≠ k → slotAt slots j = slotAt s.slots j

/-- R244: SEND, QUERY and RESPOND with more payload bytes than LEN_SIZE can express return `LEN_OVERFLOW`; nothing is
emitted and NEXT_ID is unchanged. -/
def Obligations.LenOverflowHasNoEffect : Prop :=
  ∀ (s : State) (i : Instr) (typ : Word) (d : List Byte), Transmits i typ d →
    d.length > 2 ^ (8 * s.cfg.lenSize.toNat) - 1 → exec i s = .next (s.reply .lenOverflow [] [])

/-- R242: with every one of `N_ID_SLOTS` slots valid, LADD (and QUERY, once the payload fits) returns `TABLE_FULL`;
with a free slot in range, bounded or not, and with unbounded slots whatever they hold, no command ever does. -/
def Obligations.TableFullExactlyWhenNoSlotIsFree : Prop :=
  (∀ (s : State) (n : Nat), s.params.nIdSlots = some n → (∀ k < n, (slotAt s.slots k).valid = true) →
    (∀ lid t, exec (.ladd lid t) s = .next (s.reply .tableFull [] [])) ∧
    (∀ r f y t d, s.cfg.Fits d → exec (.query r f y t d) s = .next (s.reply .tableFull [] []))) ∧
  (∀ (i : Instr) (s t : State) (r : Response) (k : Nat), slotInRange s.params.nIdSlots k = true →
    (slotAt s.slots k).valid = false → exec i s = .next t → t.output = s.output ++ [r] → r.status ≠ .tableFull) ∧
  (∀ (i : Instr) (s t : State) (r : Response), s.params.nIdSlots = none → exec i s = .next t →
    t.output = s.output ++ [r] → r.status ≠ .tableFull)

/-- R131: the serializer never reads or writes parser state: what a transmitting command does is the same with any
other parser in its place. -/
def Obligations.SerializerIgnoresTheParser : Prop :=
  ∀ (s t : State) (i : Instr) (typ : Word) (d : List Byte) (p : Parser), Transmits i typ d → exec i s = .next t →
    t.parser = s.parser ∧ exec i (s.setParser p) = .next (t.setParser p)

/-- R132: two engines with equal, legal ID_SIZE and PEER 0 and 1 never allocate the same ID, and a response of either to
the other's ID carries that ID, so it never collides with an allocation of the responder. -/
def Obligations.PeersNeverAllocateTheSameId : Prop :=
  ∀ (a b a' b' : State) (i j : Instr) (ra rb : Response) (x y : Word),
    ((∃ f t d, i = .send false f t d) ∨ (∃ f t o d, i = .query false f t o d)) →
    ((∃ f t d, j = .send false f t d) ∨ (∃ f t o d, j = .query false f t o d)) →
    a.cfg.Legal → a.cfg.idSize = b.cfg.idSize → a.cfg.peer = 0 → b.cfg.peer = 1 →
    exec i a = .next a' → a'.output = a.output ++ [ra] → ra.values.head? = some x →
    exec j b = .next b' → b'.output = b.output ++ [rb] → rb.values.head? = some y →
    x ≠ y ∧
    ∀ (flag : Bool) (typ : Word) (o : Option Word) (d : List Byte) (c : State) (rc : Response) (z : Word),
      (∀ k ∈ [Instr.respond flag x typ d, .send true x typ d, .query true x typ o d],
        exec k b = .next c → c.output = b.output ++ [rc] → rc.values.head? = some z → z = x ∧ z ≠ y) ∧
      (∀ k ∈ [Instr.respond flag y typ d, .send true y typ d, .query true y typ o d],
        exec k a = .next c → c.output = a.output ++ [rc] → rc.values.head? = some z → z = y ∧ z ≠ x)

/-! ## Frame parser (42_parser.md) -/

/-- R150: with PAYLOAD_CAP = ∞, ACCEPT_BYTE always completes with `OK`, no value and at most one `Dispatch`; it zeroes
`pt_count` and writes nothing but the parser. -/
def Obligations.AcceptByteAlwaysCompletes : Prop :=
  ∀ (s : State) (b : Byte), s.params.payloadCap = none →
    ∃ (p : Parser) (evs : List Event), exec (.acceptByte b) s = .next ((s.setParser p).reply .ok [] evs) ∧
      p.ptCount = 0 ∧ (evs = [] ∨ ∃ d, evs = [.dispatch d])

/-- R164: a byte that finds the timeout enabled and exceeded in mid-frame is processed from SOF, the frame dropped; any
other byte (the timeout disabled or not exceeded, or the parser in SOF) is processed as if no tick had come. -/
def Obligations.StallDropsTheFrameAtTheNextByte : Prop :=
  ∀ (s : State) (b : Byte),
    (s.cfg.parserTimeout ≠ 0 → s.parser.ptCount.toNat > s.cfg.parserTimeout.toNat → s.parser.pstate ≠ .sof →
      exec (.acceptByte b) s = exec (.acceptByte b) (s.setParser s.parser.clear)) ∧
    (s.cfg.parserTimeout = 0 ∨ s.parser.ptCount.toNat ≤ s.cfg.parserTimeout.toNat ∨ s.parser.pstate = .sof →
      exec (.acceptByte b) s = exec (.acceptByte b) (s.setParser { s.parser with ptCount := 0 }))

/-- R152, R151: in SOF, with a start byte configured, a byte that is not it is discarded and the start byte begins a
frame with the live widths and selector; with none configured, any byte begins a frame and is its first ID byte. -/
def Obligations.SofStateDiscardsOrBegins : Prop :=
  ∀ (s : State) (b : Byte), s.Inv → s.parser.pstate = .sof →
    let begun : Parser :=
      { pstate := .id, fpos := 0, rxId := 0, rxLen := 0, rxType := 0, rxCk := 0, hbuf := [], dbuf := [], dcount := 0,
        fIdSize := s.cfg.idSize.setWidth 3, fLenSize := s.cfg.lenSize.setWidth 3,
        fTypeSize := s.cfg.typeSize.setWidth 3, fCkSel := s.cfg.cksumSel, ptCount := 0 }
    (s.cfg.sofEn = true → b ≠ s.cfg.sofByte →
      exec (.acceptByte b) s = .next ((s.setParser { s.parser with ptCount := 0 }).reply .ok [] [])) ∧
    (s.cfg.sofEn = true → b = s.cfg.sofByte →
      exec (.acceptByte b) s = .next ((s.setParser begun).reply .ok [] [])) ∧
    (s.cfg.sofEn = false → s.cfg.idSize ≠ 1 → exec (.acceptByte b) s =
      .next ((s.setParser { begun with rxId := b.setWidth 32, hbuf := [b], fpos := 1 }).reply .ok [] [])) ∧
    (s.cfg.sofEn = false → s.cfg.idSize = 1 → exec (.acceptByte b) s =
      .next ((s.setParser { begun with rxId := b.setWidth 32, hbuf := [b], pstate := .len }).reply .ok [] []))

/-- R153, R154: a whole field of bytes fed in state ID (LEN) is accumulated big-endian into the ID (LEN) register and
appended to the header window, emits nothing, and leads to LEN (TYPE). -/
def Obligations.HeaderFieldsAccumulateBigEndian : Prop :=
  ∀ (s : State) (bs : List Byte), s.Inv → s.parser.fpos = 0 → s.parser.stalled s.cfg.parserTimeout = false →
    (s.parser.pstate = .id → s.parser.rxId = 0 → bs.length = s.parser.fIdSize.toNat →
      ∃ t, accepts bs s = .next t ∧ dispatchesOf (eventsOf (t.output.drop s.output.length)) = [] ∧
        t.parser = { s.parser with pstate := .len, rxId := BitVec.ofNat 32 (beVal bs), hbuf := s.parser.hbuf ++ bs,
                                   ptCount := 0 }) ∧
    (s.parser.pstate = .len → s.parser.rxLen = 0 → bs.length = s.parser.fLenSize.toNat →
      ∃ t, accepts bs s = .next t ∧ dispatchesOf (eventsOf (t.output.drop s.output.length)) = [] ∧
        t.parser = { s.parser with pstate := .typ, rxLen := BitVec.ofNat 32 (beVal bs), hbuf := s.parser.hbuf ++ bs,
                                   ptCount := 0 })

/-- R153 to R156, R159: a byte of a field that is not its last shifts into the field's accumulator, counts in `fpos`,
joins the header window in ID, LEN and TYPE, and does nothing else. -/
def Obligations.EarlierFieldBytesOnlyAccumulate : Prop :=
  ∀ (s : State) (b : Byte), s.Inv → s.parser.stalled s.cfg.parserTimeout = false →
    let more : Parser := { s.parser with fpos := s.parser.fpos + 1, ptCount := 0 }
    (s.parser.pstate = .id → s.parser.fpos.toNat + 1 < s.parser.fIdSize.toNat → exec (.acceptByte b) s =
      .next ((s.setParser { more with rxId := (s.parser.rxId <<< 8) ||| b.setWidth 32,
                                      hbuf := s.parser.hbuf ++ [b] }).reply .ok [] [])) ∧
    (s.parser.pstate = .len → s.parser.fpos.toNat + 1 < s.parser.fLenSize.toNat → exec (.acceptByte b) s =
      .next ((s.setParser { more with rxLen := (s.parser.rxLen <<< 8) ||| b.setWidth 32,
                                      hbuf := s.parser.hbuf ++ [b] }).reply .ok [] [])) ∧
    (s.parser.pstate = .typ → s.parser.fpos.toNat + 1 < s.parser.fTypeSize.toNat → exec (.acceptByte b) s =
      .next ((s.setParser { more with rxType := (s.parser.rxType <<< 8) ||| b.setWidth 32,
                                      hbuf := s.parser.hbuf ++ [b] }).reply .ok [] [])) ∧
    (s.parser.pstate = .headCksum ∨ s.parser.pstate = .dataCksum →
      s.parser.fpos.toNat + 1 < cksize s.parser.fCkSel → exec (.acceptByte b) s =
      .next ((s.setParser { more with rxCk := (s.parser.rxCk <<< 8) ||| b.setWidth 32 }).reply .ok [] []))

/-- R155: after the last TYPE byte, with a checksum active the header checksum is awaited; with none, a frame of length
0 is dispatched there (conflict C7) and any other goes on to its payload. -/
def Obligations.LastTypeByteRoutesTheFrame : Prop :=
  ∀ (s : State) (b : Byte), s.Inv → s.params.payloadCap = none → s.parser.pstate = .typ →
    s.parser.fpos.toNat + 1 = s.parser.fTypeSize.toNat → s.parser.stalled s.cfg.parserTimeout = false →
    let ty : Word := (s.parser.rxType <<< 8) ||| b.setWidth 32
    let done : Parser := { s.parser with rxType := ty, hbuf := s.parser.hbuf ++ [b], fpos := 0, ptCount := 0 }
    (s.parser.fCkSel ≠ .nosum → exec (.acceptByte b) s =
      .next ((s.setParser { done with rxCk := 0, pstate := .headCksum }).reply .ok [] [])) ∧
    (s.parser.fCkSel = .nosum → s.parser.rxLen = 0 → exec (.acceptByte b) s =
      .next ((s.setParser done.clear).reply .ok []
        [.dispatch { frameId := s.parser.rxId, typ := ty, len := 0, data := [], isResponse := false,
                     matchList := matchSlots s.slots s.parser.rxId }])) ∧
    (s.parser.fCkSel = .nosum → s.parser.rxLen ≠ 0 → exec (.acceptByte b) s =
      .next ((s.setParser { done with pstate := .data }).reply .ok [] []))

/-- R156, R247 (a): on the last byte of the header checksum, a mismatch drops the frame silently; a match dispatches a
frame of length 0 and otherwise opens the payload. -/
def Obligations.HeaderChecksumDecidesTheFrame : Prop :=
  ∀ (s : State) (b : Byte), s.Inv → s.params.payloadCap = none → s.parser.pstate = .headCksum →
    s.parser.fpos.toNat + 1 = cksize s.parser.fCkSel → s.parser.stalled s.cfg.parserTimeout = false →
    let got : Word := (s.parser.rxCk <<< 8) ||| b.setWidth 32
    let want : Nat := (ck s.params.cksumDefs s.parser.fCkSel s.parser.hbuf).toNat % 2 ^ (8 * cksize s.parser.fCkSel)
    let idle : Parser := { s.parser.clear with ptCount := 0 }
    (got.toNat ≠ want → exec (.acceptByte b) s = .next ((s.setParser idle).reply .ok [] [])) ∧
    (got.toNat = want → s.parser.rxLen = 0 → exec (.acceptByte b) s = .next ((s.setParser idle).reply .ok []
        [.dispatch { frameId := s.parser.rxId, typ := s.parser.rxType, len := 0, data := [], isResponse := false,
                     matchList := matchSlots s.slots s.parser.rxId }])) ∧
    (got.toNat = want → s.parser.rxLen ≠ 0 → exec (.acceptByte b) s =
      .next ((s.setParser { s.parser with rxCk := got, fpos := 0, dbuf := [], dcount := 0, pstate := .data,
                                          ptCount := 0 }).reply .ok [] []))

/-- R157: a payload byte is appended; the last one dispatches the frame when no checksum is active, and otherwise opens
the payload checksum. -/
def Obligations.PayloadBytesAreCollected : Prop :=
  ∀ (s : State) (b : Byte), s.Inv → s.parser.pstate = .data → s.parser.stalled s.cfg.parserTimeout = false →
    let took : Parser := { s.parser with dbuf := s.parser.dbuf ++ [b], dcount := s.parser.dcount + 1, ptCount := 0 }
    (s.parser.dbuf.length + 1 < s.parser.rxLen.toNat → exec (.acceptByte b) s =
      .next ((s.setParser took).reply .ok [] [])) ∧
    (s.parser.dbuf.length + 1 = s.parser.rxLen.toNat → s.parser.fCkSel ≠ .nosum → exec (.acceptByte b) s =
      .next ((s.setParser { took with rxCk := 0, fpos := 0, pstate := .dataCksum }).reply .ok [] [])) ∧
    (s.parser.dbuf.length + 1 = s.parser.rxLen.toNat → s.parser.fCkSel = .nosum → exec (.acceptByte b) s =
      .next ((s.setParser took.clear).reply .ok []
        [.dispatch { frameId := s.parser.rxId, typ := s.parser.rxType, len := s.parser.rxLen,
                     data := s.parser.dbuf ++ [b], isResponse := false,
                     matchList := matchSlots s.slots s.parser.rxId }]))

/-- R159, R247 (b): on the last byte of the payload checksum, a mismatch drops the frame silently and a match dispatches
it. -/
def Obligations.PayloadChecksumDecidesTheFrame : Prop :=
  ∀ (s : State) (b : Byte), s.Inv → s.parser.pstate = .dataCksum →
    s.parser.fpos.toNat + 1 = cksize s.parser.fCkSel → s.parser.stalled s.cfg.parserTimeout = false →
    let got : Word := (s.parser.rxCk <<< 8) ||| b.setWidth 32
    let want : Nat := (ck s.params.cksumDefs s.parser.fCkSel s.parser.dbuf).toNat % 2 ^ (8 * cksize s.parser.fCkSel)
    let idle : Parser := { s.parser.clear with ptCount := 0 }
    (got.toNat ≠ want → exec (.acceptByte b) s = .next ((s.setParser idle).reply .ok [] [])) ∧
    (got.toNat = want → exec (.acceptByte b) s = .next ((s.setParser idle).reply .ok []
        [.dispatch { frameId := s.parser.rxId, typ := s.parser.rxType, len := s.parser.rxLen, data := s.parser.dbuf,
                     isResponse := false, matchList := matchSlots s.slots s.parser.rxId }]))

/-- R160, R161: RESET_PARSER always completes: the parser is idle, with `pt_count` and the latched widths and selector
as they were; in SOF it changes nothing. -/
def Obligations.ResetParserClearsOnlyTheParser : Prop :=
  ∀ s : State,
    exec .resetParser s = .next ((s.setParser
      { s.parser with pstate := .sof, fpos := 0, rxId := 0, rxLen := 0, rxType := 0, rxCk := 0, hbuf := [], dbuf := [],
                      dcount := 0 }).reply .ok [] []) ∧
    (s.Inv → s.parser.pstate = .sof → exec .resetParser s = .next (s.reply .ok [] []))

/-- R165: what a successful SEND, QUERY or RESPOND puts on the wire, fed to a parser in SOF with the sender's framing
configuration and checksum definitions, is dispatched exactly once, with the stamped ID, the truncated type and the
payload, and leaves the parser in SOF. -/
def Obligations.TransmittedFramesRoundTrip : Prop :=
  ∀ (a a' s : State) (i : Instr) (typ id : Word) (d : List Byte) (r : Response), a.cfg.Legal → Transmits i typ d →
    exec i a = .next a' → a'.output = a.output ++ [r] → r.status = .ok → r.values.head? = some id →
    s.params.payloadCap = none → s.params.cksumDefs = a.params.cksumDefs → s.cfg.SameFraming a.cfg →
    s.parser.pstate = .sof →
    ∃ (t : State) (rs : List Response), accepts (chunkBytes r.events) s = .next t ∧ t.output = s.output ++ rs ∧
      (∀ x ∈ rs, x.status = .ok) ∧
      dispatchesOf (eventsOf rs) =
        [{ frameId := id, typ := BitVec.ofNat 32 (typ.toNat % 2 ^ (8 * a.cfg.typeSize.toNat)),
           len := BitVec.ofNat 32 d.length, data := d, isResponse := false, matchList := matchSlots s.slots id }] ∧
      t.parser.pstate = .sof ∧ t.slots = s.slots

/-- R166 (a), header: a frame with one byte of ID, LEN, TYPE or HEADER-CKSUM changed is dropped on the last byte of its
header checksum, with no dispatch. -/
def Obligations.CorruptedHeadersAreDropped : Prop :=
  ∀ (s : State) (id typ : Word) (n : Nat) (u v : List Byte) (x y : Byte), s.cfg.Legal →
    OddPolys s.params.cksumDefs → s.cfg.cksumSel ≠ .nosum → s.params.payloadCap = none → s.parser.pstate = .sof →
    x ≠ y →
    headerBytes s.cfg id typ n ++ cksumField s.params.cksumDefs s.cfg.cksumSel (headerBytes s.cfg id typ n) =
      u ++ x :: v →
    ∃ t, accepts (sofField s.cfg ++ u ++ y :: v) s = .next t ∧ t.parser.pstate = .sof ∧
      dispatchesOf (eventsOf (t.output.drop s.output.length)) = []

/-- R166 (a) and (b), payload: a frame with one byte of PAYLOAD or PAYLOAD-CKSUM changed gives no dispatch, and the
parser is in SOF exactly where the next frame begins. -/
def Obligations.CorruptedPayloadsAreDropped : Prop :=
  ∀ (s : State) (id typ : Word) (d u v : List Byte) (x y : Byte), s.cfg.Legal → OddPolys s.params.cksumDefs →
    s.cfg.cksumSel ≠ .nosum → s.params.payloadCap = none → s.parser.pstate = .sof → d ≠ [] → s.cfg.Fits d →
    x ≠ y → frameTail s.params.cksumDefs s.cfg d = u ++ x :: v →
    ∃ t, accepts (frameHead s.params.cksumDefs s.cfg id typ d.length ++ u ++ y :: v) s = .next t ∧
      t.parser.pstate = .sof ∧ dispatchesOf (eventsOf (t.output.drop s.output.length)) = []

/-- R29, R223, R280: a frame in flight is parsed by its latched copies: with any other configuration in place (but for
PARSER_TIMEOUT, which is read live), the byte does the same. -/
def Obligations.FramesInFlightIgnoreReconfiguration : Prop :=
  ∀ (s t : State) (b : Byte) (c : CfgRegs), s.parser.pstate ≠ .sof → s.parser.stalled s.cfg.parserTimeout = false →
    c.parserTimeout = s.cfg.parserTimeout → exec (.acceptByte b) s = .next t →
    exec (.acceptByte b) (s.setCfg c) = .next (t.setCfg c)

/-- R163, R79, R60: however the words of a sequence of commands (the ACCEPT_BYTEs of an ACCEPTS, or these with other
commands among them) are cut into pieces, and whatever number of steps goes by after each piece, the engine comes to
where it comes when they are issued at once: where the commands in order lead. Pieces cut inside a command, and steps
before a whole command is there, rest on the waiting of log entry 1. -/
def Obligations.TransportGroupingHasNoEffect : Prop :=
  ∀ (is : List Instr) (ps : List (List Word × Nat)) (s : State), s.resetIn = false → s.input = [] →
    (∀ i ∈ is, i.wf = true) → ps.flatMap Prod.fst = commandStream is →
    andThen (deliver ps s) (runSteps is.length) = runSteps is.length (s.issue (commandStream is)) ∧
    runSteps is.length (s.issue (commandStream is)) = runCommands is s

/-- R187, R249: no command faults, and none is refused but an ACCEPT_BYTE of a build with a finite PAYLOAD_CAP, by name,
on a frame longer than it; such a build is refused at each of the two bytes that would enter DATA with such a frame: the
last TYPE byte without checksum, and the last byte of a matching header checksum. -/
def Obligations.OnlyAFinitePayloadBufferRefuses : Prop :=
  (∀ (i : Instr) (s : State), (∃ t, exec i s = .next t) ∨
    (exec i s = .refused .payloadCapExceeded ∧ (∃ b, i = .acceptByte b) ∧
      ∃ n, s.params.payloadCap = some n ∧ n < s.parser.rxLen.toNat)) ∧
  (∀ (s : State) (b : Byte) (n : Nat), s.params.payloadCap = some n → s.parser.pstate = .typ →
    s.parser.fpos.toNat + 1 = s.parser.fTypeSize.toNat → s.parser.fCkSel = .nosum → n < s.parser.rxLen.toNat →
    s.parser.stalled s.cfg.parserTimeout = false → exec (.acceptByte b) s = .refused .payloadCapExceeded) ∧
  (∀ (s : State) (b : Byte) (n : Nat), s.params.payloadCap = some n → s.parser.pstate = .headCksum →
    s.parser.fpos.toNat + 1 = cksize s.parser.fCkSel → n < s.parser.rxLen.toNat →
    s.parser.stalled s.cfg.parserTimeout = false →
    ((s.parser.rxCk <<< 8) ||| b.setWidth 32).toNat =
      (ck s.params.cksumDefs s.parser.fCkSel s.parser.hbuf).toNat % 2 ^ (8 * cksize s.parser.fCkSel) →
    exec (.acceptByte b) s = .refused .payloadCapExceeded)

/-! ## Listener slots and ticks (43_listener.md) -/

/-- R190, R193: LADD with a free slot completes: the lowest free slot holds the listener, every other slot is as
before, and the index is returned. -/
def Obligations.LaddFillsTheLowestFreeSlot : Prop :=
  ∀ (s : State) (lid : Word) (o : Option Word) (k : Nat), slotInRange s.params.nIdSlots k = true →
    (slotAt s.slots k).valid = false → (∀ j < k, (slotAt s.slots j).valid = true) →
    ∃ slots : List Slot, exec (.ladd lid o) s = .next ((s.setSlots slots).reply .ok [slotIndexWord k] []) ∧
      slotAt slots k = { valid := true, id := lid, hasTo := o.isSome, countdown := o.getD 0, maxTo := o.getD 0 } ∧
      ∀ j, j ≠ k → slotAt slots j = slotAt s.slots j

/-- R191, R192: on a valid slot in range, LREM frees it and LRENEW gives a timed one its full count again (an untimed
one nothing); no other slot changes. -/
def Obligations.LremFreesAndLrenewReloads : Prop :=
  ∀ (s : State) (k : BitVec 16), slotInRange s.params.nIdSlots k.toNat = true →
    (slotAt s.slots k.toNat).valid = true →
    (∃ slots : List Slot, exec (.lrem k) s = .next ((s.setSlots slots).reply .ok [] []) ∧
      slotAt slots k.toNat = { valid := false, id := 0, hasTo := false, countdown := 0, maxTo := 0 } ∧
      ∀ j, j ≠ k.toNat → slotAt slots j = slotAt s.slots j) ∧
    (∃ slots : List Slot, exec (.lrenew k) s = .next ((s.setSlots slots).reply .ok [] []) ∧
      ((slotAt s.slots k.toNat).hasTo = true →
        slotAt slots k.toNat = { slotAt s.slots k.toNat with countdown := (slotAt s.slots k.toNat).maxTo }) ∧
      ((slotAt s.slots k.toNat).hasTo = false → slotAt slots k.toNat = slotAt s.slots k.toNat) ∧
      ∀ j, j ≠ k.toNat → slotAt slots j = slotAt s.slots j)

/-- R194: LREAD of a slot in range completes with its four words and changes nothing; a free slot reads as zeros. -/
def Obligations.LreadReturnsTheSlot : Prop :=
  ∀ (s : State) (k : BitVec 16), slotInRange s.params.nIdSlots k.toNat = true →
    (∃ flags : Word, flags.toNat = (slotAt s.slots k.toNat).valid.toNat + 2 * (slotAt s.slots k.toNat).hasTo.toNat ∧
      exec (.lread k) s = .next (s.reply .ok
        [flags, (slotAt s.slots k.toNat).id, (slotAt s.slots k.toNat).countdown, (slotAt s.slots k.toNat).maxTo] [])) ∧
    (s.Inv → (slotAt s.slots k.toNat).valid = false → exec (.lread k) s = .next (s.reply .ok [0, 0, 0, 0] []))

/-- R245: LREM and LRENEW of a slot out of range or not valid, and LREAD of one out of range, return `BAD_SLOT`. -/
def Obligations.BadSlotHasNoEffect : Prop :=
  ∀ (s : State) (k : BitVec 16),
    ((∃ n, s.params.nIdSlots = some n ∧ n ≤ k.toNat) ∨ (slotAt s.slots k.toNat).valid = false →
      exec (.lrem k) s = .next (s.reply .badSlot [] []) ∧ exec (.lrenew k) s = .next (s.reply .badSlot [] [])) ∧
    ((∃ n, s.params.nIdSlots = some n ∧ n ≤ k.toNat) → exec (.lread k) s = .next (s.reply .badSlot [] []))

/-- R196: TICK always completes: `pt_count` counts with saturation, every valid timed slot is freed at countdown ≤ 1 and
counts down otherwise, every other slot is as before, and nothing else changes. -/
def Obligations.TickAgesEverySlot : Prop :=
  ∀ s : State, ∃ (pt : Word) (slots : List Slot),
    exec .tick s = .next (((s.setParser { s.parser with ptCount := pt }).setSlots slots).reply .ok [] []) ∧
    pt.toNat = min (s.parser.ptCount.toNat + 1) (2 ^ 32 - 1) ∧ slots.length = s.slots.length ∧
    ∀ k, let sl := slotAt s.slots k
      (sl.valid = true ∧ sl.hasTo = true ∧ sl.countdown.toNat ≤ 1 → slotAt slots k = Slot.free) ∧
      (sl.valid = true ∧ sl.hasTo = true ∧ 1 < sl.countdown.toNat →
        slotAt slots k = { sl with countdown := BitVec.ofNat 32 (sl.countdown.toNat - 1) }) ∧
      (sl.valid = false ∨ sl.hasTo = false → slotAt slots k = sl)

/-- R197: a timed slot with countdown T is valid after each tick before the T-th (the first, for T = 0) and free from
then on, so a frame with its ID lists it exactly while it is valid. -/
def Obligations.ListenersExpireAfterTheirTicks : Prop :=
  ∀ (s : State) (k n : Nat), (slotAt s.slots k).valid = true → (slotAt s.slots k).hasTo = true →
    ∃ t, ticks n s = .next t ∧
      (n < max 1 (slotAt s.slots k).countdown.toNat →
        slotAt t.slots k = { slotAt s.slots k with
          countdown := BitVec.ofNat 32 ((slotAt s.slots k).countdown.toNat - n) } ∧
        k ∈ matchSlots t.slots (slotAt s.slots k).id) ∧
      (max 1 (slotAt s.slots k).countdown.toNat ≤ n →
        slotAt t.slots k = Slot.free ∧ k ∉ matchSlots t.slots (slotAt s.slots k).id)

/-- R195, R158, R77: a dispatched frame lists exactly the valid slots whose ID is the frame's, ascending, as they stand
at that moment; its `is_response` is 0 and its data has the length it declares. -/
def Obligations.DispatchListsTheMatchingSlots : Prop :=
  ∀ (s t : State) (b : Byte) (r : Response) (d : DispatchInfo), s.Inv → exec (.acceptByte b) s = .next t →
    t.output = s.output ++ [r] → .dispatch d ∈ r.events →
    d.matchList.Pairwise (· < ·) ∧
    (∀ k, k ∈ d.matchList ↔ ((slotAt s.slots k).valid = true ∧ (slotAt s.slots k).id = d.frameId)) ∧
    d.isResponse = false ∧ d.len.toNat = d.data.length ∧ t.parser.pstate = .sof

/-- R198: a dispatch changes no slot, and a valid slot leaves the table only by LREM, by expiry at a TICK, or by
RESET. -/
def Obligations.SlotsLeaveOnlyByRemovalExpiryOrReset : Prop :=
  (∀ (s t : State) (b : Byte), exec (.acceptByte b) s = .next t → t.slots = s.slots) ∧
  (∀ (s t : State) (k : Nat), step s = .next t → (slotAt s.slots k).valid = true → (slotAt t.slots k).valid = false →
    s.resetIn = true ∨ ∃ i rest, decode s.input = .instr i rest ∧
      ((∃ j : BitVec 16, i = .lrem j ∧ j.toNat = k) ∨
       (i = .tick ∧ (slotAt s.slots k).hasTo = true ∧ (slotAt s.slots k).countdown.toNat ≤ 1)))

/-! ## Configuration (44_config.md) -/

/-- R220, R21, R224: CFGW of a legal value to a writable register completes; the register reads back as that value,
every other register as before, and NEXT_ID, the parser and the slots are unchanged. -/
def Obligations.CfgwWritesOneRegister : Prop :=
  ∀ (s : State) (g : CfgReg) (v : Word), g.writable = true → g.legal v = true →
    ∃ c : CfgRegs, exec (.cfgw g.num v) s = .next ((s.setCfg c).reply .ok [] []) ∧
      (s.setCfg c).readReg g = v ∧ (∀ h : CfgReg, h ≠ g → (s.setCfg c).readReg h = s.readReg h)

/-- R243, R221: CFGW of a value outside the legal set, and CKSUM of a selector above 4, return `BAD_CONFIG` and leave
everything unchanged. -/
def Obligations.BadConfigHasNoEffect : Prop :=
  ∀ (s : State) (r : Byte) (v : Word) (d : List Byte),
    ((r.toNat ≤ 2 ∧ (v.toNat < 1 ∨ 4 < v.toNat)) ∨ (r.toNat = 3 ∧ 2 ^ 9 ≤ v.toNat) ∨ (r.toNat = 4 ∧ 4 < v.toNat) ∨
        (r.toNat = 7 ∧ 1 < v.toNat) → exec (.cfgw r v) s = .next (s.reply .badConfig [] [])) ∧
    (4 < r.toNat → exec (.cksum r d) s = .next (s.reply .badConfig [] []))

/-- R222: CFGR of an assigned register completes with its 32-bit value and changes nothing. -/
def Obligations.CfgrReturnsTheRegister : Prop :=
  ∀ (s : State) (r : Byte), r.toNat ≤ 0x0B →
    ∃ sof nSlots : Word,
      sof.toNat = 256 * s.cfg.sofEn.toNat + s.cfg.sofByte.toNat ∧
      (∀ n, s.params.nIdSlots = some n → nSlots.toNat = min n (2 ^ 32 - 1)) ∧
      (s.params.nIdSlots = none → nSlots.toNat = 2 ^ 32 - 1) ∧
      exec (.cfgr r) s = .next (s.reply .ok
        [([s.cfg.idSize, s.cfg.lenSize, s.cfg.typeSize, sof, BitVec.ofNat 32 s.cfg.cksumSel.code, s.cfg.chunkSize,
           s.cfg.parserTimeout, s.cfg.peer.setWidth 32, s.nextId, s.parser.pstate.code, s.parser.ptCount,
           nSlots].getD r.toNat 0)] [])

/-- R241, R220, R222: a CFGW of a read-only or unassigned register and a CFGR of an unassigned one return
`ILLEGAL_CMD`, whatever the value. -/
def Obligations.IllegalRegistersHaveNoEffect : Prop :=
  ∀ (s : State) (r : Byte) (v : Word),
    (7 < r.toNat → exec (.cfgw r v) s = .next (s.reply .illegalCmd [] [])) ∧
    (0x0B < r.toNat → exec (.cfgr r) s = .next (s.reply .illegalCmd [] []))

/-! ## Errors and the host (60_exceptions.md) -/

/-- R246, R240: a command that ends hands back exactly one response, and one whose status is not `OK` leaves everything
else as it found it, with no value and no event; so does a step whose words are an illegal encoding, but for the words
taken. -/
def Obligations.FailedCommandsHaveNoEffect : Prop :=
  (∀ (i : Instr) (s t : State), exec i s = .next t →
    ∃ r : Response, t.output = s.output ++ [r] ∧
      (r.status ≠ .ok → r.values = [] ∧ r.events = [] ∧ t = { s with output := s.output ++ [r] })) ∧
  (∀ s t : State, s.resetIn = false → decode s.input ≠ .incomplete → step s = .next t →
    ∃ r : Response, t.output = s.output ++ [r] ∧
      (r.status ≠ .ok → r.values = [] ∧ r.events = [] ∧
        t = { s with input := t.input, output := s.output ++ [r] }))

/-- R240, R76: the statuses each command may return, and how many values an `OK` one hands back. -/
def Obligations.EachCommandReturnsItsOwnStatuses : Prop :=
  ∀ (i : Instr) (s t : State) (r : Response), exec i s = .next t → t.output = s.output ++ [r] →
    (r.status = .badConfig → (∃ a v, i = .cfgw a v) ∨ ∃ c d, i = .cksum c d) ∧
    (r.status = .lenOverflow → ∃ y d, Transmits i y d) ∧
    (r.status = .tableFull → (∃ f y p o d, i = .query f y p o d) ∨ ∃ l o, i = .ladd l o) ∧
    (r.status = .badSlot → (∃ k, i = .lrem k) ∨ (∃ k, i = .lrenew k) ∨ ∃ k, i = .lread k) ∧
    (r.status = .illegalCmd → (∃ a v, i = .cfgw a v) ∨ ∃ a, i = .cfgr a) ∧
    (r.status = .ok → r.values.length = match i with
      | .acceptByte _ | .tick | .resetParser | .cfgw _ _ | .lrem _ | .lrenew _ => 0
      | .cfgr _ | .cksum _ _ | .send _ _ _ _ | .respond _ _ _ _ | .ladd _ _ => 1
      | .query _ _ _ _ _ => 2
      | .lread _ => 4)

/-- R129, R77: every successful SEND, QUERY and RESPOND emits one claim, the chunks of one frame, one release, and
nothing else; a failed command emits nothing; only ACCEPT_BYTE emits a dispatch; no other command emits an event. -/
def Obligations.EventsOfEachCommand : Prop :=
  ∀ (i : Instr) (s t : State) (r : Response), exec i s = .next t → t.output = s.output ++ [r] →
    (∀ y d, Transmits i y d → r.status = .ok → ∃ x : Word, r.values.head? = some x ∧
      r.events = .txClaim ::
        ((chunks s.cfg.chunkSize (frameBytes s.params.cksumDefs s.cfg x y d)).map .txChunk ++ [.txRelease])) ∧
    (r.status ≠ .ok → r.events = []) ∧
    ((∀ y d, ¬ Transmits i y d) → (∀ b, i ≠ .acceptByte b) → r.events = []) ∧
    (∀ b, i = .acceptByte b → r.events = [] ∨ ∃ d, r.events = [.dispatch d])

/-- R62: CFGR, LREAD and CKSUM have no side effects: they complete, and only their response is new. -/
def Obligations.ReadCommandsHaveNoSideEffects : Prop :=
  ∀ (i : Instr) (s : State), ((∃ a, i = .cfgr a) ∨ (∃ k, i = .lread k) ∨ ∃ c d, i = .cksum c d) →
    ∃ r : Response, exec i s = .next { s with output := s.output ++ [r] } ∧ r.events = []

/-- R252: a host with no sink faults at the first `TxChunk`; with one it forwards every chunk in order, an absent hook
making its event a no-op. R253: on a dispatch it calls the matching ID listeners in the order of `match`, then every type
listener of the type, then every generic one. That the calls within the type table, and within the generic table, are in
table order is the model's choice (log entry 14): R253 leaves that order open. -/
def Obligations.HostForwardsChunksAndFansOut : Prop :=
  (∀ (h : HostTables) (c r : Bool) (ps : List (List Byte)), ps ≠ [] →
    hostDeliverAll { claim := c, sink := false, release := r } h (.txClaim :: (ps.map .txChunk ++ [.txRelease])) =
      .fault .noTransmitSink) ∧
  (∀ (h : HostTables) (c r : Bool) (ps : List (List Byte)),
    hostDeliverAll { claim := c, sink := true, release := r } h (.txClaim :: (ps.map .txChunk ++ [.txRelease])) =
      .next ((if c then [.claimBus] else []) ++ ps.map .writeSink ++ (if r then [.releaseBus] else []))) ∧
  (∀ (l : HostLinks) (h : HostTables) (d : DispatchInfo),
    let m : HostMessage := { typ := d.typ, frameId := d.frameId, data := d.data, isResponse := d.isResponse }
    ∃ ts : List Nat, ts.Pairwise (· < ·) ∧ (∀ k, k ∈ ts ↔ h.typeListeners[k]? = some d.typ) ∧
      hostDeliver l h (.dispatch d) = .next (d.matchList.map (.callId · m) ++ ts.map (.callType · m)
        ++ (List.range h.genericListeners).map (.callGeneric · m)))
end

