-- ==== Sys2Proof/Laws/State.lean ====
section
/-! SUPPORT. One lemma per field of State per named update, so that no later proof unfolds a record update; and how the
updates commute and cancel. -/

namespace Sys2Proof.Machine

variable (s : State)

@[simp] theorem State.setCfg_params (c : CfgRegs) : (s.setCfg c).params = s.params := rfl
@[simp] theorem State.setCfg_cfg (c : CfgRegs) : (s.setCfg c).cfg = c := rfl
@[simp] theorem State.setCfg_nextId (c : CfgRegs) : (s.setCfg c).nextId = s.nextId := rfl
@[simp] theorem State.setCfg_parser (c : CfgRegs) : (s.setCfg c).parser = s.parser := rfl
@[simp] theorem State.setCfg_slots (c : CfgRegs) : (s.setCfg c).slots = s.slots := rfl
@[simp] theorem State.setCfg_resetIn (c : CfgRegs) : (s.setCfg c).resetIn = s.resetIn := rfl
@[simp] theorem State.setCfg_input (c : CfgRegs) : (s.setCfg c).input = s.input := rfl
@[simp] theorem State.setCfg_output (c : CfgRegs) : (s.setCfg c).output = s.output := rfl

@[simp] theorem State.setNextId_params (v : Word) : (s.setNextId v).params = s.params := rfl
@[simp] theorem State.setNextId_cfg (v : Word) : (s.setNextId v).cfg = s.cfg := rfl
@[simp] theorem State.setNextId_nextId (v : Word) : (s.setNextId v).nextId = v := rfl
@[simp] theorem State.setNextId_parser (v : Word) : (s.setNextId v).parser = s.parser := rfl
@[simp] theorem State.setNextId_slots (v : Word) : (s.setNextId v).slots = s.slots := rfl
@[simp] theorem State.setNextId_resetIn (v : Word) : (s.setNextId v).resetIn = s.resetIn := rfl
@[simp] theorem State.setNextId_input (v : Word) : (s.setNextId v).input = s.input := rfl
@[simp] theorem State.setNextId_output (v : Word) : (s.setNextId v).output = s.output := rfl

@[simp] theorem State.setParser_params (p : Parser) : (s.setParser p).params = s.params := rfl
@[simp] theorem State.setParser_cfg (p : Parser) : (s.setParser p).cfg = s.cfg := rfl
@[simp] theorem State.setParser_nextId (p : Parser) : (s.setParser p).nextId = s.nextId := rfl
@[simp] theorem State.setParser_parser (p : Parser) : (s.setParser p).parser = p := rfl
@[simp] theorem State.setParser_slots (p : Parser) : (s.setParser p).slots = s.slots := rfl
@[simp] theorem State.setParser_resetIn (p : Parser) : (s.setParser p).resetIn = s.resetIn := rfl
@[simp] theorem State.setParser_input (p : Parser) : (s.setParser p).input = s.input := rfl
@[simp] theorem State.setParser_output (p : Parser) : (s.setParser p).output = s.output := rfl

@[simp] theorem State.setSlots_params (l : List Slot) : (s.setSlots l).params = s.params := rfl
@[simp] theorem State.setSlots_cfg (l : List Slot) : (s.setSlots l).cfg = s.cfg := rfl
@[simp] theorem State.setSlots_nextId (l : List Slot) : (s.setSlots l).nextId = s.nextId := rfl
@[simp] theorem State.setSlots_parser (l : List Slot) : (s.setSlots l).parser = s.parser := rfl
@[simp] theorem State.setSlots_slots (l : List Slot) : (s.setSlots l).slots = l := rfl
@[simp] theorem State.setSlots_resetIn (l : List Slot) : (s.setSlots l).resetIn = s.resetIn := rfl
@[simp] theorem State.setSlots_input (l : List Slot) : (s.setSlots l).input = s.input := rfl
@[simp] theorem State.setSlots_output (l : List Slot) : (s.setSlots l).output = s.output := rfl

@[simp] theorem State.setInput_params (ws : List Word) : (s.setInput ws).params = s.params := rfl
@[simp] theorem State.setInput_cfg (ws : List Word) : (s.setInput ws).cfg = s.cfg := rfl
@[simp] theorem State.setInput_nextId (ws : List Word) : (s.setInput ws).nextId = s.nextId := rfl
@[simp] theorem State.setInput_parser (ws : List Word) : (s.setInput ws).parser = s.parser := rfl
@[simp] theorem State.setInput_slots (ws : List Word) : (s.setInput ws).slots = s.slots := rfl
@[simp] theorem State.setInput_resetIn (ws : List Word) : (s.setInput ws).resetIn = s.resetIn := rfl
@[simp] theorem State.setInput_input (ws : List Word) : (s.setInput ws).input = ws := rfl
@[simp] theorem State.setInput_output (ws : List Word) : (s.setInput ws).output = s.output := rfl

@[simp] theorem State.reply_params (st : Status) (vals : List Word) (evs : List Event) :
    (s.reply st vals evs).params = s.params := rfl
@[simp] theorem State.reply_cfg (st : Status) (vals : List Word) (evs : List Event) :
    (s.reply st vals evs).cfg = s.cfg := rfl
@[simp] theorem State.reply_nextId (st : Status) (vals : List Word) (evs : List Event) :
    (s.reply st vals evs).nextId = s.nextId := rfl
@[simp] theorem State.reply_parser (st : Status) (vals : List Word) (evs : List Event) :
    (s.reply st vals evs).parser = s.parser := rfl
@[simp] theorem State.reply_slots (st : Status) (vals : List Word) (evs : List Event) :
    (s.reply st vals evs).slots = s.slots := rfl
@[simp] theorem State.reply_resetIn (st : Status) (vals : List Word) (evs : List Event) :
    (s.reply st vals evs).resetIn = s.resetIn := rfl
@[simp] theorem State.reply_input (st : Status) (vals : List Word) (evs : List Event) :
    (s.reply st vals evs).input = s.input := rfl
@[simp] theorem State.reply_output (st : Status) (vals : List Word) (evs : List Event) :
    (s.reply st vals evs).output = s.output ++ [{ status := st, values := vals, events := evs }] := rfl

@[simp] theorem State.hwReset_params : s.hwReset.params = s.params := rfl
@[simp] theorem State.hwReset_cfg : s.hwReset.cfg = CfgRegs.reset s.params.peerInit := rfl
@[simp] theorem State.hwReset_nextId : s.hwReset.nextId = 0 := rfl
@[simp] theorem State.hwReset_parser : s.hwReset.parser = Parser.reset := rfl
@[simp] theorem State.hwReset_slots : s.hwReset.slots = resetSlots s.params.nIdSlots := rfl
@[simp] theorem State.hwReset_resetIn : s.hwReset.resetIn = false := rfl
@[simp] theorem State.hwReset_input : s.hwReset.input = s.input := rfl
@[simp] theorem State.hwReset_output : s.hwReset.output = s.output := rfl

@[simp] theorem State.resetWith_params (p : Params) : (State.resetWith p).params = p := rfl
@[simp] theorem State.resetWith_cfg (p : Params) : (State.resetWith p).cfg = CfgRegs.reset p.peerInit := rfl
@[simp] theorem State.resetWith_nextId (p : Params) : (State.resetWith p).nextId = 0 := rfl
@[simp] theorem State.resetWith_parser (p : Params) : (State.resetWith p).parser = Parser.reset := rfl
@[simp] theorem State.resetWith_slots (p : Params) : (State.resetWith p).slots = resetSlots p.nIdSlots := rfl
@[simp] theorem State.resetWith_resetIn (p : Params) : (State.resetWith p).resetIn = false := rfl
@[simp] theorem State.resetWith_input (p : Params) : (State.resetWith p).input = [] := rfl
@[simp] theorem State.resetWith_output (p : Params) : (State.resetWith p).output = [] := rfl

@[simp] theorem State.placeWords_params (ws : List Word) : (s.placeWords ws).params = s.params := rfl
@[simp] theorem State.placeWords_cfg (ws : List Word) : (s.placeWords ws).cfg = s.cfg := rfl
@[simp] theorem State.placeWords_nextId (ws : List Word) : (s.placeWords ws).nextId = s.nextId := rfl
@[simp] theorem State.placeWords_parser (ws : List Word) : (s.placeWords ws).parser = s.parser := rfl
@[simp] theorem State.placeWords_slots (ws : List Word) : (s.placeWords ws).slots = s.slots := rfl
@[simp] theorem State.placeWords_resetIn (ws : List Word) : (s.placeWords ws).resetIn = false := rfl
@[simp] theorem State.placeWords_input (ws : List Word) : (s.placeWords ws).input = ws ++ s.input := rfl
@[simp] theorem State.placeWords_output (ws : List Word) : (s.placeWords ws).output = s.output := rfl

/-- Writing back what a field holds changes nothing. -/
@[simp] theorem State.setParser_self : s.setParser s.parser = s := rfl

@[simp] theorem State.setSlots_self : s.setSlots s.slots = s := rfl

@[simp] theorem State.setNextId_self : s.setNextId s.nextId = s := rfl

@[simp] theorem State.setParser_setParser (p q : Parser) : (s.setParser p).setParser q = s.setParser q := rfl

theorem State.setParser_reply (p : Parser) (st : Status) (vals : List Word) (evs : List Event) :
    (s.reply st vals evs).setParser p = (s.setParser p).reply st vals evs := rfl

theorem State.setCfg_reply (c : CfgRegs) (st : Status) (vals : List Word) (evs : List Event) :
    (s.reply st vals evs).setCfg c = (s.setCfg c).reply st vals evs := rfl

end Sys2Proof.Machine
end

