-- ==== Sys2Proof/Laws/Ops.lean ====
section
/-! SUPPORT. What each shared operation can do, said once: ending a command, the slot file, the bytes of a number, and
the parser's internal actions. -/

namespace Sys2Proof.Machine

/-! ## Ending a command -/

/-- `complete` always answers a next state: its argument with one `OK` response. -/
theorem complete_eq_next {s t : State} {vals : List Word} {evs : List Event} :
    complete s vals evs = .next t ↔ t = s.reply .ok vals evs := by
  simp [complete, eq_comm]

/-- `raise` always answers a next state: its argument with one error response. -/
theorem raise_eq_next {s t : State} {st : Status} : raise st s = .next t ↔ t = s.reply st [] [] := by
  simp [raise, eq_comm]

/-- `transmit` always completes. -/
theorem transmit_eq_next {s t : State} {id typ : Word} {d : List Byte} {vals : List Word} :
    transmit id typ d vals s = .next t ↔
      t = s.reply .ok vals (txEvents s.cfg (frameBytes s.params.cksumDefs s.cfg id typ d)) :=
  complete_eq_next

/-- Two replies to one state are equal only with equal responses. -/
theorem State.reply_output_inj {s u : State} {st : Status} {vals : List Word} {evs : List Event} {r : Response}
    (hu : u.output = s.output) (h : (u.reply st vals evs).output = s.output ++ [r]) :
    r = { status := st, values := vals, events := evs } := by
  simp [hu] at h
  exact h.symm

/-! ## Going on from a result -/

@[simp] theorem andThen_next (t : State) (f : State → Result) : andThen (.next t) f = f t := rfl

@[simp] theorem andThen_fault (e : Fault) (f : State → Result) : andThen (.fault e) f = .fault e := rfl

@[simp] theorem andThen_refused (e : Refusal) (f : State → Result) : andThen (.refused e) f = .refused e := rfl

/-- Going on twice is going on by both in turn. -/
theorem andThen_assoc (r : Result) (f g : State → Result) :
    andThen (andThen r f) g = andThen r fun t => andThen (f t) g := by
  cases r <;> rfl

/-- A sequence that ends in a next state came by one. -/
theorem andThen_eq_next {r : Result} {f : State → Result} {t : State} :
    andThen r f = .next t ↔ ∃ u, r = .next u ∧ f u = .next t := by
  cases r <;> simp

/-! ## The slot file -/

/-- A read of a listed slot. -/
theorem slotAt_of_lt {slots : List Slot} {k : Nat} (h : k < slots.length) : slotAt slots k = slots[k] := by
  simp [slotAt, h]

/-- A slot past the listed ones is free. -/
theorem slotAt_of_le {slots : List Slot} {k : Nat} (h : slots.length ≤ k) : slotAt slots k = Slot.free := by
  simp [slotAt, h]

/-- A valid slot is a listed one. -/
theorem lt_length_of_valid {slots : List Slot} {k : Nat} (h : (slotAt slots k).valid = true) : k < slots.length := by
  by_contra hk
  rw [slotAt_of_le (by omega)] at h
  exact absurd h (by decide)

/-- A read after a write: the slot written reads as the value, every other as before, as long as no gap opens. -/
theorem slotAt_putSlot {slots : List Slot} {k j : Nat} {v : Slot} (hk : k ≤ slots.length) :
    slotAt (putSlot slots k v) j = if j = k then v else slotAt slots j := by
  unfold putSlot
  split
  · next h =>
    by_cases hj : j = k
    · subst hj; simp [slotAt, h]
    · simp [slotAt, List.getD_eq_getElem?_getD, hj, List.getElem?_set_ne (Ne.symm hj)]
  · next h =>
    obtain rfl : k = slots.length := by omega
    by_cases hj : j = slots.length
    · subst hj; simp [slotAt]
    · rcases Nat.lt_or_gt_of_ne hj with h' | h'
      · simp [slotAt, hj, h', List.getD_eq_getElem?_getD, List.getElem?_append_left h']
      · have h1 : slots.length + 1 ≤ j := h'
        simp [slotAt, hj, List.getD_eq_getElem?_getD, List.getElem?_eq_none, h1, Nat.le_of_lt h']

/-- A write keeps the length, or adds the one slot after the last. -/
theorem length_putSlot {slots : List Slot} {k : Nat} {v : Slot} :
    (putSlot slots k v).length = if k < slots.length then slots.length else slots.length + 1 := by
  unfold putSlot
  split <;> simp

/-- A slot of a written file is the value written or a slot of the file. -/
theorem mem_putSlot {slots : List Slot} {k : Nat} {v sl : Slot} (h : sl ∈ putSlot slots k v) : sl = v ∨ sl ∈ slots := by
  unfold putSlot at h
  split at h
  · rcases List.mem_or_eq_of_mem_set h with h | h
    · exact .inr h
    · exact .inl h
  · simp at h
    exact h.symm

/-- The lowest free slot: in range, free, at most one past the listed ones, with every lower slot valid. -/
theorem freeSlot?_eq_some {n : Option Nat} {slots : List Slot} {k : Nat} (h : freeSlot? n slots = some k) :
    slotInRange n k = true ∧ (slotAt slots k).valid = false ∧ k ≤ slots.length ∧
      ∀ j < k, (slotAt slots j).valid = true := by
  unfold freeSlot? at h
  simp only [Option.ite_none_right_eq_some, Option.some.injEq] at h
  obtain ⟨hr, rfl⟩ := h
  refine ⟨hr, ?_, List.findIdx_le_length, ?_⟩
  · rcases Nat.lt_or_ge (slots.findIdx fun sl => !sl.valid) slots.length with hlt | hge
    · rw [slotAt_of_lt hlt]
      simpa using List.findIdx_getElem (w := hlt)
    · rw [slotAt_of_le hge]; rfl
  · intro j hj
    have hjl : j < slots.length := Nat.lt_of_lt_of_le hj List.findIdx_le_length
    rw [slotAt_of_lt hjl]
    simpa using List.not_of_lt_findIdx hj

/-- The lowest free slot in range is the one found. -/
theorem freeSlot?_of_lowest {n : Option Nat} {slots : List Slot} {k : Nat} (hr : slotInRange n k = true)
    (hf : (slotAt slots k).valid = false) (hl : ∀ j < k, (slotAt slots j).valid = true) :
    freeSlot? n slots = some k := by
  have hk : k ≤ slots.length := by
    by_contra h
    have := hl slots.length (by omega)
    rw [slotAt_of_le (Nat.le_refl _)] at this
    exact absurd this (by decide)
  have : slots.findIdx (fun sl => !sl.valid) = k := by
    rcases Nat.lt_or_ge k slots.length with h | h
    · rw [List.findIdx_eq h]
      refine ⟨by simpa [slotAt_of_lt h] using hf, fun j hj => ?_⟩
      have := hl j hj
      rw [slotAt_of_lt (by omega)] at this
      simp [this]
    · obtain rfl : k = slots.length := by omega
      refine List.findIdx_eq_length.2 fun sl hsl => ?_
      obtain ⟨j, hj, rfl⟩ := List.getElem_of_mem hsl
      have := hl j hj
      rw [slotAt_of_lt hj] at this
      simp [this]
  simp [freeSlot?, this, hr]

/-- No free slot is found exactly when every slot in range is valid. -/
theorem freeSlot?_eq_none {n : Option Nat} {slots : List Slot} :
    freeSlot? n slots = none ↔ ∀ k, slotInRange n k = true → (slotAt slots k).valid = true := by
  constructor
  · intro h k hk
    by_contra hv
    classical
    have hex : ∃ k, (slotAt slots k).valid = false := ⟨k, by simpa using hv⟩
    have hlow := freeSlot?_of_lowest (n := n) (slots := slots) (k := Nat.find hex) ?_ (Nat.find_spec hex)
      (fun j hj => by simpa using Nat.find_min hex hj)
    · rw [h] at hlow; exact absurd hlow (by simp)
    · have hle : Nat.find hex ≤ k := Nat.find_min' hex (by simpa using hv)
      cases n with
      | none => rfl
      | some n => exact decide_eq_true (Nat.lt_of_le_of_lt hle (of_decide_eq_true hk))
  · intro h
    by_contra hne
    obtain ⟨k, hk⟩ := Option.ne_none_iff_exists'.1 hne
    obtain ⟨hr, hf, -, -⟩ := freeSlot?_eq_some hk
    rw [h k hr] at hf
    exact absurd hf (by decide)

/-- A slot is in the match list exactly when it is valid and holds the ID. -/
theorem mem_matchSlots {slots : List Slot} {fid : Word} {k : Nat} :
    k ∈ matchSlots slots fid ↔ (slotAt slots k).valid = true ∧ (slotAt slots k).id = fid := by
  simp only [matchSlots, List.mem_filter, List.mem_range, Bool.and_eq_true, beq_iff_eq]
  exact ⟨fun h => h.2, fun h => ⟨lt_length_of_valid h.1, h⟩⟩

/-- The match list is ascending. -/
theorem matchSlots_pairwise (slots : List Slot) (fid : Word) : (matchSlots slots fid).Pairwise (· < ·) :=
  List.Pairwise.filter _ List.pairwise_lt_range

/-- A tick of every slot, read at one. -/
theorem slotAt_map_age (slots : List Slot) (k : Nat) : slotAt (slots.map Slot.age) k = (slotAt slots k).age := by
  rcases Nat.lt_or_ge k slots.length with h | h
  · simp [slotAt, h]
  · simp [slotAt, h]; rfl

/-! ## The bytes of a number -/

@[simp] theorem length_be (v n : Nat) : (be v n).length = n := by
  induction n with
  | zero => rfl
  | succ n ih => simp [be, ih]

theorem beVal_foldl (bs : List Byte) (a : Nat) :
    bs.foldl (fun acc b => acc * 256 + b.toNat) a = a * 256 ^ bs.length + beVal bs := by
  induction bs generalizing a with
  | nil => simp [beVal]
  | cons b bs ih =>
    simp only [beVal, List.foldl_cons, List.length_cons]
    rw [ih, ih]
    ring

/-- The value of a byte followed by a sequence. -/
theorem beVal_cons (b : Byte) (bs : List Byte) : beVal (b :: bs) = b.toNat * 256 ^ bs.length + beVal bs := by
  rw [beVal, List.foldl_cons, beVal_foldl]; simp

/-- The value of a concatenation. -/
theorem beVal_append (as bs : List Byte) : beVal (as ++ bs) = beVal as * 256 ^ bs.length + beVal bs := by
  rw [beVal, List.foldl_append, beVal_foldl]; rfl

/-- The value of a sequence with one more byte: one step of accumulation (R57). -/
theorem beVal_concat (as : List Byte) (b : Byte) : beVal (as ++ [b]) = beVal as * 256 + b.toNat := by
  simp [beVal]

/-- A sequence of n bytes is worth less than 2^(8n). -/
theorem beVal_lt (bs : List Byte) : beVal bs < 256 ^ bs.length := by
  induction bs with
  | nil => simp [beVal]
  | cons b bs ih =>
    rw [beVal_cons, List.length_cons, Nat.pow_succ]
    have := b.isLt
    calc b.toNat * 256 ^ bs.length + beVal bs < b.toNat * 256 ^ bs.length + 256 ^ bs.length := by omega
      _ = (b.toNat + 1) * 256 ^ bs.length := by ring
      _ ≤ 256 * 256 ^ bs.length := Nat.mul_le_mul_right _ (by omega)
      _ = _ := by ring

/-- `BEval(BE(v, n)) = v mod 2^(8n)` (R8). -/
theorem beVal_be (v n : Nat) : beVal (be v n) = v % 2 ^ (8 * n) := by
  induction n with
  | zero => simp [be, beVal, Nat.mod_one]
  | succ n ih =>
    rw [be, beVal_cons, length_be, ih, show (256 : Nat) = 2 ^ 8 from rfl, ← Nat.pow_mul,
      BitVec.toNat_ofNat, show 8 * (n + 1) = 8 * n + 8 by ring, Nat.pow_add, Nat.mod_mul]
    ring

/-- One step of accumulation, as arithmetic (R57). -/
theorem toNat_shiftIn (acc : Word) (b : Byte) : (shiftIn acc b).toNat = (acc.toNat * 256 + b.toNat) % 2 ^ 32 := by
  have hb := b.isLt
  have h : shiftIn acc b = acc * 256#32 + b.setWidth 32 := by
    unfold shiftIn
    rw [← BitVec.add_eq_or_of_and_eq_zero]
    · congr 1
      apply BitVec.eq_of_toNat_eq
      simp [BitVec.toNat_shiftLeft, Nat.shiftLeft_eq]
    · apply BitVec.eq_of_getLsbD_eq
      intro i hi
      simp only [BitVec.getLsbD_and, BitVec.getLsbD_shiftLeft, BitVec.getLsbD_setWidth]
      by_cases h8 : i < 8
      · simp [h8]
      · rw [BitVec.getLsbD_of_ge b i (by omega)]; simp
  rw [h]
  simp [BitVec.toNat_add, BitVec.toNat_mul]

end Sys2Proof.Machine
end

