-- ==== Sys2Proof/Laws/Commands.lean ====
section
/-! SUPPORT. What each meaning can answer, said once per command: the cases a later proof cites instead of unfolding
the meaning. -/

namespace Sys2Proof.Machine

/-! ## The parser -/

/-- `enterData` opens the payload, or refuses a frame above a finite PAYLOAD_CAP (R187). -/
theorem enterData_cases (cap : Option Nat) (p : Parser) :
    (overCap cap p.rxLen = false ∧ enterData cap p = .ok { p with pstate := .data } []) ∨
    (overCap cap p.rxLen = true ∧ enterData cap p = .overCap) := by
  unfold enterData
  cases h : overCap cap p.rxLen <;> simp

/-- With PAYLOAD_CAP = ∞ no length is above it. -/
@[simp] theorem overCap_none (n : Word) : overCap none n = false := rfl

@[simp] theorem enterData_none (p : Parser) : enterData none p = .ok { p with pstate := .data } [] := rfl

/-- A parser step that emits anything emits one dispatch, of the registers held when the step began but for the byte it
added, and leaves the parser cleared. -/
theorem parserStep_event {prm : Params} {c : CfgRegs} {slots : List Slot} {b : Byte} {p q : Parser}
    {evs : List Event} (h : parserStep prm c slots b p = .ok q evs) :
    evs = [] ∨ ∃ p' : Parser, evs = [.dispatch (dispatchInfo slots p')] ∧ q = p'.clear ∧ p'.rxId = p.rxId ∧
      p'.rxLen = p.rxLen ∧ p'.ptCount = p.ptCount := by
  unfold parserStep at h
  split at h
  · simp at h; exact .inl h.2
  · simp at h; exact .inl h.2
  · simp at h; exact .inl h.2
  · simp only [stepType] at h
    split at h
    · split at h
      · simp at h; exact .inl h.2
      · split at h
        · simp [dispatchFrame] at h
          exact .inr ⟨_, h.2.symm, h.1.symm, rfl, rfl, rfl⟩
        · rcases enterData_cases prm.payloadCap
            { p with rxType := shiftIn p.rxType b, hbuf := p.hbuf ++ [b], fpos := 0 } with ⟨-, h'⟩ | ⟨-, h'⟩ <;>
            rw [h'] at h <;> simp at h
          exact .inl h.2
    · simp at h; exact .inl h.2
  · simp only [stepHeadCksum] at h
    split at h
    · split at h
      · simp [dropFrame] at h; exact .inl h.2
      · split at h
        · simp [dispatchFrame] at h
          exact .inr ⟨_, h.2.symm, h.1.symm, rfl, rfl, rfl⟩
        · rcases enterData_cases prm.payloadCap
            { p with rxCk := shiftIn p.rxCk b, fpos := 0, dbuf := [], dcount := 0 } with ⟨-, h'⟩ | ⟨-, h'⟩ <;>
            rw [h'] at h <;> simp at h
          exact .inl h.2
    · simp at h; exact .inl h.2
  · simp only [stepData] at h
    split at h
    · split at h
      · simp [dispatchFrame] at h
        exact .inr ⟨_, h.2.symm, h.1.symm, rfl, rfl, rfl⟩
      · simp at h; exact .inl h.2
    · simp at h; exact .inl h.2
  · simp only [stepDataCksum] at h
    split at h
    · split at h
      · simp [dropFrame] at h; exact .inl h.2
      · simp [dispatchFrame] at h
        exact .inr ⟨_, h.2.symm, h.1.symm, rfl, rfl, rfl⟩
    · simp at h; exact .inl h.2

/-- ACCEPT_BYTE answers exactly what the parser step gives, in one `OK` response. -/
theorem execAcceptByte_eq_next {b : Byte} {s t : State} :
    execAcceptByte b s = .next t ↔
      ∃ p evs, parserStep s.params s.cfg s.slots b (s.parser.arrive s.cfg.parserTimeout) = .ok p evs ∧
        t = (s.setParser p).reply .ok [] evs := by
  unfold execAcceptByte
  split
  · next p evs h => simp [h, complete_eq_next]
  · next h => simp [h]

/-- Without a stall, only `pt_count` changes before the byte. -/
theorem Parser.arrive_of_not_stalled {p : Parser} {timeout : Word} (h : p.stalled timeout = false) :
    p.arrive timeout = { p with ptCount := 0 } := by
  simp [Parser.arrive, h]

/-- A stalled frame is dropped before the byte (R164). -/
theorem Parser.arrive_of_stalled {p : Parser} {timeout : Word} (h : p.stalled timeout = true) :
    p.arrive timeout = { p.clear with ptCount := 0 } := by
  simp [Parser.arrive, h]

/-- A parser in SOF is never stalled. -/
theorem Parser.stalled_of_sof {p : Parser} {timeout : Word} (h : p.pstate = .sof) : p.stalled timeout = false := by
  simp [Parser.stalled, h]

/-- A parser whose counter was just zeroed is never stalled. -/
theorem Parser.stalled_of_zero {p : Parser} {timeout : Word} (h : p.ptCount = 0) : p.stalled timeout = false := by
  simp [Parser.stalled, h]

/-! ## The serializer -/

/-- SEND and RESPOND: `LEN_OVERFLOW`, or the frame is transmitted. -/
theorem sendFrame_eq_next {resp : Bool} {fid typ : Word} {d : List Byte} {s t : State} :
    sendFrame resp fid typ d s = .next t ↔
      (lenOverflows s.cfg d.length = true ∧ t = s.reply .lenOverflow [] []) ∨
      (lenOverflows s.cfg d.length = false ∧
        t = (s.setNextId (nextIdAfter resp s)).reply .ok [frameIdOf resp fid s]
          (txEvents s.cfg (frameBytes s.params.cksumDefs s.cfg (frameIdOf resp fid s) typ d))) := by
  unfold sendFrame
  cases h : lenOverflows s.cfg d.length <;> simp [raise_eq_next, transmit_eq_next]

/-- QUERY: `LEN_OVERFLOW`, `TABLE_FULL`, or the listener is in its slot and the frame transmitted. -/
theorem execQuery_eq_next {resp : Bool} {fid typ : Word} {o : Option Word} {d : List Byte} {s t : State} :
    execQuery resp fid typ o d s = .next t ↔
      (lenOverflows s.cfg d.length = true ∧ t = s.reply .lenOverflow [] []) ∨
      (lenOverflows s.cfg d.length = false ∧ freeSlot? s.params.nIdSlots s.slots = none ∧
        t = s.reply .tableFull [] []) ∨
      (∃ k, lenOverflows s.cfg d.length = false ∧ freeSlot? s.params.nIdSlots s.slots = some k ∧
        t = ((s.setNextId (nextIdAfter resp s)).setSlots
              (putSlot s.slots k (listenSlot (frameIdOf resp fid s) o))).reply .ok
            [frameIdOf resp fid s, slotIndexWord k]
            (txEvents s.cfg (frameBytes s.params.cksumDefs s.cfg (frameIdOf resp fid s) typ d))) := by
  unfold execQuery
  cases h : lenOverflows s.cfg d.length <;> cases h' : freeSlot? s.params.nIdSlots s.slots <;>
    simp [raise_eq_next, transmit_eq_next]

/-! ## The listener slots -/

/-- LADD: `TABLE_FULL`, or the lowest free slot is filled. -/
theorem execLadd_eq_next {lid : Word} {o : Option Word} {s t : State} :
    execLadd lid o s = .next t ↔
      (freeSlot? s.params.nIdSlots s.slots = none ∧ t = s.reply .tableFull [] []) ∨
      (∃ k, freeSlot? s.params.nIdSlots s.slots = some k ∧
        t = (s.setSlots (putSlot s.slots k (listenSlot lid o))).reply .ok [slotIndexWord k] []) := by
  unfold execLadd
  cases h : freeSlot? s.params.nIdSlots s.slots <;> simp [raise_eq_next, complete_eq_next]

/-- A live slot is in range and valid. -/
theorem liveSlot_iff {s : State} {k : Nat} :
    liveSlot s k = true ↔ slotInRange s.params.nIdSlots k = true ∧ (slotAt s.slots k).valid = true := by
  simp [liveSlot]

/-- LREM: `BAD_SLOT`, or the slot is freed. -/
theorem execLrem_eq_next {k : BitVec 16} {s t : State} :
    execLrem k s = .next t ↔
      (liveSlot s k.toNat = false ∧ t = s.reply .badSlot [] []) ∨
      (liveSlot s k.toNat = true ∧ t = (s.setSlots (putSlot s.slots k.toNat Slot.free)).reply .ok [] []) := by
  unfold execLrem
  cases h : liveSlot s k.toNat <;> simp [raise_eq_next, complete_eq_next]

/-- LRENEW: `BAD_SLOT`, or the slot is renewed. -/
theorem execLrenew_eq_next {k : BitVec 16} {s t : State} :
    execLrenew k s = .next t ↔
      (liveSlot s k.toNat = false ∧ t = s.reply .badSlot [] []) ∨
      (liveSlot s k.toNat = true ∧
        t = (s.setSlots (putSlot s.slots k.toNat (slotAt s.slots k.toNat).renew)).reply .ok [] []) := by
  unfold execLrenew
  cases h : liveSlot s k.toNat <;> simp [raise_eq_next, complete_eq_next]

/-- LREAD: `BAD_SLOT`, or the slot's words. -/
theorem execLread_eq_next {k : BitVec 16} {s t : State} :
    execLread k s = .next t ↔
      (slotInRange s.params.nIdSlots k.toNat = false ∧ t = s.reply .badSlot [] []) ∨
      (slotInRange s.params.nIdSlots k.toNat = true ∧ t = s.reply .ok (slotAt s.slots k.toNat).words []) := by
  unfold execLread
  cases h : slotInRange s.params.nIdSlots k.toNat <;> simp [raise_eq_next, complete_eq_next]

/-- TICK always completes. -/
theorem execTick_eq_next {s t : State} :
    execTick s = .next t ↔
      t = ((s.setParser s.parser.countTick).setSlots (s.slots.map Slot.age)).reply .ok [] [] :=
  complete_eq_next

/-! ## Configuration and checksum -/

/-- The register a number names, by number. -/
theorem CfgReg.ofNum?_num (g : CfgReg) : CfgReg.ofNum? g.num = some g := by cases g <;> rfl

/-- Only the numbers 0x00 to 0x0B name a register (R21). -/
theorem CfgReg.ofNum?_eq_none {r : Byte} : CfgReg.ofNum? r = none ↔ 0x0B < r.toNat := by
  revert r; decide

/-- The selector a code names. -/
theorem CksumSel.ofCode?_code (c : CksumSel) : CksumSel.ofCode? c.code = some c := by cases c <;> rfl

/-- CFGW: `ILLEGAL_CMD`, `BAD_CONFIG`, or the register is written. -/
theorem execCfgw_eq_next {r : Byte} {v : Word} {s t : State} :
    execCfgw r v s = .next t ↔
      (CfgReg.ofNum? r = none ∧ t = s.reply .illegalCmd [] []) ∨
      (∃ g, CfgReg.ofNum? r = some g ∧ g.writable = false ∧ t = s.reply .illegalCmd [] []) ∨
      (∃ g, CfgReg.ofNum? r = some g ∧ g.writable = true ∧ g.legal v = false ∧ t = s.reply .badConfig [] []) ∨
      (∃ g, CfgReg.ofNum? r = some g ∧ g.writable = true ∧ g.legal v = true ∧
        t = (s.setCfg (s.cfg.write g v)).reply .ok [] []) := by
  unfold execCfgw
  cases h : CfgReg.ofNum? r with
  | none => simp [raise_eq_next]
  | some g =>
    cases hw : g.writable <;> cases hl : g.legal v <;> simp [hw, hl, raise_eq_next, complete_eq_next]

/-- CFGR: `ILLEGAL_CMD`, or the register's value. -/
theorem execCfgr_eq_next {r : Byte} {s t : State} :
    execCfgr r s = .next t ↔
      (CfgReg.ofNum? r = none ∧ t = s.reply .illegalCmd [] []) ∨
      (∃ g, CfgReg.ofNum? r = some g ∧ t = s.reply .ok [s.readReg g] []) := by
  unfold execCfgr
  cases h : CfgReg.ofNum? r <;> simp [raise_eq_next, complete_eq_next]

/-- CKSUM: `BAD_CONFIG`, or the checksum. -/
theorem execCksum_eq_next {sel : Byte} {d : List Byte} {s t : State} :
    execCksum sel d s = .next t ↔
      (CksumSel.ofCode? sel.toNat = none ∧ t = s.reply .badConfig [] []) ∨
      (∃ c, CksumSel.ofCode? sel.toNat = some c ∧ t = s.reply .ok [ck s.params.cksumDefs c d] []) := by
  unfold execCksum
  cases h : CksumSel.ofCode? sel.toNat <;> simp [raise_eq_next, complete_eq_next]

/-- RESET_PARSER always completes. -/
theorem execResetParser_eq_next {s t : State} :
    execResetParser s = .next t ↔ t = (s.setParser s.parser.clear).reply .ok [] [] :=
  complete_eq_next

/-! ## The delivered words -/

/-- No command reads or writes the words delivered after it: with any others in their place it does the same (R51). -/
theorem exec_setInput (i : Instr) (s : State) (w : List Word) :
    exec i (s.setInput w) = andThen (exec i s) fun t => .next (t.setInput w) := by
  cases i with
  | acceptByte b =>
    simp only [exec, execAcceptByte, State.setInput_params, State.setInput_cfg, State.setInput_slots, State.setInput_parser]
    cases parserStep s.params s.cfg s.slots b (s.parser.arrive s.cfg.parserTimeout) <;> rfl
  | tick => rfl
  | resetParser => rfl
  | cfgw r v =>
    simp only [exec, execCfgw, State.setInput_cfg]
    cases CfgReg.ofNum? r with
    | none => rfl
    | some g => cases hw : g.writable <;> cases hl : g.legal v <;> simp only [hw, hl] <;> rfl
  | cfgr r => simp only [exec, execCfgr]; cases CfgReg.ofNum? r <;> rfl
  | cksum c d => simp only [exec, execCksum]; cases CksumSel.ofCode? c.toNat <;> rfl
  | send r f y d | respond r f y d =>
    simp only [exec, execSend, execRespond, sendFrame, State.setInput_cfg]
    by_cases h : lenOverflows s.cfg d.length <;> simp only [h, if_true, if_false, Bool.false_eq_true] <;> rfl
  | query r f y o d =>
    simp only [exec, execQuery, State.setInput_cfg, State.setInput_params, State.setInput_slots]
    by_cases h : lenOverflows s.cfg d.length <;> simp only [h, if_true, if_false, Bool.false_eq_true]
    · rfl
    · cases freeSlot? s.params.nIdSlots s.slots <;> rfl
  | ladd l o =>
    simp only [exec, execLadd, State.setInput_params, State.setInput_slots]
    cases freeSlot? s.params.nIdSlots s.slots <;> rfl
  | lrem k =>
    simp only [exec, execLrem, show liveSlot (s.setInput w) k.toNat = liveSlot s k.toNat from rfl]
    cases liveSlot s k.toNat <;> rfl
  | lrenew k =>
    simp only [exec, execLrenew, show liveSlot (s.setInput w) k.toNat = liveSlot s k.toNat from rfl]
    cases liveSlot s k.toNat <;> rfl
  | lread k =>
    simp only [exec, execLread, State.setInput_params, State.setInput_slots]
    by_cases h : slotInRange s.params.nIdSlots k.toNat <;> simp only [h, if_true, if_false, Bool.false_eq_true] <;> rfl

end Sys2Proof.Machine
end

