-- ==== Sys2Proof/Laws/PerInstr.lean ====
section
/-! SUPPORT. Statements about every command as syntax, one lemma per constructor. -/

namespace Sys2Proof

/-- The opcode field of a command word is its operation's code (R70). -/
theorem fieldOpc_commandWord (op : Op) (a : Byte) (k : BitVec 16) : fieldOpc (commandWord op a k) = op.code := by
  apply BitVec.eq_of_getLsbD_eq
  intro i hi
  simp only [fieldOpc, commandWord, BitVec.getLsbD_extractLsb', BitVec.getLsbD_append]
  simp [hi]

/-- The field A of a command word (R70). -/
theorem fieldA_commandWord (op : Op) (a : Byte) (k : BitVec 16) : fieldA (commandWord op a k) = a := by
  apply BitVec.eq_of_getLsbD_eq
  intro i hi
  simp only [fieldA, commandWord, BitVec.getLsbD_extractLsb', BitVec.getLsbD_append]
  simp [hi]

/-- The field S of a command word (R70). -/
theorem fieldS_commandWord (op : Op) (a : Byte) (k : BitVec 16) : fieldS (commandWord op a k) = k := by
  apply BitVec.eq_of_getLsbD_eq
  intro i hi
  simp only [fieldS, commandWord, BitVec.getLsbD_extractLsb', BitVec.getLsbD_append]
  simp [hi, show ¬ (16 + i < 8) by omega, show 16 + i - 8 = 8 + i by omega]

/-- Every code names its operation (R74). -/
theorem Op.ofCode?_code (op : Op) : Op.ofCode? op.code = some op := by cases op <;> decide

/-- `ceil(n/4)` data words carry n bytes (R72). -/
theorem length_packWords : ∀ d : List Byte, (packWords d).length = dataWordCount d.length
  | [] => rfl
  | [_] => by simp [packWords, dataWordCount]
  | [_, _] => by simp [packWords, dataWordCount]
  | [_, _, _] => by simp [packWords, dataWordCount]
  | _ :: _ :: _ :: _ :: rest => by simp [packWords, length_packWords rest, dataWordCount]; omega

/-- The count word N of a data operand that has an encoding (R71). -/
theorem toNat_countWord {d : List Byte} (h : dataFits d = true) : (BitVec.ofNat 32 d.length).toNat = d.length := by
  rw [BitVec.toNat_ofNat]
  exact Nat.mod_eq_of_lt (of_decide_eq_true h)

/-- The length of a command that starts with a command word, by R86. -/
theorem commandLength_commandWord (op : Op) (a : Byte) (k : BitVec 16) (ops : List Word) :
    commandLength (commandWord op a k :: ops) = 1 + (op.operandLength ops).getD 0 := by
  simp only [commandLength, fieldOpc_commandWord, Op.ofCode?_code]

/-- The operand words of an operation without data (R86). -/
theorem Op.operandLength_fixed {op : Op} (h : op.hasData = false) (ops : List Word) :
    op.operandLength ops = some op.fixedOperands := by
  simp [Op.operandLength, h]

/-- The operand words of an operation with data, from its count word alone (R86). -/
theorem Op.operandLength_data {op : Op} (h : op.hasData = true) {ops : List Word} {d : List Byte}
    (hd : dataFits d = true) (hn : ops[op.fixedOperands - 1]? = some (BitVec.ofNat 32 d.length)) :
    op.operandLength ops = some (op.fixedOperands + dataWordCount d.length) := by
  simp only [Op.operandLength, h, if_true, hn, Option.map_some, toNat_countWord hd]

namespace Laws.EncodedLength

/-- The number of words of a command, as R86 counts them. -/
def words : Instr → Nat
  | .acceptByte _ => 1
  | .tick => 1
  | .resetParser => 1
  | .cfgw _ _ => 2
  | .cfgr _ => 1
  | .cksum _ d => 2 + dataWordCount d.length
  | .send _ _ _ d => 4 + dataWordCount d.length
  | .query _ _ _ _ d => 5 + dataWordCount d.length
  | .respond _ _ _ d => 4 + dataWordCount d.length
  | .ladd _ _ => 3
  | .lrem _ => 1
  | .lrenew _ => 1
  | .lread _ => 1

/-- An encoding has the length R86 gives the command, and the end of a well-formed command is found from OPC and N
alone, whatever words follow it (R72, R86). -/
def Statement (i : Instr) : Prop :=
  (encode i).length = words i ∧ (i.wf = true → ∀ rest, commandLength (encode i ++ rest) = words i)

theorem acceptByte (b : Byte) : Statement (.acceptByte b) :=
  ⟨rfl, fun _ rest => by
    simp [encode, words, commandLength_commandWord, Op.operandLength_fixed (op := .acceptByte) rfl, Op.fixedOperands]⟩

theorem tick : Statement .tick :=
  ⟨rfl, fun _ rest => by
    simp [encode, words, commandLength_commandWord, Op.operandLength_fixed (op := .tick) rfl, Op.fixedOperands]⟩

theorem resetParser : Statement .resetParser :=
  ⟨rfl, fun _ rest => by
    simp [encode, words, commandLength_commandWord, Op.operandLength_fixed (op := .resetParser) rfl, Op.fixedOperands]⟩

theorem cfgw (r : Byte) (v : Word) : Statement (.cfgw r v) :=
  ⟨rfl, fun _ rest => by
    simp [encode, words, commandLength_commandWord, Op.operandLength_fixed (op := .cfgw) rfl, Op.fixedOperands]⟩

theorem cfgr (r : Byte) : Statement (.cfgr r) :=
  ⟨rfl, fun _ rest => by
    simp [encode, words, commandLength_commandWord, Op.operandLength_fixed (op := .cfgr) rfl, Op.fixedOperands]⟩

theorem cksum (sel : Byte) (d : List Byte) : Statement (.cksum sel d) :=
  ⟨by simp [encode, dataOperand, words, length_packWords]; omega, fun h rest => by
    simp only [encode, dataOperand, words, List.cons_append, commandLength_commandWord]
    rw [Op.operandLength_data (op := .cksum) rfl h rfl]
    simp [Op.fixedOperands]; omega⟩

theorem send (r : Bool) (f y : Word) (d : List Byte) : Statement (.send r f y d) :=
  ⟨by simp [encode, dataOperand, words, length_packWords]; omega, fun h rest => by
    simp only [encode, dataOperand, words, List.cons_append, commandLength_commandWord]
    rw [Op.operandLength_data (op := .send) rfl h rfl]
    simp [Op.fixedOperands]; omega⟩

theorem query (r : Bool) (f y : Word) (t : Option Word) (d : List Byte) : Statement (.query r f y t d) :=
  ⟨by simp [encode, dataOperand, words, length_packWords]; omega, fun h rest => by
    simp only [encode, dataOperand, words, List.cons_append, commandLength_commandWord]
    rw [Op.operandLength_data (op := .query) rfl h rfl]
    simp [Op.fixedOperands]; omega⟩

theorem respond (r : Bool) (f y : Word) (d : List Byte) : Statement (.respond r f y d) :=
  ⟨by simp [encode, dataOperand, words, length_packWords]; omega, fun h rest => by
    simp only [encode, dataOperand, words, List.cons_append, commandLength_commandWord]
    rw [Op.operandLength_data (op := .respond) rfl h rfl]
    simp [Op.fixedOperands]; omega⟩

theorem ladd (lid : Word) (t : Option Word) : Statement (.ladd lid t) :=
  ⟨rfl, fun _ rest => by
    simp [encode, words, commandLength_commandWord, Op.operandLength_fixed (op := .ladd) rfl, Op.fixedOperands]⟩

theorem lrem (k : BitVec 16) : Statement (.lrem k) :=
  ⟨rfl, fun _ rest => by
    simp [encode, words, commandLength_commandWord, Op.operandLength_fixed (op := .lrem) rfl, Op.fixedOperands]⟩

theorem lrenew (k : BitVec 16) : Statement (.lrenew k) :=
  ⟨rfl, fun _ rest => by
    simp [encode, words, commandLength_commandWord, Op.operandLength_fixed (op := .lrenew) rfl, Op.fixedOperands]⟩

theorem lread (k : BitVec 16) : Statement (.lread k) :=
  ⟨rfl, fun _ rest => by
    simp [encode, words, commandLength_commandWord, Op.operandLength_fixed (op := .lread) rfl, Op.fixedOperands]⟩

end Laws.EncodedLength

end Sys2Proof
end

