-- ==== Sys2Proof/Tests/Slice0.lean ====
section
/-! SUPPORT. Tests: words written out from the spec's encodings, one step of each command with results from
95_test_vectors.md, and a witness for the hypotheses of every statement that has some. -/

namespace Sys2Proof.Tests

open Sys2Proof Sys2Proof.Machine

/-! ## Helpers -/

/-- A field of the state a result leads to. -/
def after {α : Type} (r : Result) (f : State → α) : Option α :=
  match r with
  | .next t => some (f t)
  | .fault _ => none
  | .refused _ => none

/-- The last response of a state. -/
def lastResponse (s : State) : Option Response := s.output.getLast?

/-- The status and values of the last response. -/
def statusAndValues (s : State) : Option (Status × List Word) := (lastResponse s).map fun r => (r.status, r.values)

/-- The configuration of most rows of V2 and V3: widths 1, SOF 0x01, XOR. -/
def smallCfg : CfgRegs :=
  { CfgRegs.reset 0 with idSize := 1, lenSize := 1, typeSize := 1, sofByte := 0x01, sofEn := true, cksumSel := .xor }

/-- Widths 1, no SOF byte, no checksum. -/
def bareCfg : CfgRegs := { CfgRegs.reset 0 with idSize := 1, lenSize := 1, typeSize := 1 }

/-- RESET, then a configuration. -/
def withCfg (c : CfgRegs) : State := State.reset.setCfg c

/-- RESET with a number of slots and a slot file. -/
def withSlots (l : List Slot) : State :=
  (State.resetWith { defaultParams with nIdSlots := some l.length }).setSlots l

/-- A parser that latched widths 1 and a selector. -/
def small (sel : CksumSel) (p : PState) : Parser :=
  { Parser.reset with pstate := p, fIdSize := 1, fLenSize := 1, fTypeSize := 1, fCkSel := sel }

/-- A parser that latched widths 2 and a selector. -/
def wide (sel : CksumSel) (p : PState) : Parser :=
  { Parser.reset with pstate := p, fIdSize := 2, fLenSize := 2, fTypeSize := 2, fCkSel := sel }

/-! ## Decoding: words written out from R70 to R74 -/

/-- E16's W without its S: `ACCEPT_BYTE 0x01` is 0x0101 (95, Program 1). -/
theorem test_decode_acceptByte : decode [0x00000101#32, 7] = .instr (.acceptByte 0x01) [7] := by decide

theorem test_decode_tick : decode [0x00000002#32] = .instr .tick [] := by decide

theorem test_decode_resetParser : decode [0x00000003#32] = .instr .resetParser [] := by decide

/-- E5 (95, V5). -/
theorem test_decode_cfgw : decode [0x00000304#32, 0x000001AA#32] = .instr (.cfgw 0x03 0x1AA) [] := by decide

/-- E6 (95, V5). -/
theorem test_decode_cfgr : decode [0x00000305#32] = .instr (.cfgr 0x03) [] := by decide

/-- 95, V1: `CKSUM CRC32, [31 .. 39]`. -/
theorem test_decode_cksum :
    decode [0x00000406#32, 0x00000009#32, 0x31323334#32, 0x35363738#32, 0x39000000#32] =
      .instr (.cksum 4 [0x31, 0x32, 0x33, 0x34, 0x35, 0x36, 0x37, 0x38, 0x39]) [] := by decide

/-- 95, Program 2 line 7. -/
theorem test_decode_send :
    decode [0x00000010#32, 0x00000000#32, 0x00000010#32, 0x00000003#32, 0x10203000#32] =
      .instr (.send false 0 0x10 [0x10, 0x20, 0x30]) [] := by decide

/-- 95, Program 1 line 6. -/
theorem test_decode_query :
    decode [0x00000211#32, 0x00000000#32, 0x00000042#32, 0x00000003#32, 0x00000002#32, 0xDEAD0000#32] =
      .instr (.query false 0 0x42 (some 3) [0xDE, 0xAD]) [] := by decide

/-- 95, Program 5 line 5. -/
theorem test_decode_respond :
    decode [0x00000012#32, 0x00000009#32, 0x00000056#32, 0x00000001#32, 0x77000000#32] =
      .instr (.respond false 9 0x56 [0x77]) [] := by decide

/-- E17 (95, V5). -/
theorem test_decode_ladd : decode [0x00000220#32, 0x00000005#32, 0x00000000#32] = .instr (.ladd 5 (some 0)) [] := by
  decide

theorem test_decode_lrem : decode [0x00010021#32] = .instr (.lrem 1) [] := by decide

theorem test_decode_lrenew : decode [0x00050022#32] = .instr (.lrenew 5) [] := by decide

theorem test_decode_lread : decode [0x00020023#32] = .instr (.lread 2) [] := by decide

/-- E13 to E20, and the pad byte of 95, V1: refused, each by name. -/
theorem test_decode_illegal :
    decode [0x00000000#32] = .illegal .unassignedOpcode [] ∧
    decode [0x00000007#32] = .illegal .unassignedOpcode [] ∧
    decode [0x00000102#32] = .illegal .reservedBits [] ∧
    decode [0x00010001#32] = .illegal .reservedBits [] ∧
    decode [0x00000020#32, 5, 3] = .illegal .timeoutWithoutP [] ∧
    decode [0x00000121#32] = .illegal .reservedBits [] ∧
    decode [0x00000410#32, 0, 0, 0] = .illegal .reservedBits [] ∧
    decode [0x00000106#32, 1, 0x000000FF#32] = .illegal .padBytes [] := by decide

/-- A command is not decoded before its last word is there (R86). -/
theorem test_decode_waits : decode [0x00000406#32, 5, 0x31323334#32] = .incomplete := by decide

/-- The opcode-table reading of a row, with operand words of zeros, and its step right after reset. -/
theorem test_tableWord : decodeTableWord 32 0x10 = some (.send false 0 0 []) ∧
    after (step (State.reset.withFetchWord 32 0x00000B05)) statusAndValues = some (some (.ok, [4])) := by decide

/-! ## WellFormed -/

/-- A data operand of 2^32 bytes or more has no count word (R71). -/
theorem dataFits_replicate (n : Nat) : dataFits (List.replicate n 0) = decide (n < 2 ^ 32) := by
  rw [dataFits, List.length_replicate]

theorem test_wf_cksum : (Instr.cksum 0 (List.replicate (2 ^ 32) 0)).wf = false :=
  (dataFits_replicate _).trans (by decide)

theorem test_wf_send : (Instr.send false 0 0 (List.replicate (2 ^ 32) 0)).wf = false :=
  (dataFits_replicate _).trans (by decide)

theorem test_wf_query : (Instr.query false 0 0 none (List.replicate (2 ^ 32) 0)).wf = false :=
  (dataFits_replicate _).trans (by decide)

theorem test_wf_respond : (Instr.respond false 0 0 (List.replicate (2 ^ 32) 0)).wf = false :=
  (dataFits_replicate _).trans (by decide)

/-- The longest data operand that has one. -/
theorem test_wf_longest : (Instr.send false 0 0 (List.replicate (2 ^ 32 - 1) 0)).wf = true :=
  (dataFits_replicate _).trans (by decide)

/-! ## One step of each command, from 95_test_vectors.md -/

/-- R156's example: after `01 00 02 22` the byte 0xDF opens the payload, and 0xDE drops the frame. -/
theorem test_acceptByte_header :
    let s := (withCfg smallCfg).setParser { small .xor .headCksum with rxLen := 2, rxType := 0x22, hbuf := [0, 2, 0x22] }
    after (exec (.acceptByte 0xDF) s) (·.parser.pstate) = some .data ∧
    after (exec (.acceptByte 0xDE) s) (·.parser.pstate) = some .sof := by decide

/-- V3 P1, its last byte: the frame is dispatched with the slot that listens to ID 0. -/
theorem test_acceptByte_dispatch :
    let s := ((withCfg smallCfg).setParser { small .xor .dataCksum with
      rxLen := 2, rxType := 0x22, hbuf := [0, 2, 0x22], dbuf := [0xAA, 0xBB], dcount := 2 }).setSlots
        [listenSlot 0 none, Slot.free, Slot.free, Slot.free]
    after (exec (.acceptByte 0xEE) s) lastResponse = some (some { status := .ok, values := [], events := [.dispatch
      { frameId := 0, typ := 0x22, len := 2, data := [0xAA, 0xBB], isResponse := false, matchList := [0] }] }) := by
  decide

/-- V4 L5: countdown 2 becomes 1; the untimed slot stays. -/
theorem test_tick_counts :
    after (exec .tick (withSlots [listenSlot 0x80 (some 2), listenSlot 0x80 none])) (·.slots) =
      some [{ valid := true, id := 0x80, hasTo := true, countdown := 1, maxTo := 2 }, listenSlot 0x80 none] := by
  decide

/-- V4 L16: a slot registered with timeout 0 is removed on the first TICK. -/
theorem test_tick_expires :
    after (exec .tick (withSlots [listenSlot 7 (some 0), Slot.free])) (·.slots) = some [Slot.free, Slot.free] := by
  decide

/-- R160's example: after `01 00`, RESET_PARSER leaves SOF; the latched widths stay. -/
theorem test_resetParser :
    let s := (withCfg smallCfg).setParser { small .xor .len with hbuf := [0], ptCount := 3 }
    after (exec .resetParser s) (·.parser) = some { small .xor .sof with ptCount := 3 } := by decide

/-- E1 and E5 (95, V5). -/
theorem test_cfgw : after (exec (.cfgw 0 0) State.reset) statusAndValues = some (some (.badConfig, [])) ∧
    after (exec (.cfgw 3 0x1AA) State.reset) (fun s => (s.cfg.sofByte, s.cfg.sofEn)) = some (0xAA, true) := by decide

/-- E6 and E10 (95, V5). -/
theorem test_cfgr :
    after (exec (.cfgr 3) (State.reset.setCfg { CfgRegs.reset 0 with sofByte := 0xAA, sofEn := true }))
      statusAndValues = some (some (.ok, [0x1AA])) ∧
    after (exec (.cfgr 0x0C) State.reset) statusAndValues = some (some (.illegalCmd, [])) := by decide

/-- 95, V1, the row `[00 02 22]`. -/
theorem test_cksum :
    after (exec (.cksum 4 [0x00, 0x02, 0x22]) State.reset) statusAndValues = some (some (.ok, [0x1817FA74])) ∧
    after (exec (.cksum 3 [0x00, 0x02, 0x22]) State.reset) statusAndValues = some (some (.ok, [0x7981])) := by
  decide +kernel

/-- V2 S3. -/
theorem test_send_frame :
    after (exec (.send false 0 0x22 [0xAA, 0xBB]) (withCfg smallCfg)) lastResponse = some (some
      { status := .ok, values := [0],
        events := [.txClaim, .txChunk [0x01, 0x00, 0x02, 0x22, 0xDF, 0xAA, 0xBB, 0xEE], .txRelease] }) := by decide

/-- V2 S8 and the ID table: PEER = 1 stamps the top bit, and NEXT_ID 255 wraps to 0. -/
theorem test_send_wraps :
    let s := (withCfg { bareCfg with peer := 1 }).setNextId 255
    after (exec (.send false 0 0 []) s) (fun t => (statusAndValues t, t.nextId)) = some (some (.ok, [0xFF]), 0) := by
  decide

/-- 95, Program 1 line 6. -/
theorem test_query :
    after (exec (.query false 0 0x42 (some 3) [0xDE, 0xAD]) (withCfg { smallCfg with cksumSel := .crc16 }))
      (fun t => (lastResponse t, slotAt t.slots 0)) = some (some
        { status := .ok, values := [0, 0],
          events := [.txClaim, .txChunk [0x01, 0x00, 0x02, 0x42, 0x51, 0x81, 0xDE, 0xAD, 0x1D, 0x98], .txRelease] },
        { valid := true, id := 0, hasTo := true, countdown := 3, maxTo := 3 }) := by decide +kernel

/-- V2 S9: RESPOND keeps ID 5 at PEER = 1 and leaves NEXT_ID alone. -/
theorem test_respond :
    after (exec (.respond false 5 0x22 [0x01]) (withCfg { smallCfg with peer := 1 }))
      (fun t => (lastResponse t, t.nextId)) = some (some
        { status := .ok, values := [5],
          events := [.txClaim, .txChunk [0x01, 0x05, 0x01, 0x22, 0xD9, 0x01, 0xFE], .txRelease] }, 0) := by decide

/-- V4 L2 and L3. -/
theorem test_ladd :
    after (exec (.ladd 0x80 none) (withSlots [listenSlot 0x80 (some 2), Slot.free])) (·.slots) =
      some [listenSlot 0x80 (some 2),
            { valid := true, id := 0x80, hasTo := false, countdown := 0, maxTo := 0 }] ∧
    after (exec (.ladd 0x81 (some 1)) (withSlots [listenSlot 0x80 (some 2), listenSlot 0x80 none]))
      statusAndValues = some (some (.tableFull, [])) := by decide

/-- V4 L11 and L12. -/
theorem test_lrem :
    after (exec (.lrem 1) (withSlots [Slot.free, listenSlot 0x80 none])) (·.slots) = some [Slot.free, Slot.free] ∧
    after (exec (.lrem 1) (withSlots [Slot.free, Slot.free])) statusAndValues = some (some (.badSlot, [])) := by decide

/-- V4 L6. -/
theorem test_lrenew :
    after (exec (.lrenew 0) (withSlots
        [{ valid := true, id := 0x80, hasTo := true, countdown := 1, maxTo := 2 }, listenSlot 0x80 none])) (·.slots) =
      some [listenSlot 0x80 (some 2), listenSlot 0x80 none] := by decide

/-- V4 L4 and L14. -/
theorem test_lread :
    let s := withSlots [listenSlot 0x80 (some 2), listenSlot 0x80 none]
    after (exec (.lread 0) s) statusAndValues = some (some (.ok, [0x3, 0x80, 2, 2])) ∧
    after (exec (.lread 2) s) statusAndValues = some (some (.badSlot, [])) := by decide

/-- Log entry 15: a comma stands between two bytes only. -/
theorem test_assembler_commas :
    readLine "ACCEPTS [0x01, 0x02]".toList = some [.accepts [1, 2]] ∧
    readLine "ACCEPTS []".toList = some [.accepts []] ∧ readLine "ACCEPTS [0x01, ]".toList = none ∧
    readLine "ACCEPTS [, 0x01]".toList = none ∧ readLine "ACCEPTS [0x01 0x02]".toList = none := by decide +kernel

/-- Log entry 15: the R of `resp=R` is a number of one bit. -/
theorem test_assembler_resp :
    readLine "SEND id=0, type=1, resp=0x1, data=[]".toList = some [.send 0 1 (some true) []] ∧
    readLine "SEND id=0, type=1, resp=0, data=[]".toList = some [.send 0 1 (some false) []] ∧
    readLine "SEND id=0, type=1, resp=2, data=[]".toList = none := by decide +kernel

/-- R78: a line of the mnemonic syntax, with `resp=` left out, stands for the command of 95, Program 1 line 6. -/
theorem test_assembler :
    (readLine "QUERY id=0x0, type=0x42, timeout=3, data=[0xDE, 0xAD] ; Program 1".toList).map
        (fun ls => ls.flatMap AsmLine.expand) =
      some [.query false 0 0x42 (some 3) [0xDE, 0xAD]] := by decide +kernel

/-! ## Witnesses: for every statement with hypotheses, a state and operands that meet them, clause by clause -/

/-- A free slot has the invariant. -/
theorem slotFree_inv : Slot.free.Inv := ⟨fun _ => rfl, fun _ => ⟨rfl, rfl⟩, by decide, fun _ => rfl⟩

/-- A state with a legal configuration, a parser with the invariant and free slots has the invariant. -/
theorem inv_of {c : CfgRegs} {p : Parser} (hc : c.Legal) (hp : p.Inv) : ((withCfg c).setParser p).Inv :=
  ⟨hc, hp, fun n h => by cases h; rfl, fun sl h => by rw [List.eq_of_mem_replicate h]; exact slotFree_inv⟩

theorem resetCfg_legal : (CfgRegs.reset 0).Legal := ⟨by decide, by decide, by decide⟩

theorem smallCfg_legal : smallCfg.Legal := ⟨by decide, by decide, by decide⟩

theorem bareCfg_legal : bareCfg.Legal := ⟨by decide, by decide, by decide⟩

theorem resetParser_inv : Parser.reset.Inv := by constructor <;> decide

theorem reset_inv : State.reset.Inv := inv_of resetCfg_legal resetParser_inv

theorem reset_holdsFields : State.reset.parser.HoldsFields := ⟨by decide, by decide, by decide⟩

theorem default_oddPolys : OddPolys defaultCksumDefs := ⟨by decide, by decide, by decide⟩

theorem witness_DecodeOfEncodeIsTheCommand : (Instr.cksum 4 [1, 2, 3, 4, 5]).wf = true := by decide

theorem witness_DecodedWordsAreTheEncoding :
    ∃ ws i rest, decode ws = .instr i rest ∧ rest ≠ [] := ⟨[0x00000220#32, 5, 0, 9], .ladd 5 (some 0), [9], by decide⟩

/-- One word for the unassigned opcodes, and one whole command for each way of being illegal, at the edge of its
reserved field. -/
theorem witness_IllegalEncodingsReturnIllegalCmd : State.reset.resetIn = false ∧
    (∀ op : Op, op.code ≠ (0x00000007#32).extractLsb' 0 8) ∧
    (Op.code .send = (0x00000210#32).extractLsb' 0 8 ∧ Op.operandLength .send [0, 0, 0] = some 3 ∧
      IllegalFields .send 0x00000210 [0, 0, 0]) ∧
    (Op.code .tick = (0x80000002#32).extractLsb' 0 8 ∧ Op.operandLength .tick [] = some 0 ∧
      IllegalFields .tick 0x80000002 []) ∧
    (Op.code .query = (0x00000111#32).extractLsb' 0 8 ∧ Op.operandLength .query [0, 0, 1, 0] = some 4 ∧
      IllegalFields .query 0x00000111 [0, 0, 1, 0]) ∧
    (Op.code .ladd = (0x00000020#32).extractLsb' 0 8 ∧ Op.operandLength .ladd [5, 1] = some 2 ∧
      IllegalFields .ladd 0x00000020 [5, 1]) ∧
    (Op.code .cksum = (0x00000106#32).extractLsb' 0 8 ∧ Op.operandLength .cksum [1, 0x00FF0000] = some 2 ∧
      IllegalFields .cksum 0x00000106 [1, 0x00FF0000]) :=
  ⟨rfl, fun op => by cases op <;> decide,
   ⟨by decide, by decide, .reservedA 1 (by decide) (by decide)⟩,
   ⟨by decide, by decide, .reservedS (by decide) (by decide)⟩,
   ⟨by decide, by decide, .queryTimeout rfl (by decide) (by decide)⟩,
   ⟨by decide, by decide, .laddTimeout rfl (by decide) (by decide)⟩,
   ⟨by decide, by decide, .pad (by decide) 1 0xFF (by decide) (by decide) (by decide)⟩⟩

theorem witness_LegalEncodingsAreCommands : Op.code .cfgr = (0x00000B05#32).extractLsb' 0 8 ∧
    Op.operandLength .cfgr [] = some 0 ∧ ¬ IllegalFields .cfgr 0x00000B05 [] := by
  refine ⟨by decide, by decide, fun h => ?_⟩
  cases h with
  | reservedA j used set =>
    by_cases hj : j < 8
    · have : ∀ j < 8, (Op.maskA .cfgr).getLsbD j = true := by decide
      rw [this j hj] at used; exact absurd used (by decide)
    · rw [BitVec.getLsbD_of_ge _ _ (by omega)] at set; exact absurd set (by decide)
  | reservedS unused set => exact absurd set (by decide)
  | queryTimeout isOp => exact absurd isOp (by decide)
  | laddTimeout isOp => exact absurd isOp (by decide)
  | pad data => exact absurd data (by decide)

/-- The step runs the command placed before it. -/
theorem witness_StepRunsTheDecodedCommand :
    let s := State.reset.placeWords [0x00000004#32, 3]
    s.resetIn = false ∧ decode s.input = .instr (.cfgw 0 3) [] := by decide

theorem witness_StepWaitsForAWholeCommand :
    let s := State.reset.placeWords [0x00000004#32]
    s.resetIn = false ∧ decode s.input = .incomplete := by decide

theorem witness_EveryStepKeepsTheInvariant : ∃ s t : State, s.Inv ∧ step s = .next t :=
  ⟨State.reset, State.reset, reset_inv, rfl⟩

theorem witness_AccumulatorsHoldTheFieldsReceived :
    ∃ s t : State, s.Inv ∧ s.parser.HoldsFields ∧ step s = .next t :=
  ⟨State.reset, State.reset, reset_inv, reset_holdsFields, rfl⟩

theorem witness_NothingChangesTheParameters : ∃ s t : State, step s = .next t ∧ s.resetIn = true :=
  ⟨State.reset.assertReset, State.reset, rfl, rfl⟩

/-- One command for each of the four parts, at a state where it writes that part. -/
theorem witness_OnlyTheNamedCommandsWriteEachPart :
    (∃ s t, exec (.cfgw 0 3) s = .next t ∧ t.cfg ≠ s.cfg) ∧
    (∃ s t, exec (.send false 0 0 []) s = .next t ∧ t.nextId ≠ s.nextId) ∧
    (∃ s t, exec (.acceptByte 7) s = .next t ∧ t.parser ≠ s.parser) ∧
    (∃ s t, exec (.ladd 5 none) s = .next t ∧ t.slots ≠ s.slots) :=
  ⟨⟨State.reset, _, rfl, by decide⟩, ⟨State.reset, _, rfl, by decide⟩, ⟨State.reset, _, rfl, by decide⟩,
   ⟨State.reset, _, rfl, by decide⟩⟩

theorem witness_CksumReturnsTheChecksum : (4#8).toNat = CksumSel.code .crc32 ∧ 4 < (5#8).toNat := by decide

theorem witness_ReflectedCrcEqualsTheLsbFirstLoop :
    let k := defaultCrc8
    8 ≤ 8 ∧ k.refin = true ∧ k.refout = true ∧ k.init.reverse = k.init := by decide

theorem witness_OneChangedByteChangesTheChecksum :
    OddPolys defaultCksumDefs ∧ CksumSel.crc8 ≠ .nosum ∧ (0 : Byte) ≠ 1 := ⟨default_oddPolys, by decide, by decide⟩

theorem witness_FrameLengthFormula : (CfgRegs.reset 0).Legal ∧
    (bareCfg.sofEn = false ∧ bareCfg.idSize = 1 ∧ bareCfg.lenSize = 1 ∧ bareCfg.typeSize = 1 ∧
      bareCfg.cksumSel = .nosum) ∧
    (let c := CfgRegs.reset 0
     c.sofEn = false ∧ c.idSize = 4 ∧ c.lenSize = 4 ∧ c.typeSize = 4 ∧ c.cksumSel = .nosum) :=
  ⟨resetCfg_legal, by decide⟩

/-- A whole frame, an exact division, and a last piece of one byte. -/
theorem witness_ChunksCutTheFrameExactly : ([1, 2, 3] : List Byte) ≠ [] ∧
    chunks 0 [1, 2, 3] = [[1, 2, 3]] ∧ chunks 3 [1, 2, 3] = [[1, 2, 3]] ∧ chunks 2 [1, 2, 3] = [[1, 2], [3]] := by
  decide

/-- The longest payload of a one-byte LEN. -/
theorem witness_SendAllocatesStampsAndTransmits :
    smallCfg.Legal ∧ smallCfg.Fits (List.replicate 255 0) := ⟨smallCfg_legal, by unfold CfgRegs.Fits; decide +kernel⟩

theorem witness_ResponsesCarryTheRequestsId : smallCfg.Fits (List.replicate 255 0) := by unfold CfgRegs.Fits; decide +kernel

/-- The last slot of a bounded file, with every lower one valid; and the slot after the listed ones of an unbounded
file. -/
theorem witness_QueryListensAndTransmits :
    (smallCfg.Fits [1] ∧ ∃ (s : State) (k : Nat), s.cfg = smallCfg ∧ slotInRange s.params.nIdSlots k = true ∧
      (slotAt s.slots k).valid = false ∧ (∀ j < k, (slotAt s.slots j).valid = true) ∧ k = 1) ∧
    (∃ s : State, s.params.nIdSlots = none ∧ slotInRange s.params.nIdSlots 0 = true ∧
      (slotAt s.slots 0).valid = false) :=
  ⟨⟨by unfold CfgRegs.Fits; decide +kernel, (withSlots [listenSlot 5 none, Slot.free]).setCfg smallCfg, 1, by decide⟩,
   State.resetWith { defaultParams with nIdSlots := none }, by decide⟩

theorem witness_LenOverflowHasNoEffect :
    (∀ d, Transmits (.send false 0 7 d) 7 d ∧ Transmits (.query false 0 7 none d) 7 d ∧
      Transmits (.respond false 0 7 d) 7 d) ∧
    (List.replicate 256 (0 : Byte)).length > 2 ^ (8 * (withCfg smallCfg).cfg.lenSize.toNat) - 1 :=
  ⟨fun _ => ⟨.inl ⟨_, _, rfl⟩, .inr (.inl ⟨_, _, _, rfl⟩), .inr (.inr ⟨_, _, rfl⟩)⟩, by decide +kernel⟩

/-- A full file; a bounded one whose last slot is free, and an unbounded one, each with a command that completes. -/
theorem witness_TableFullExactlyWhenNoSlotIsFree :
    (∃ (s : State) (n : Nat), s.params.nIdSlots = some n ∧ (∀ k < n, (slotAt s.slots k).valid = true) ∧
      s.cfg.Fits [] ∧ n = 2) ∧
    (∃ (s t : State) (r : Response), slotInRange s.params.nIdSlots 1 = true ∧ s.params.nIdSlots = some 2 ∧
      (slotAt s.slots 1).valid = false ∧ exec (.ladd 5 none) s = .next t ∧ t.output = s.output ++ [r]) ∧
    (∃ (s t : State) (r : Response), s.params.nIdSlots = none ∧ exec (.ladd 5 none) s = .next t ∧
      t.output = s.output ++ [r]) :=
  ⟨⟨withSlots [listenSlot 5 none, listenSlot 6 none], 2, rfl, by decide, by unfold CfgRegs.Fits; decide +kernel, rfl⟩,
   ⟨withSlots [listenSlot 5 none, Slot.free], _, _, rfl, rfl, rfl, rfl, rfl⟩,
   ⟨State.resetWith { defaultParams with nIdSlots := none }, _, _, rfl, rfl, rfl⟩⟩

theorem witness_SerializerIgnoresTheParser :
    Transmits (.respond false 5 7 [1]) 7 [1] ∧ ∃ t, exec (.respond false 5 7 [1]) (withCfg smallCfg) = .next t :=
  ⟨.inr (.inr ⟨_, _, rfl⟩), _, rfl⟩

theorem witness_PeersNeverAllocateTheSameId :
    let a := withCfg bareCfg
    let b := withCfg { bareCfg with peer := 1 }
    a.cfg.Legal ∧ a.cfg.idSize = b.cfg.idSize ∧ a.cfg.peer = 0 ∧ b.cfg.peer = 1 ∧
    (∃ a' ra x, exec (.send false 0 0 []) a = .next a' ∧ a'.output = a.output ++ [ra] ∧ ra.values.head? = some x) ∧
    (∃ b' rb y, exec (.query false 0 0 none []) b = .next b' ∧ b'.output = b.output ++ [rb] ∧
      rb.values.head? = some y) ∧
    (∃ c rc z, exec (.respond false 0 7 []) b = .next c ∧ c.output = b.output ++ [rc] ∧ rc.values.head? = some z) ∧
    (∃ c rc z, exec (.respond false 0x80 7 []) a = .next c ∧ c.output = a.output ++ [rc] ∧
      rc.values.head? = some z) :=
  ⟨bareCfg_legal, rfl, rfl, rfl, ⟨_, _, _, rfl, rfl, rfl⟩, ⟨_, _, _, rfl, rfl, rfl⟩, ⟨_, _, _, rfl, rfl, rfl⟩,
   ⟨_, _, _, rfl, rfl, rfl⟩⟩

theorem witness_AcceptByteAlwaysCompletes : State.reset.params.payloadCap = none := rfl

/-- The first count that exceeds the timeout, the last that does not, a timeout that is off, and a parser in SOF with
the timeout exceeded. -/
theorem witness_StallDropsTheFrameAtTheNextByte :
    let at_ (timeout pt : Word) : State :=
      (withCfg { smallCfg with parserTimeout := timeout }).setParser
        { small .xor .typ with hbuf := [0, 2], ptCount := pt }
    ((at_ 2 3).cfg.parserTimeout ≠ 0 ∧ (at_ 2 3).parser.ptCount.toNat > (at_ 2 3).cfg.parserTimeout.toNat ∧
      (at_ 2 3).parser.pstate ≠ .sof) ∧
    (at_ 2 2).parser.ptCount.toNat ≤ (at_ 2 2).cfg.parserTimeout.toNat ∧ (at_ 0 1000).cfg.parserTimeout = 0 ∧
    (let s := (at_ 2 3).setParser { Parser.reset with ptCount := 3 }
     s.parser.ptCount.toNat > s.cfg.parserTimeout.toNat ∧ s.parser.pstate = .sof) := by
  decide

theorem witness_SofStateDiscardsOrBegins :
    (((withCfg smallCfg).setParser Parser.reset).Inv ∧ (withCfg smallCfg).parser.pstate = .sof ∧
      smallCfg.sofEn = true ∧ (0x55 : Byte) ≠ smallCfg.sofByte ∧ (0x01 : Byte) = smallCfg.sofByte) ∧
    (State.reset.Inv ∧ State.reset.parser.pstate = .sof ∧ State.reset.cfg.sofEn = false ∧ State.reset.cfg.idSize ≠ 1) ∧
    (((withCfg bareCfg).setParser Parser.reset).Inv ∧ (withCfg bareCfg).parser.pstate = .sof ∧
      bareCfg.sofEn = false ∧ bareCfg.idSize = 1) :=
  ⟨⟨inv_of smallCfg_legal resetParser_inv, by decide⟩, ⟨reset_inv, by decide⟩,
   ⟨inv_of bareCfg_legal resetParser_inv, by decide⟩⟩

theorem witness_HeaderFieldsAccumulateBigEndian :
    (∃ s : State, s.Inv ∧ s.parser.fpos = 0 ∧ s.parser.stalled s.cfg.parserTimeout = false ∧ s.parser.pstate = .id ∧
      s.parser.rxId = 0 ∧ ([0x12, 0x34] : List Byte).length = s.parser.fIdSize.toNat) ∧
    (∃ s : State, s.Inv ∧ s.parser.fpos = 0 ∧ s.parser.stalled s.cfg.parserTimeout = false ∧ s.parser.pstate = .len ∧
      s.parser.rxLen = 0 ∧ ([0x12, 0x34] : List Byte).length = s.parser.fLenSize.toNat) :=
  ⟨⟨(withCfg smallCfg).setParser (wide .xor .id), inv_of smallCfg_legal (by constructor <;> decide), by decide⟩,
   ⟨(withCfg smallCfg).setParser { wide .xor .len with hbuf := [1, 2] },
    inv_of smallCfg_legal (by constructor <;> decide), by decide⟩⟩

/-- The first byte of each two-byte field, which is the last before its last. -/
theorem witness_EarlierFieldBytesOnlyAccumulate :
    (∃ s : State, s.Inv ∧ s.parser.stalled s.cfg.parserTimeout = false ∧ s.parser.pstate = .id ∧
      s.parser.fpos.toNat + 1 < s.parser.fIdSize.toNat) ∧
    (∃ s : State, s.Inv ∧ s.parser.stalled s.cfg.parserTimeout = false ∧ s.parser.pstate = .len ∧
      s.parser.fpos.toNat + 1 < s.parser.fLenSize.toNat) ∧
    (∃ s : State, s.Inv ∧ s.parser.stalled s.cfg.parserTimeout = false ∧ s.parser.pstate = .typ ∧
      s.parser.fpos.toNat + 1 < s.parser.fTypeSize.toNat) ∧
    (∃ s : State, s.Inv ∧ s.parser.stalled s.cfg.parserTimeout = false ∧ s.parser.pstate = .headCksum ∧
      s.parser.fpos.toNat + 1 < cksize s.parser.fCkSel) ∧
    (∃ s : State, s.Inv ∧ s.parser.stalled s.cfg.parserTimeout = false ∧ s.parser.pstate = .dataCksum ∧
      s.parser.fpos.toNat + 1 < cksize s.parser.fCkSel) :=
  ⟨⟨(withCfg smallCfg).setParser (wide .xor .id), inv_of smallCfg_legal (by constructor <;> decide), by decide⟩,
   ⟨(withCfg smallCfg).setParser { wide .xor .len with hbuf := [1, 2] },
    inv_of smallCfg_legal (by constructor <;> decide), by decide⟩,
   ⟨(withCfg smallCfg).setParser { wide .xor .typ with hbuf := [1, 2, 3, 4] },
    inv_of smallCfg_legal (by constructor <;> decide), by decide⟩,
   ⟨(withCfg smallCfg).setParser { small .crc16 .headCksum with hbuf := [1, 2, 3] },
    inv_of smallCfg_legal (by constructor <;> decide), by decide⟩,
   ⟨(withCfg smallCfg).setParser
      { small .crc16 .dataCksum with hbuf := [1, 1, 3], rxLen := 1, dbuf := [9], dcount := 1 },
    inv_of smallCfg_legal (by constructor <;> decide), by decide⟩⟩

/-- The state before the last TYPE byte, with and without a checksum, of lengths 0 and 1. -/
theorem witness_LastTypeByteRoutesTheFrame :
    let at_ (sel : CksumSel) (len : Word) : State :=
      (withCfg smallCfg).setParser { small sel .typ with hbuf := [0, 1], rxLen := len }
    ∀ sel ∈ [CksumSel.xor, .nosum], ∀ len ∈ [(0 : Word), 1], (at_ sel len).Inv ∧
      (at_ sel len).params.payloadCap = none ∧ (at_ sel len).parser.pstate = .typ ∧
      (at_ sel len).parser.fpos.toNat + 1 = (at_ sel len).parser.fTypeSize.toNat ∧
      (at_ sel len).parser.stalled (at_ sel len).cfg.parserTimeout = false := by
  intro at_ sel hs len hl
  simp only [List.mem_cons, List.not_mem_nil, or_false] at hs hl
  rcases hs with rfl | rfl <;> rcases hl with rfl | rfl <;>
    exact ⟨inv_of smallCfg_legal (by constructor <;> decide), by decide⟩

/-- The state before the last byte of the header checksum, which a match and a mismatch both meet, for a frame of
length 0 and one of length 1. The checksum of `00 len 22` is 0xDD or 0xDC. -/
theorem witness_HeaderChecksumDecidesTheFrame :
    let at_ (len : Word) : State :=
      (withCfg smallCfg).setParser { small .xor .headCksum with hbuf := [0, len.setWidth 8, 0x22], rxLen := len }
    ∀ len ∈ [(0 : Word), 1], (at_ len).Inv ∧ (at_ len).params.payloadCap = none ∧
      (at_ len).parser.pstate = .headCksum ∧
      (at_ len).parser.fpos.toNat + 1 = cksize (at_ len).parser.fCkSel ∧
      (at_ len).parser.stalled (at_ len).cfg.parserTimeout = false ∧
      (ck (at_ len).params.cksumDefs (at_ len).parser.fCkSel (at_ len).parser.hbuf).toNat % 2 ^ 8 =
        0xDD - len.toNat := by
  intro at_ len hl
  simp only [List.mem_cons, List.not_mem_nil, or_false] at hl
  rcases hl with rfl | rfl <;> exact ⟨inv_of smallCfg_legal (by constructor <;> decide), by decide⟩

/-- One payload byte of two taken: the next is the last. With none taken, it is not. -/
theorem witness_PayloadBytesAreCollected :
    let at_ (sel : CksumSel) (taken : List Byte) : State :=
      (withCfg smallCfg).setParser { small sel .data with
        hbuf := [0, 2, 7], rxLen := 2, dbuf := taken, dcount := BitVec.ofNat 32 taken.length }
    ∀ sel ∈ [CksumSel.xor, .nosum], ∀ taken ∈ [[], [(9 : Byte)]], (at_ sel taken).Inv ∧
      (at_ sel taken).parser.pstate = .data ∧
      (at_ sel taken).parser.stalled (at_ sel taken).cfg.parserTimeout = false ∧
      (taken = [] → (at_ sel taken).parser.dbuf.length + 1 < (at_ sel taken).parser.rxLen.toNat) ∧
      (taken ≠ [] → (at_ sel taken).parser.dbuf.length + 1 = (at_ sel taken).parser.rxLen.toNat) := by
  intro at_ sel hs taken ht
  simp only [List.mem_cons, List.not_mem_nil, or_false] at hs ht
  rcases hs with rfl | rfl <;> rcases ht with rfl | rfl <;>
    exact ⟨inv_of smallCfg_legal (by constructor <;> decide), by decide⟩

/-- The state before the last byte of the payload checksum of `AA BB`, 0xEE. -/
theorem witness_PayloadChecksumDecidesTheFrame :
    let s := (withCfg smallCfg).setParser { small .xor .dataCksum with
      hbuf := [0, 2, 0x22], rxLen := 2, dbuf := [0xAA, 0xBB], dcount := 2 }
    s.Inv ∧ s.parser.pstate = .dataCksum ∧ s.parser.fpos.toNat + 1 = cksize s.parser.fCkSel ∧
      s.parser.stalled s.cfg.parserTimeout = false ∧
      (ck s.params.cksumDefs s.parser.fCkSel s.parser.dbuf).toNat % 2 ^ 8 = 0xEE :=
  ⟨inv_of smallCfg_legal (by constructor <;> decide), by decide⟩

theorem witness_ResetParserClearsOnlyTheParser : State.reset.Inv ∧ State.reset.parser.pstate = .sof :=
  ⟨reset_inv, rfl⟩

/-- The frame of V2 S3, fed to a freshly reset parser with the sender's configuration. -/
theorem witness_TransmittedFramesRoundTrip :
    let a := withCfg smallCfg
    let s := withCfg { smallCfg with chunkSize := 3, peer := 1 }
    a.cfg.Legal ∧ Transmits (.send false 0 0x22 [0xAA, 0xBB]) 0x22 [0xAA, 0xBB] ∧
    (∃ a' r, exec (.send false 0 0x22 [0xAA, 0xBB]) a = .next a' ∧ a'.output = a.output ++ [r] ∧ r.status = .ok ∧
      r.values.head? = some 0) ∧
    s.params.payloadCap = none ∧ s.params.cksumDefs = a.params.cksumDefs ∧ s.cfg.SameFraming a.cfg ∧
    s.parser.pstate = .sof :=
  ⟨smallCfg_legal, .inl ⟨_, _, rfl⟩, ⟨_, _, rfl, rfl, rfl, rfl⟩, rfl, rfl, ⟨rfl, rfl, rfl, rfl, rfl, rfl⟩, rfl⟩

/-- V3 P3: the header `00 02 22 DF`, its first byte and its last changed. -/
theorem witness_CorruptedHeadersAreDropped :
    let s := withCfg smallCfg
    s.cfg.Legal ∧ OddPolys s.params.cksumDefs ∧ s.cfg.cksumSel ≠ .nosum ∧ s.params.payloadCap = none ∧
    s.parser.pstate = .sof ∧ (0xDF : Byte) ≠ 0xDE ∧
    headerBytes s.cfg 0 0x22 2 ++ cksumField s.params.cksumDefs s.cfg.cksumSel (headerBytes s.cfg 0 0x22 2) =
      [0x00, 0x02, 0x22] ++ 0xDF :: [] ∧
    headerBytes s.cfg 0 0x22 2 ++ cksumField s.params.cksumDefs s.cfg.cksumSel (headerBytes s.cfg 0 0x22 2) =
      [] ++ 0x00 :: [0x02, 0x22, 0xDF] :=
  ⟨smallCfg_legal, default_oddPolys, by decide⟩

/-- V3 P4: the payload part `AA BB EE`, its last byte and its first changed. -/
theorem witness_CorruptedPayloadsAreDropped :
    let s := withCfg smallCfg
    s.cfg.Legal ∧ OddPolys s.params.cksumDefs ∧ s.cfg.cksumSel ≠ .nosum ∧ s.params.payloadCap = none ∧
    s.parser.pstate = .sof ∧ ([0xAA, 0xBB] : List Byte) ≠ [] ∧ s.cfg.Fits [0xAA, 0xBB] ∧ (0xEE : Byte) ≠ 0xEF ∧
    frameTail s.params.cksumDefs s.cfg [0xAA, 0xBB] = [0xAA, 0xBB] ++ 0xEE :: [] ∧
    frameTail s.params.cksumDefs s.cfg [0xAA, 0xBB] = [] ++ 0xAA :: [0xBB, 0xEE] :=
  ⟨smallCfg_legal, default_oddPolys, by decide, rfl, rfl, by decide, by unfold CfgRegs.Fits; decide +kernel, by decide, by decide,
   by decide⟩

theorem witness_FramesInFlightIgnoreReconfiguration :
    let s := (withCfg smallCfg).setParser { small .xor .typ with hbuf := [0, 2], rxLen := 2 }
    s.parser.pstate ≠ .sof ∧ s.parser.stalled s.cfg.parserTimeout = false ∧
    (CfgRegs.reset 0).parserTimeout = s.cfg.parserTimeout ∧ ∃ t, exec (.acceptByte 0x22) s = .next t :=
  ⟨by decide, by decide, rfl, _, rfl⟩

/-- Three commands, cut inside the second, with no step after the first piece and one too many after the second. -/
theorem witness_TransportGroupingHasNoEffect :
    let is := [Instr.acceptByte 7, .cfgw 0 3, .acceptByte 8]
    let ps := [([0x00000701#32, 0x00000004#32], 0), ([3, 0x00000801#32], 4)]
    State.reset.resetIn = false ∧ State.reset.input = [] ∧ (∀ i ∈ is, i.wf = true) ∧
      ps.flatMap Prod.fst = commandStream is := ⟨rfl, rfl, by simp [Instr.wf], by decide⟩

/-- A build that holds two payload bytes, and a frame that declares three: without checksum, and with the header
checksum of `00 03 22`, 0xDE, about to match. -/
theorem witness_OnlyAFinitePayloadBufferRefuses :
    let at_ (p : Parser) : State := { State.resetWith { defaultParams with payloadCap := some 2 } with parser := p }
    let s := at_ { small .nosum .typ with hbuf := [0, 3], rxLen := 3 }
    let t := at_ { small .xor .headCksum with hbuf := [0, 3, 0x22], rxLen := 3 }
    (s.params.payloadCap = some 2 ∧ s.parser.pstate = .typ ∧ s.parser.fpos.toNat + 1 = s.parser.fTypeSize.toNat ∧
      s.parser.fCkSel = .nosum ∧ 2 < s.parser.rxLen.toNat ∧ s.parser.stalled s.cfg.parserTimeout = false) ∧
    (t.params.payloadCap = some 2 ∧ t.parser.pstate = .headCksum ∧
      t.parser.fpos.toNat + 1 = cksize t.parser.fCkSel ∧ 2 < t.parser.rxLen.toNat ∧
      t.parser.stalled t.cfg.parserTimeout = false ∧
      ((t.parser.rxCk <<< 8) ||| (0xDE : Byte).setWidth 32).toNat =
        (ck t.params.cksumDefs t.parser.fCkSel t.parser.hbuf).toNat % 2 ^ (8 * cksize t.parser.fCkSel)) := by decide

theorem witness_LaddFillsTheLowestFreeSlot :
    let s := withSlots [listenSlot 5 none, Slot.free]
    slotInRange s.params.nIdSlots 1 = true ∧ (slotAt s.slots 1).valid = false ∧
    ∀ j < 1, (slotAt s.slots j).valid = true := by decide

/-- The last slot of the file, timed and untimed. -/
theorem witness_LremFreesAndLrenewReloads :
    ∀ o : Option Word, let s := withSlots [Slot.free, listenSlot 5 o]
      slotInRange s.params.nIdSlots (1#16).toNat = true ∧ (slotAt s.slots (1#16).toNat).valid = true ∧
      (slotAt s.slots (1#16).toNat).hasTo = o.isSome := fun _ => ⟨rfl, rfl, rfl⟩

theorem witness_LreadReturnsTheSlot : slotInRange State.reset.params.nIdSlots (3#16).toNat = true ∧
    State.reset.Inv ∧ (slotAt State.reset.slots (3#16).toNat).valid = false := ⟨by decide, reset_inv, by decide⟩

/-- The first slot out of range, and the last in range, free. -/
theorem witness_BadSlotHasNoEffect :
    (∃ n, State.reset.params.nIdSlots = some n ∧ n ≤ (4#16).toNat) ∧
    (slotAt State.reset.slots (3#16).toNat).valid = false := ⟨⟨4, rfl, by decide⟩, by decide⟩

/-- Countdowns 0, 1 and 2, an untimed slot and a free one. -/
theorem witness_TickAgesEverySlot :
    let s := withSlots [listenSlot 5 (some 0), listenSlot 5 (some 1), listenSlot 5 (some 2), listenSlot 5 none, Slot.free]
    (∀ k ∈ [0, 1], (slotAt s.slots k).valid = true ∧ (slotAt s.slots k).hasTo = true ∧
      (slotAt s.slots k).countdown.toNat ≤ 1) ∧
    ((slotAt s.slots 2).valid = true ∧ (slotAt s.slots 2).hasTo = true ∧ 1 < (slotAt s.slots 2).countdown.toNat) ∧
    (slotAt s.slots 3).hasTo = false ∧ (slotAt s.slots 4).valid = false := by decide

/-- T = 2: one tick is too few, two are enough; T = 0: none is too few, one is enough. -/
theorem witness_ListenersExpireAfterTheirTicks :
    let s := withSlots [listenSlot 5 (some 2), listenSlot 5 (some 0)]
    (∀ k ∈ [0, 1], (slotAt s.slots k).valid = true ∧ (slotAt s.slots k).hasTo = true) ∧
    1 < max 1 (slotAt s.slots 0).countdown.toNat ∧ max 1 (slotAt s.slots 0).countdown.toNat ≤ 2 ∧
    0 < max 1 (slotAt s.slots 1).countdown.toNat ∧ max 1 (slotAt s.slots 1).countdown.toNat ≤ 1 := by decide

theorem witness_DispatchListsTheMatchingSlots :
    let s := (withCfg smallCfg).setParser { small .xor .dataCksum with
      hbuf := [0, 2, 0x22], rxLen := 2, rxType := 0x22, dbuf := [0xAA, 0xBB], dcount := 2 }
    s.Inv ∧ ∃ t r d, exec (.acceptByte 0xEE) s = .next t ∧ t.output = s.output ++ [r] ∧ .dispatch d ∈ r.events :=
  ⟨inv_of smallCfg_legal (by constructor <;> decide), _, _, _, rfl, rfl, .head _⟩

/-- A slot that leaves by LREM, one that expires, and one that RESET frees. -/
theorem witness_SlotsLeaveOnlyByRemovalExpiryOrReset :
    (∃ s t, step s = .next t ∧ s.input = [0x00000021#32] ∧ (slotAt s.slots 0).valid = true ∧
      (slotAt t.slots 0).valid = false) ∧
    (∃ s t, step s = .next t ∧ s.input = [0x00000002#32] ∧ (slotAt s.slots 0).valid = true ∧
      (slotAt t.slots 0).valid = false) ∧
    (∃ s t, step s = .next t ∧ s.resetIn = true ∧ (slotAt s.slots 0).valid = true ∧
      (slotAt t.slots 0).valid = false) :=
  ⟨⟨(withSlots [listenSlot 5 none]).placeWords [0x00000021#32], _, rfl, by decide⟩,
   ⟨(withSlots [listenSlot 5 (some 1)]).placeWords [0x00000002#32], _, rfl, by decide⟩,
   ⟨(withSlots [listenSlot 5 none]).assertReset, _, rfl, by decide⟩⟩

/-- The largest legal value of each register that has one. -/
theorem witness_CfgwWritesOneRegister :
    ∀ p ∈ [(CfgReg.idSize, (4 : Word)), (.lenSize, 4), (.typeSize, 1), (.sofCtrl, 0x1FF), (.cksumSel, 4),
           (.chunkSize, 0xFFFFFFFF), (.parserTimeout, 0xFFFFFFFF), (.peer, 1)],
      p.1.writable = true ∧ p.1.legal p.2 = true := by decide

/-- The smallest value outside each legal set, and 0 for a width. -/
theorem witness_BadConfigHasNoEffect :
    ((2#8).toNat ≤ 2 ∧ (0#32).toNat < 1 ∧ 4 < (5#32).toNat) ∧ ((3#8).toNat = 3 ∧ 2 ^ 9 ≤ (0x200#32).toNat) ∧
    ((4#8).toNat = 4 ∧ 4 < (5#32).toNat) ∧ ((7#8).toNat = 7 ∧ 1 < (2#32).toNat) ∧ 4 < (5#8).toNat := by decide

theorem witness_CfgrReturnsTheRegister : (0x0B#8).toNat ≤ 0x0B ∧
    State.reset.params.nIdSlots = some 4 ∧
    (State.resetWith { defaultParams with nIdSlots := none }).params.nIdSlots = none := by decide

theorem witness_IllegalRegistersHaveNoEffect : 7 < (0x08#8).toNat ∧ 0x0B < (0x0C#8).toNat := by decide

/-- A command that ends with an error, one that ends with `OK`, and an illegal encoding. -/
theorem witness_FailedCommandsHaveNoEffect :
    (let s := State.reset.placeWords [0x00000102#32]
     s.resetIn = false ∧ decode s.input ≠ .incomplete ∧
      after (step s) statusAndValues = some (some (.illegalCmd, []))) ∧
    (∃ t, exec (.lrem 0) State.reset = .next t ∧ statusAndValues t = some (.badSlot, [])) ∧
    (∃ t, exec .tick State.reset = .next t ∧ statusAndValues t = some (.ok, [])) :=
  ⟨by decide, ⟨_, rfl, by decide⟩, ⟨_, rfl, by decide⟩⟩

/-- A command that returns each status. -/
theorem witness_EachCommandReturnsItsOwnStatuses :
    ∀ p ∈ [(Instr.cfgw 0 0, withSlots [], Status.badConfig), (.cksum 5 [], withSlots [], .badConfig),
           (.send false 0 0 (List.replicate 256 0), withCfg smallCfg, .lenOverflow),
           (.ladd 5 none, withSlots [], .tableFull), (.lread 0, withSlots [], .badSlot),
           (.cfgr 0xFF, withSlots [], .illegalCmd), (.tick, withSlots [], .ok)],
      after (exec p.1 p.2.1) (fun t => t.output.map Response.status) = some [p.2.2] := by decide +kernel

theorem witness_EventsOfEachCommand :
    (Transmits (.respond false 5 7 [1]) 7 [1] ∧
      after (exec (.respond false 5 7 [1]) State.reset) statusAndValues = some (some (.ok, [5]))) ∧
    ((∀ y d, ¬ Transmits .tick y d) ∧ (∀ b, Instr.tick ≠ .acceptByte b) ∧
      after (exec .tick State.reset) statusAndValues = some (some (.ok, []))) ∧
    after (exec (.acceptByte 7) State.reset) statusAndValues = some (some (.ok, [])) :=
  ⟨⟨.inr (.inr ⟨_, _, rfl⟩), by decide⟩, ⟨by simp [Transmits], by simp, by decide⟩, by decide⟩

theorem witness_ReadCommandsHaveNoSideEffects : ∃ a, Instr.cfgr 3 = .cfgr a := ⟨3, rfl⟩

theorem witness_HostForwardsChunksAndFansOut : ([[1], [2]] : List (List Byte)) ≠ [] := by decide

end Sys2Proof.Tests
end

section
/-! PROOFS. State and reset (10_state.md, R280 of 70_reset_and_hazards.md): what a command and a step can do to the
state, said once, and from it the parameters, the parts each command writes, the invariant and the field accumulators. -/

namespace Sys2Proof.Machine

/-! ## What a command and a step can do -/

/-- The state a command leaves, its response set aside: one constructor per write a command can make. `none`, open to
every command, stands for the errors (R246) and for the commands that only read. -/
inductive Effect (s : State) : Instr → State → Prop
  | none (i : Instr) : Effect s i s
  | acceptByte (b : Byte) (p : Parser) (evs : List Event)
      (parsed : parserStep s.params s.cfg s.slots b (s.parser.arrive s.cfg.parserTimeout) = .ok p evs) :
      Effect s (.acceptByte b) (s.setParser p)
  | tick : Effect s .tick ((s.setParser s.parser.countTick).setSlots (s.slots.map Slot.age))
  | resetParser : Effect s .resetParser (s.setParser s.parser.clear)
  | cfgw (r : Byte) (v : Word) (g : CfgReg) (legal : g.legal v = true) :
      Effect s (.cfgw r v) (s.setCfg (s.cfg.write g v))
  | allocate (f y : Word) (d : List Byte) : Effect s (.send false f y d) (s.setNextId (nextIdAfter false s))
  | query (r : Bool) (f y : Word) (o : Option Word) (d : List Byte) (k : Nat)
      (lowest : freeSlot? s.params.nIdSlots s.slots = some k) :
      Effect s (.query r f y o d)
        ((s.setNextId (nextIdAfter r s)).setSlots (putSlot s.slots k (listenSlot (frameIdOf r f s) o)))
  | ladd (l : Word) (o : Option Word) (k : Nat) (lowest : freeSlot? s.params.nIdSlots s.slots = some k) :
      Effect s (.ladd l o) (s.setSlots (putSlot s.slots k (listenSlot l o)))
  | lrem (k : BitVec 16) (live : liveSlot s k.toNat = true) :
      Effect s (.lrem k) (s.setSlots (putSlot s.slots k.toNat Slot.free))
  | lrenew (k : BitVec 16) (live : liveSlot s k.toNat = true) :
      Effect s (.lrenew k) (s.setSlots (putSlot s.slots k.toNat (slotAt s.slots k.toNat).renew))

/-- A response leaves NEXT_ID alone (R120). -/
@[simp] theorem nextIdAfter_true (s : State) : nextIdAfter true s = s.nextId := rfl

/-- What SEND and RESPOND do beside their response: an allocation is the only write. -/
theorem sendFrame_effect {resp : Bool} {fid typ : Word} {d : List Byte} {s t : State} {i : Instr}
    (hi : resp = false → i = .send false fid typ d) (h : sendFrame resp fid typ d s = .next t) :
    ∃ u, Effect s i u ∧ ∃ st vals evs, t = u.reply st vals evs := by
  rcases sendFrame_eq_next.1 h with ⟨-, rfl⟩ | ⟨-, rfl⟩
  · exact ⟨s, .none i, _, _, _, rfl⟩
  · cases resp with
    | false => exact ⟨_, hi rfl ▸ .allocate fid typ d, _, _, _, rfl⟩
    | true => exact ⟨s, .none i, _, _, _, by rw [nextIdAfter_true, State.setNextId_self]⟩

/-- A command that goes on leaves its effect, with one response handed back. -/
theorem exec_effect {i : Instr} {s t : State} (h : exec i s = .next t) :
    ∃ u, Effect s i u ∧ ∃ st vals evs, t = u.reply st vals evs := by
  cases i with
  | acceptByte b =>
    obtain ⟨p, evs, hp, rfl⟩ := execAcceptByte_eq_next.1 h
    exact ⟨_, .acceptByte b p evs hp, _, _, _, rfl⟩
  | tick => exact ⟨_, .tick, _, _, _, execTick_eq_next.1 h⟩
  | resetParser => exact ⟨_, .resetParser, _, _, _, execResetParser_eq_next.1 h⟩
  | cfgw r v =>
    rcases execCfgw_eq_next.1 h with ⟨-, rfl⟩ | ⟨g, -, -, rfl⟩ | ⟨g, -, -, -, rfl⟩ | ⟨g, -, -, hl, rfl⟩
    · exact ⟨s, .none _, _, _, _, rfl⟩
    · exact ⟨s, .none _, _, _, _, rfl⟩
    · exact ⟨s, .none _, _, _, _, rfl⟩
    · exact ⟨_, .cfgw r v g hl, _, _, _, rfl⟩
  | cfgr r =>
    rcases execCfgr_eq_next.1 h with ⟨-, rfl⟩ | ⟨g, -, rfl⟩ <;> exact ⟨s, .none _, _, _, _, rfl⟩
  | cksum c d =>
    rcases execCksum_eq_next.1 h with ⟨-, rfl⟩ | ⟨c, -, rfl⟩ <;> exact ⟨s, .none _, _, _, _, rfl⟩
  | send r f y d => exact sendFrame_effect (fun hr => by rw [hr]) h
  | query r f y o d =>
    rcases execQuery_eq_next.1 h with ⟨-, rfl⟩ | ⟨-, -, rfl⟩ | ⟨k, -, hk, rfl⟩
    · exact ⟨s, .none _, _, _, _, rfl⟩
    · exact ⟨s, .none _, _, _, _, rfl⟩
    · exact ⟨_, .query r f y o d k hk, _, _, _, rfl⟩
  | respond r f y d => exact sendFrame_effect (by simp) h
  | ladd l o =>
    rcases execLadd_eq_next.1 h with ⟨-, rfl⟩ | ⟨k, hk, rfl⟩
    · exact ⟨s, .none _, _, _, _, rfl⟩
    · exact ⟨_, .ladd l o k hk, _, _, _, rfl⟩
  | lrem k =>
    rcases execLrem_eq_next.1 h with ⟨-, rfl⟩ | ⟨hk, rfl⟩
    · exact ⟨s, .none _, _, _, _, rfl⟩
    · exact ⟨_, .lrem k hk, _, _, _, rfl⟩
  | lrenew k =>
    rcases execLrenew_eq_next.1 h with ⟨-, rfl⟩ | ⟨hk, rfl⟩
    · exact ⟨s, .none _, _, _, _, rfl⟩
    · exact ⟨_, .lrenew k hk, _, _, _, rfl⟩
  | lread k =>
    rcases execLread_eq_next.1 h with ⟨-, rfl⟩ | ⟨-, rfl⟩ <;> exact ⟨s, .none _, _, _, _, rfl⟩

/-- A step performs RESET, waits, rejects an illegal encoding, or runs a command, each with the words it took gone. -/
theorem step_cases {s t : State} (h : step s = .next t) :
    t = s.hwReset ∨ t = s ∨ (∃ rest, t = (s.setInput rest).reply .illegalCmd [] []) ∨
      ∃ i rest, exec i (s.setInput rest) = .next t := by
  unfold step at h
  split at h
  · cases h; exact .inl rfl
  · split at h
    · cases h; exact .inr (.inl rfl)
    · next rest _ => exact .inr (.inr (.inl ⟨rest, raise_eq_next.1 h⟩))
    · next i rest _ => exact .inr (.inr (.inr ⟨i, rest, h⟩))

/-- A property of states that RESET, the two word ports and every effect of a command keep is kept by every step. -/
theorem step_keeps {P : State → Prop} {s t : State} (reset : ∀ s, P s → P s.hwReset)
    (setInput : ∀ s rest, P s → P (s.setInput rest)) (reply : ∀ s st vals evs, P s → P (s.reply st vals evs))
    (effect : ∀ s i u, P s → Effect s i u → P u) (hs : P s) (h : step s = .next t) : P t := by
  rcases step_cases h with rfl | rfl | ⟨rest, rfl⟩ | ⟨i, rest, hi⟩
  · exact reset s hs
  · exact hs
  · exact reply _ _ _ _ (setInput s rest hs)
  · obtain ⟨u, hu, st, vals, evs, rfl⟩ := exec_effect hi
    exact reply _ _ _ _ (effect _ i u (setInput s rest hs) hu)

/-! ## Parameters and frames -/

/-- No effect of a command is on the parameters (R36). -/
theorem Effect.params {s u : State} {i : Instr} (h : Effect s i u) : u.params = s.params := by
  cases h <;> rfl

/-- Settles O12: RESET, the ports and every effect of a command keep `params`. -/
theorem nothingChangesTheParameters : Obligations.NothingChangesTheParameters := by
  intro s t h
  exact step_keeps (P := fun u => u.params = s.params) (fun _ hu => hu) (fun _ _ hu => hu) (fun _ _ _ _ hu => hu)
    (fun _ _ _ hu he => he.params.trans hu) rfl h

/-- Settles O13: each effect names the command that has it and the part it writes. -/
theorem onlyTheNamedCommandsWriteEachPart : Obligations.OnlyTheNamedCommandsWriteEachPart := by
  intro i s t h
  obtain ⟨u, hu, st, vals, evs, rfl⟩ := exec_effect h
  cases hu with
  | query r f y o d k hk => cases r <;> simp
  | _ => simp [Parser.countTick]

/-! ## Reconfiguration in mid-frame (R280) -/

/-- Outside SOF the parser reads nothing of the configuration (R29, R223). -/
theorem parserStep_cfg_irrelevant {p : Parser} (h : p.pstate ≠ .sof) (prm : Params) (c c' : CfgRegs)
    (slots : List Slot) (b : Byte) : parserStep prm c slots b p = parserStep prm c' slots b p := by
  unfold parserStep
  cases hp : p.pstate with
  | sof => exact absurd hp h
  | _ => rfl

/-- Settles O41: PARSER_TIMEOUT apart, the parser in mid-frame reads nothing of the configuration. -/
theorem framesInFlightIgnoreReconfiguration : Obligations.FramesInFlightIgnoreReconfiguration := by
  intro s t b c hp hst hto h
  obtain ⟨p, evs, hstep, rfl⟩ := execAcceptByte_eq_next.1 h
  refine execAcceptByte_eq_next.2 ⟨p, evs, ?_, rfl⟩
  have hp' : (s.parser.arrive s.cfg.parserTimeout).pstate ≠ .sof := by
    rwa [Parser.arrive_of_not_stalled hst]
  simpa [hto] using (parserStep_cfg_irrelevant hp' _ c s.cfg _ b).trans hstep

/-! ## The slots' invariant -/

theorem Slot.free_inv : Slot.free.Inv := ⟨fun _ => rfl, fun _ => ⟨rfl, rfl⟩, Nat.le_refl _, fun _ => rfl⟩

/-- LISTEN fills a slot consistently (R193). -/
theorem listenSlot_inv (id : Word) (o : Option Word) : (listenSlot id o).Inv where
  free h := by simp [listenSlot] at h
  untimed h := by cases o with
    | none => exact ⟨rfl, rfl⟩
    | some t => simp [listenSlot] at h
  bounded := Nat.le_refl _
  live h := h

/-- Renewing a slot keeps its fields consistent (R192). -/
theorem Slot.Inv.renew {sl : Slot} (h : sl.Inv) : sl.renew.Inv := by
  unfold Slot.renew
  split
  · next ht =>
    refine ⟨fun hv => ?_, fun hn => absurd ht (by simp [show sl.hasTo = false from hn]), Nat.le_refl _, fun hc => hc⟩
    rw [h.free hv] at ht
    exact absurd ht (by decide)
  · exact h

/-- A tick keeps a slot's fields consistent (R196): a count of 2 or more comes to no zero. -/
theorem Slot.Inv.age {sl : Slot} (h : sl.Inv) : sl.age.Inv := by
  unfold Slot.age
  split
  · next ht =>
    obtain ⟨hv, ht⟩ := Bool.and_eq_true_iff.1 ht
    split
    · exact Slot.free_inv
    · next hc =>
      have hb := h.bounded
      have hdec : (sl.countdown - 1).toNat = sl.countdown.toNat - 1 := by bv_omega
      exact {
        free := fun hn => absurd hv (by simp [show sl.valid = false from hn])
        untimed := fun hn => absurd ht (by simp [show sl.hasTo = false from hn])
        bounded := by show (sl.countdown - 1).toNat ≤ sl.maxTo.toNat; omega
        live := fun hz => by
          have hz' : (sl.countdown - 1).toNat = 0 := congrArg BitVec.toNat hz
          omega }
  · exact h

/-- Every slot of a consistent file reads as consistent, listed or not. -/
theorem slotAt_inv {slots : List Slot} (h : ∀ sl ∈ slots, sl.Inv) (k : Nat) : (slotAt slots k).Inv := by
  rcases Nat.lt_or_ge k slots.length with hk | hk
  · rw [slotAt_of_lt hk]; exact h _ (List.getElem_mem hk)
  · rw [slotAt_of_le hk]; exact Slot.free_inv

/-! ## The invariant under the named updates -/

section
variable {s : State} (h : s.Inv)
include h

theorem State.Inv.setInput (ws : List Word) : (s.setInput ws).Inv := ⟨h.cfg, h.parser, h.count, h.slots⟩

theorem State.Inv.reply (st : Status) (vals : List Word) (evs : List Event) : (s.reply st vals evs).Inv :=
  ⟨h.cfg, h.parser, h.count, h.slots⟩

theorem State.Inv.setNextId (v : Word) : (s.setNextId v).Inv := ⟨h.cfg, h.parser, h.count, h.slots⟩

theorem State.Inv.setParser {p : Parser} (hp : p.Inv) : (s.setParser p).Inv := ⟨h.cfg, hp, h.count, h.slots⟩

theorem State.Inv.setCfg {c : CfgRegs} (hc : c.Legal) : (s.setCfg c).Inv := ⟨hc, h.parser, h.count, h.slots⟩

/-- A tick of every slot keeps the file consistent. -/
theorem State.Inv.ageSlots : (s.setSlots (s.slots.map Slot.age)).Inv where
  cfg := h.cfg
  parser := h.parser
  count n hn := by simpa using h.count n hn
  slots sl hsl := by
    obtain ⟨sl', hmem, rfl⟩ := List.mem_map.1 hsl
    exact (h.slots sl' hmem).age

/-- Writing a consistent slot in range keeps the file consistent, and a bounded one at its size. -/
theorem State.Inv.putSlot {k : Nat} {v : Slot} (hk : slotInRange s.params.nIdSlots k = true) (hv : v.Inv) :
    (s.setSlots (putSlot s.slots k v)).Inv where
  cfg := h.cfg
  parser := h.parser
  count n hn := by
    have hlen : s.slots.length = n := h.count n hn
    have hn' : s.params.nIdSlots = some n := hn
    have hkn : k < n := by simpa [hn', slotInRange] using hk
    simp [length_putSlot, hlen, hkn]
  slots sl hsl := by
    rcases mem_putSlot hsl with rfl | hsl
    · exact hv
    · exact h.slots sl hsl

end

/-- A legal value leaves the configuration legal (R220, R221). -/
theorem CfgRegs.Legal.write {c : CfgRegs} (h : c.Legal) {g : CfgReg} {v : Word} (hl : g.legal v = true) :
    (c.write g v).Legal := by
  cases g with
  | idSize => exact ⟨of_decide_eq_true hl, h.lenSize, h.typeSize⟩
  | lenSize => exact ⟨h.idSize, of_decide_eq_true hl, h.typeSize⟩
  | typeSize => exact ⟨h.idSize, h.lenSize, of_decide_eq_true hl⟩
  | _ => exact ⟨h.idSize, h.lenSize, h.typeSize⟩

end Sys2Proof.Machine
end

section
/-! PROOFS. The parser's invariant (R37) and its field accumulators (R25): what one byte can do to the parser, said
once, and both kept by each such move; then the obligations about every step. -/

namespace Sys2Proof.Machine

/-! ## What one byte can do -/

/-- What one byte can make of the parser, one constructor per way through R152 to R159. A dispatch and a drop both leave
it cleared. -/
inductive Parser.Move (c : CfgRegs) (b : Byte) (p : Parser) : Parser → Prop
  | idle (at_ : p.pstate = .sof) : Move c b p p
  | start (at_ : p.pstate = .sof) : Move c b p (p.beginFrame c)
  | startId (at_ : p.pstate = .sof) : Move c b p (stepId b (p.beginFrame c))
  | idByte (at_ : p.pstate = .id) : Move c b p (stepId b p)
  | lenByte (at_ : p.pstate = .len) : Move c b p (stepLen b p)
  | typeByte (at_ : p.pstate = .typ) (more : p.fpos + 1 ≠ p.fTypeSize) :
      Move c b p { p with rxType := shiftIn p.rxType b, hbuf := p.hbuf ++ [b], fpos := p.fpos + 1 }
  | typeToHeadCksum (at_ : p.pstate = .typ) (last : p.fpos + 1 = p.fTypeSize) (ck : 0 < cksize p.fCkSel) :
      Move c b p { p with rxType := shiftIn p.rxType b, hbuf := p.hbuf ++ [b], fpos := 0, rxCk := 0,
                          pstate := .headCksum }
  | typeToData (at_ : p.pstate = .typ) (last : p.fpos + 1 = p.fTypeSize) (len : p.rxLen ≠ 0) :
      Move c b p { p with rxType := shiftIn p.rxType b, hbuf := p.hbuf ++ [b], fpos := 0, pstate := .data }
  | headCksumByte (at_ : p.pstate = .headCksum) (more : (p.fpos + 1).toNat ≠ cksize p.fCkSel) :
      Move c b p { p with rxCk := shiftIn p.rxCk b, fpos := p.fpos + 1 }
  | headCksumToData (at_ : p.pstate = .headCksum) (len : p.rxLen ≠ 0) :
      Move c b p { p with rxCk := shiftIn p.rxCk b, fpos := 0, dbuf := [], dcount := 0, pstate := .data }
  | dataByte (at_ : p.pstate = .data) (more : p.dcount + 1 ≠ p.rxLen) :
      Move c b p { p with dbuf := p.dbuf ++ [b], dcount := p.dcount + 1 }
  | dataToCksum (at_ : p.pstate = .data) (last : p.dcount + 1 = p.rxLen) (ck : 0 < cksize p.fCkSel) :
      Move c b p { p with dbuf := p.dbuf ++ [b], dcount := p.dcount + 1, rxCk := 0, fpos := 0,
                          pstate := .dataCksum }
  | dataCksumByte (at_ : p.pstate = .dataCksum) (more : (p.fpos + 1).toNat ≠ cksize p.fCkSel) :
      Move c b p { p with rxCk := shiftIn p.rxCk b, fpos := p.fpos + 1 }
  | cleared : Move c b p p.clear

/-- Entering DATA, where it is not refused, changes the parser state only. -/
theorem enterData_eq_ok {cap : Option Nat} {p q : Parser} {evs : List Event} (h : enterData cap p = .ok q evs) :
    q = { p with pstate := .data } := by
  rcases enterData_cases cap p with ⟨-, h'⟩ | ⟨-, h'⟩
  · rw [h'] at h; cases h; rfl
  · rw [h'] at h; cases h

section
variable {prm : Params} {c : CfgRegs} {slots : List Slot} {b : Byte} {p q : Parser} {evs : List Event}

theorem stepSof_move (hs : p.pstate = .sof) : p.Move c b (stepSof c b p) := by
  unfold stepSof
  split
  · split
    · exact .start hs
    · exact .idle hs
  · exact .startId hs

theorem stepType_move (hs : p.pstate = .typ) (h : stepType prm slots b p = .ok q evs) : p.Move c b q := by
  simp only [stepType] at h
  split at h
  · next hlast =>
    split at h
    · next hck => cases h; exact .typeToHeadCksum hs hlast hck
    · split at h
      · cases h; exact .cleared
      · next hlen => cases enterData_eq_ok h; exact .typeToData hs hlast hlen
  · next hmore => cases h; exact .typeByte hs hmore

theorem stepHeadCksum_move (hs : p.pstate = .headCksum) (h : stepHeadCksum prm slots b p = .ok q evs) :
    p.Move c b q := by
  simp only [stepHeadCksum] at h
  split at h
  · split at h
    · cases h; exact .cleared
    · split at h
      · cases h; exact .cleared
      · next hlen => cases enterData_eq_ok h; exact .headCksumToData hs hlen
  · next hmore => cases h; exact .headCksumByte hs hmore

theorem stepData_move (hs : p.pstate = .data) (h : stepData slots b p = .ok q evs) : p.Move c b q := by
  simp only [stepData] at h
  split at h
  · next hlast =>
    split at h
    · cases h; exact .cleared
    · next hck => cases h; exact .dataToCksum hs hlast (Nat.pos_of_ne_zero hck)
  · next hmore => cases h; exact .dataByte hs hmore

theorem stepDataCksum_move (hs : p.pstate = .dataCksum) (h : stepDataCksum prm slots b p = .ok q evs) :
    p.Move c b q := by
  simp only [stepDataCksum] at h
  split at h
  · split at h <;> (cases h; exact .cleared)
  · next hmore => cases h; exact .dataCksumByte hs hmore

/-- A parser step that is not refused makes one of the moves. -/
theorem parserStep_move (h : parserStep prm c slots b p = .ok q evs) : p.Move c b q := by
  unfold parserStep at h
  split at h
  · next hs => cases h; exact stepSof_move hs
  · next hs => cases h; exact .idByte hs
  · next hs => cases h; exact .lenByte hs
  · next hs => exact stepType_move hs h
  · next hs => exact stepHeadCksum_move hs h
  · next hs => exact stepData_move hs h
  · next hs => exact stepDataCksum_move hs h

end

/-! ## Arithmetic of the field counters -/

/-- A position below a width of at most 4 counts up without wrapping (R24). -/
theorem toNat_fpos_succ {f : BitVec 3} {n : Nat} (h : f.toNat < n) (hn : n ≤ 4) : (f + 1).toNat = f.toNat + 1 := by
  have : f.toNat < 4 := by omega
  bv_omega

/-- A payload count below the declared length counts up without wrapping (R28). -/
theorem toNat_dcount_succ {d l : Word} (h : d.toNat < l.toNat) : (d + 1).toNat = d.toNat + 1 := by
  bv_omega

theorem cksize_le_four (c : CksumSel) : cksize c ≤ 4 := by cases c <;> decide

/-- Only NONE has no checksum field (R100). -/
theorem cksize_pos_iff {c : CksumSel} : 0 < cksize c ↔ c ≠ .nosum := by cases c <;> decide

/-- A legal width is latched as it is (R151). -/
theorem toNat_latchedWidth {w : Word} (h : w.toNat ≤ 4) : (w.setWidth 3).toNat = w.toNat := by
  simp; omega

/-! ## The parser's invariant, by parser state -/

/-- The latched widths are 1..4 (R29). -/
def Parser.LegalWidths (p : Parser) : Prop :=
  (1 ≤ p.fIdSize.toNat ∧ p.fIdSize.toNat ≤ 4) ∧ (1 ≤ p.fLenSize.toNat ∧ p.fLenSize.toNat ≤ 4) ∧
    (1 ≤ p.fTypeSize.toNat ∧ p.fTypeSize.toNat ≤ 4)

/-- What `Parser.Inv` says of the parser state the parser is in (R37). -/
def Parser.Clause (p : Parser) : Prop :=
  match p.pstate with
  | .sof => p.fpos = 0 ∧ p.hbuf = [] ∧ p.dbuf = [] ∧ p.dcount = 0 ∧ p.rxId = 0 ∧ p.rxLen = 0 ∧ p.rxType = 0 ∧ p.rxCk = 0
  | .id => p.hbuf.length = p.fpos.toNat ∧ p.fpos.toNat < p.fIdSize.toNat ∧ p.dbuf = []
  | .len => p.hbuf.length = p.fIdSize.toNat + p.fpos.toNat ∧ p.fpos.toNat < p.fLenSize.toNat ∧ p.dbuf = []
  | .typ =>
    p.hbuf.length = p.fIdSize.toNat + p.fLenSize.toNat + p.fpos.toNat ∧ p.fpos.toNat < p.fTypeSize.toNat ∧ p.dbuf = []
  | .headCksum =>
    p.hbuf.length = p.headerLength ∧ p.fCkSel ≠ .nosum ∧ p.fpos.toNat < cksize p.fCkSel ∧ p.dbuf = []
  | .data => p.hbuf.length = p.headerLength ∧ p.dcount.toNat < p.rxLen.toNat ∧ p.fpos = 0
  | .dataCksum =>
    p.hbuf.length = p.headerLength ∧ p.dcount = p.rxLen ∧ 0 < p.rxLen.toNat ∧ p.fCkSel ≠ .nosum ∧
      p.fpos.toNat < cksize p.fCkSel

/-- The clause of its state bounds the header bytes held (R27). -/
theorem Parser.Clause.hbufBound {p : Parser} (hw : p.LegalWidths) (h : p.Clause) : p.hbuf.length ≤ 12 := by
  obtain ⟨⟨-, hi⟩, ⟨-, hl⟩, -, ht⟩ := hw
  unfold Parser.Clause Parser.headerLength at h
  split at h
  · rw [h.2.1]; decide
  all_goals omega

/-- The invariant is legal widths, an exact payload count and the clause of the state the parser is in. -/
theorem Parser.Inv.of_clause {p : Parser} (hw : p.LegalWidths) (hd : p.dcount.toNat = p.dbuf.length) (h : p.Clause) :
    p.Inv where
  widths := hw
  hbufBound := h.hbufBound hw
  dcount := hd
  idle hs := by simpa only [Parser.Clause, hs] using h
  inId hs := by simpa only [Parser.Clause, hs] using h
  inLen hs := by simpa only [Parser.Clause, hs] using h
  inTyp hs := by simpa only [Parser.Clause, hs] using h
  inHeadCksum hs := by simpa only [Parser.Clause, hs] using h
  inData hs := by simpa only [Parser.Clause, hs] using h
  inDataCksum hs := by simpa only [Parser.Clause, hs] using h

/-- CLEAR makes the parser idle (R161). -/
theorem Parser.Inv.clear {p : Parser} (h : p.Inv) : p.clear.Inv :=
  .of_clause h.widths rfl ⟨rfl, rfl, rfl, rfl, rfl, rfl, rfl, rfl⟩

/-- The invariant does not speak of `pt_count`. -/
theorem Parser.Inv.setPtCount {p : Parser} (h : p.Inv) (n : Word) : { p with ptCount := n }.Inv :=
  ⟨h.widths, h.hbufBound, h.dcount, h.idle, h.inId, h.inLen, h.inTyp, h.inHeadCksum, h.inData, h.inDataCksum⟩

theorem Parser.Inv.arrive {p : Parser} (h : p.Inv) (timeout : Word) : (p.arrive timeout).Inv := by
  cases hst : p.stalled timeout with
  | false => rw [Parser.arrive_of_not_stalled hst]; exact h.setPtCount 0
  | true => rw [Parser.arrive_of_stalled hst]; exact h.clear.setPtCount 0

/-- BEGIN under a legal configuration opens an ID field (R151). -/
theorem Parser.beginFrame_inv {c : CfgRegs} (hc : c.Legal) (p : Parser) : (p.beginFrame c).Inv := by
  obtain ⟨hi, hl, ht⟩ := hc
  have hi' : (c.idSize.setWidth 3).toNat = c.idSize.toNat := toNat_latchedWidth hi.2
  have hl' : (c.lenSize.setWidth 3).toNat = c.lenSize.toNat := toNat_latchedWidth hl.2
  have ht' : (c.typeSize.setWidth 3).toNat = c.typeSize.toNat := toNat_latchedWidth ht.2
  refine .of_clause ?_ rfl ⟨rfl, ?_, rfl⟩
  · simp only [Parser.LegalWidths, Parser.beginFrame, hi', hl', ht']
    exact ⟨hi, hl, ht⟩
  · show 0 < (c.idSize.setWidth 3).toNat
    omega

section
variable {p : Parser} {b : Byte} (h : p.Inv)
include h

/-- A byte of the ID field (R153). -/
theorem stepId_inv (hs : p.pstate = .id) : (stepId b p).Inv := by
  obtain ⟨hlen, hpos, hbuf⟩ := h.inId hs
  obtain ⟨⟨-, hi⟩, ⟨hl, -⟩, -⟩ := h.widths
  have hsucc := toNat_fpos_succ hpos hi
  simp only [stepId]
  split
  · next hlast =>
    have : (p.fpos + 1).toNat = p.fIdSize.toNat := congrArg BitVec.toNat hlast
    exact .of_clause h.widths h.dcount ⟨by simp; omega, hl, hbuf⟩
  · next hmore =>
    have : (p.fpos + 1).toNat ≠ p.fIdSize.toNat := fun he => hmore (BitVec.eq_of_toNat_eq he)
    refine .of_clause h.widths h.dcount ?_
    simp only [Parser.Clause, hs, List.length_append, List.length_singleton]
    exact ⟨by omega, by omega, hbuf⟩

/-- A byte of the LEN field (R154). -/
theorem stepLen_inv (hs : p.pstate = .len) : (stepLen b p).Inv := by
  obtain ⟨hlen, hpos, hbuf⟩ := h.inLen hs
  obtain ⟨-, ⟨-, hl⟩, ht, -⟩ := h.widths
  have hsucc := toNat_fpos_succ hpos hl
  simp only [stepLen]
  split
  · next hlast =>
    have : (p.fpos + 1).toNat = p.fLenSize.toNat := congrArg BitVec.toNat hlast
    exact .of_clause h.widths h.dcount ⟨by simp; omega, ht, hbuf⟩
  · next hmore =>
    have : (p.fpos + 1).toNat ≠ p.fLenSize.toNat := fun he => hmore (BitVec.eq_of_toNat_eq he)
    refine .of_clause h.widths h.dcount ?_
    simp only [Parser.Clause, hs, List.length_append, List.length_singleton]
    exact ⟨by omega, by omega, hbuf⟩

/-- Every move of the parser keeps its invariant, under a legal configuration (R37). -/
theorem Parser.Move.inv {c : CfgRegs} {q : Parser} (hc : c.Legal) (hm : p.Move c b q) : q.Inv := by
  have hwt := h.widths
  cases hm with
  | idle => exact h
  | start => exact Parser.beginFrame_inv hc p
  | startId => exact stepId_inv (Parser.beginFrame_inv hc p) rfl
  | idByte hs => exact stepId_inv h hs
  | lenByte hs => exact stepLen_inv h hs
  | typeByte hs hmore =>
    obtain ⟨hlen, hpos, hbuf⟩ := h.inTyp hs
    have hsucc := toNat_fpos_succ hpos hwt.2.2.2
    have : (p.fpos + 1).toNat ≠ p.fTypeSize.toNat := fun he => hmore (BitVec.eq_of_toNat_eq he)
    refine .of_clause h.widths h.dcount ?_
    simp only [Parser.Clause, hs, List.length_append, List.length_singleton]
    exact ⟨by omega, by omega, hbuf⟩
  | typeToHeadCksum hs hlast hck =>
    obtain ⟨hlen, hpos, hbuf⟩ := h.inTyp hs
    have hsucc := toNat_fpos_succ hpos hwt.2.2.2
    have : (p.fpos + 1).toNat = p.fTypeSize.toNat := congrArg BitVec.toNat hlast
    refine .of_clause h.widths h.dcount ⟨?_, cksize_pos_iff.1 hck, hck, hbuf⟩
    simp [Parser.headerLength]; omega
  | typeToData hs hlast hne =>
    obtain ⟨hlen, hpos, hbuf⟩ := h.inTyp hs
    have hsucc := toNat_fpos_succ hpos hwt.2.2.2
    have : (p.fpos + 1).toNat = p.fTypeSize.toNat := congrArg BitVec.toNat hlast
    refine .of_clause h.widths h.dcount ⟨?_, ?_, rfl⟩
    · simp [Parser.headerLength]; omega
    · show p.dcount.toNat < p.rxLen.toNat
      rw [h.dcount, hbuf]
      exact BitVec.toNat_pos_of_ne_zero hne
  | headCksumByte hs hmore =>
    obtain ⟨hlen, hck, hpos, hbuf⟩ := h.inHeadCksum hs
    have hsucc := toNat_fpos_succ hpos (cksize_le_four _)
    refine .of_clause h.widths h.dcount ?_
    simp only [Parser.Clause, hs]
    exact ⟨hlen, hck, by omega, hbuf⟩
  | headCksumToData hs hne =>
    obtain ⟨hlen, -⟩ := h.inHeadCksum hs
    exact .of_clause h.widths rfl ⟨hlen, BitVec.toNat_pos_of_ne_zero hne, rfl⟩
  | dataByte hs hmore =>
    obtain ⟨hlen, hcount, hpos⟩ := h.inData hs
    have hsucc := toNat_dcount_succ hcount
    have : (p.dcount + 1).toNat ≠ p.rxLen.toNat := fun he => hmore (BitVec.eq_of_toNat_eq he)
    refine .of_clause h.widths (by simpa [h.dcount] using hsucc) ?_
    simp only [Parser.Clause, hs]
    exact ⟨hlen, by omega, hpos⟩
  | dataToCksum hs hlast hck =>
    obtain ⟨hlen, hcount, -⟩ := h.inData hs
    exact .of_clause h.widths (by simpa [h.dcount] using toNat_dcount_succ hcount)
      ⟨hlen, hlast, by show 0 < p.rxLen.toNat; omega, cksize_pos_iff.1 hck, hck⟩
  | dataCksumByte hs hmore =>
    obtain ⟨hlen, hcount, hpay, hck, hpos⟩ := h.inDataCksum hs
    have hsucc := toNat_fpos_succ hpos (cksize_le_four _)
    refine .of_clause h.widths h.dcount ?_
    simp only [Parser.Clause, hs]
    exact ⟨hlen, hcount, hpay, hck, by omega⟩
  | cleared => exact h.clear

end

/-! ## Every step keeps the invariant -/

/-- Every effect of a command keeps the invariant. -/
theorem Effect.inv {s u : State} {i : Instr} (h : s.Inv) (he : Effect s i u) : u.Inv := by
  cases he with
  | none => exact h
  | acceptByte b p evs hp => exact h.setParser ((parserStep_move hp).inv (h.parser.arrive _) h.cfg)
  | tick => exact (h.setParser (h.parser.setPtCount _)).ageSlots
  | resetParser => exact h.setParser h.parser.clear
  | cfgw r v g hl => exact h.setCfg (h.cfg.write hl)
  | allocate => exact h.setNextId _
  | query r f y o d k hk => exact (h.setNextId _).putSlot (freeSlot?_eq_some hk).1 (listenSlot_inv _ _)
  | ladd l o k hk => exact h.putSlot (freeSlot?_eq_some hk).1 (listenSlot_inv _ _)
  | lrem k hk => exact h.putSlot (liveSlot_iff.1 hk).1 Slot.free_inv
  | lrenew k hk => exact h.putSlot (liveSlot_iff.1 hk).1 (slotAt_inv h.slots _).renew

/-- The widths after RESET are 4 (R270). -/
theorem CfgRegs.reset_legal (peer : BitVec 1) : (CfgRegs.reset peer).Legal := by
  constructor <;> simp [CfgRegs.reset]

theorem Parser.reset_inv : Parser.reset.Inv :=
  .of_clause ⟨by decide, by decide, by decide⟩ rfl ⟨rfl, rfl, rfl, rfl, rfl, rfl, rfl, rfl⟩

theorem Parser.reset_holdsFields : Parser.reset.HoldsFields := ⟨rfl, rfl, rfl⟩

/-- The invariant just after RESET: every slot of the file is a free one (R270). -/
theorem State.resetWith_inv (p : Params) : (State.resetWith p).Inv where
  cfg := CfgRegs.reset_legal p.peerInit
  parser := Parser.reset_inv
  count n hn := by simp_all [resetSlots]
  slots sl hsl := by
    rw [(List.mem_replicate.1 hsl).2]
    exact Slot.free_inv

/-- Settles O9: RESET leaves legal widths, an idle parser and free slots (R270). -/
theorem resetStateHasTheInvariant : Obligations.ResetStateHasTheInvariant :=
  fun p => ⟨State.resetWith_inv p, Parser.reset_holdsFields⟩

theorem State.hwReset_inv (s : State) : s.hwReset.Inv :=
  have h := State.resetWith_inv s.params
  ⟨h.cfg, h.parser, h.count, h.slots⟩

/-- Settles O10: RESET establishes the invariant, and the ports and every effect of a command keep it. -/
theorem everyStepKeepsTheInvariant : Obligations.EveryStepKeepsTheInvariant := fun _ _ h =>
  step_keeps (P := State.Inv) (fun s _ => s.hwReset_inv) (fun _ rest h => h.setInput rest)
    (fun _ st vals evs h => h.reply st vals evs) (fun _ _ _ h he => he.inv h) h

/-! ## The field accumulators (R25) -/

/-- The byte is in the field, which has at most four: it is shifted into the field's accumulator (R57). -/
theorem accumulates_of_open {acc : Word} {l : List Byte} {a n : Nat} (h : acc.toNat = beVal ((l.drop a).take n))
    (ha : a ≤ l.length) (hl : l.length < a + n) (hn : n ≤ 4) (b : Byte) :
    (shiftIn acc b).toNat = beVal (((l ++ [b]).drop a).take n) := by
  have hheld : (l.drop a).take n = l.drop a := List.take_of_length_le (by simp; omega)
  have hgrown : ((l ++ [b]).drop a).take n = l.drop a ++ [b] := by
    rw [List.drop_append_of_le_length ha]
    exact List.take_of_length_le (by simp; omega)
  have hfits : beVal (l.drop a ++ [b]) < 2 ^ 32 := calc
    beVal (l.drop a ++ [b]) < 256 ^ (l.drop a ++ [b]).length := beVal_lt _
    _ ≤ 256 ^ 4 := Nat.pow_le_pow_right (by decide) (by simp; omega)
  rw [hheld] at h
  rw [hgrown, toNat_shiftIn, h, ← beVal_concat, Nat.mod_eq_of_lt hfits]

/-- The byte is past the field or before it: the bytes held of the field, and their value, stay. -/
theorem accumulates_of_closed {acc : Word} {l : List Byte} {a n : Nat} (h : acc.toNat = beVal ((l.drop a).take n))
    (hout : a + n ≤ l.length ∨ l.length < a) (b : Byte) : acc.toNat = beVal (((l ++ [b]).drop a).take n) := by
  have hheld : ((l ++ [b]).drop a).take n = (l.drop a).take n := by
    rcases hout with hout | hout
    · rw [List.drop_append_of_le_length (by omega), List.take_append_of_le_length (by simp; omega)]
    · rw [List.drop_eq_nil_of_le (by simp; omega), List.drop_eq_nil_of_le (by omega)]
  rw [hheld, h]

/-- With no header byte held and the accumulators zero, they agree. -/
theorem Parser.holdsFields_of_empty {p : Parser} (hb : p.hbuf = []) (hi : p.rxId = 0) (hl : p.rxLen = 0)
    (ht : p.rxType = 0) : p.HoldsFields := by
  constructor <;> simp [hb, hi, hl, ht, beVal]

theorem Parser.clear_holdsFields (p : Parser) : p.clear.HoldsFields := holdsFields_of_empty rfl rfl rfl rfl

theorem Parser.beginFrame_holdsFields (c : CfgRegs) (p : Parser) : (p.beginFrame c).HoldsFields :=
  holdsFields_of_empty rfl rfl rfl rfl

theorem Parser.arrive_holdsFields {p : Parser} (hf : p.HoldsFields) (timeout : Word) :
    (p.arrive timeout).HoldsFields := by
  cases hst : p.stalled timeout with
  | false => rw [Parser.arrive_of_not_stalled hst]; exact ⟨hf.rxId, hf.rxLen, hf.rxType⟩
  | true => rw [Parser.arrive_of_stalled hst]; exact holdsFields_of_empty rfl rfl rfl rfl

section
variable {p : Parser} (h : p.Inv) (hf : p.HoldsFields)
include h hf

/-- A byte of the ID field goes into `rx_id`; the later fields are still empty (R153). -/
theorem stepId_holdsFields (b : Byte) (hs : p.pstate = .id) : (stepId b p).HoldsFields := by
  obtain ⟨hlen, hpos, -⟩ := h.inId hs
  obtain ⟨⟨-, hi⟩, -⟩ := h.widths
  have hid := accumulates_of_open (a := 0) hf.rxId (Nat.zero_le _) (by omega) hi b
  have hlen := accumulates_of_closed hf.rxLen (.inr (by omega)) b
  have htyp := accumulates_of_closed hf.rxType (.inr (by omega)) b
  simp only [stepId]
  split <;> exact ⟨hid, hlen, htyp⟩

/-- A byte of the LEN field goes into `rx_len`; the ID is whole and TYPE still empty (R154). -/
theorem stepLen_holdsFields (b : Byte) (hs : p.pstate = .len) : (stepLen b p).HoldsFields := by
  obtain ⟨hlen, hpos, -⟩ := h.inLen hs
  obtain ⟨-, ⟨-, hl⟩, -⟩ := h.widths
  have hid := accumulates_of_closed (a := 0) hf.rxId (.inl (by omega)) b
  have hlen := accumulates_of_open hf.rxLen (by omega) (by omega) hl b
  have htyp := accumulates_of_closed hf.rxType (.inr (by omega)) b
  simp only [stepLen]
  split <;> exact ⟨hid, hlen, htyp⟩

/-- A byte of the TYPE field goes into `rx_type`; ID and LEN are whole (R155). -/
theorem typeByte_holdsFields (b : Byte) (hs : p.pstate = .typ) :
    { p with rxType := shiftIn p.rxType b, hbuf := p.hbuf ++ [b] }.HoldsFields := by
  obtain ⟨hlen, hpos, -⟩ := h.inTyp hs
  obtain ⟨-, -, -, ht⟩ := h.widths
  exact {
    rxId := accumulates_of_closed (a := 0) hf.rxId (.inl (by omega)) b
    rxLen := accumulates_of_closed hf.rxLen (.inl (by omega)) b
    rxType := accumulates_of_open hf.rxType (by omega) (by omega) ht b }

/-- Every move of the parser keeps the accumulators: a header byte goes into its own field's, and every other move
leaves header and accumulators as they are or empties them (R25). -/
theorem Parser.Move.holdsFields {c : CfgRegs} {b : Byte} {q : Parser} (hc : c.Legal) (hm : p.Move c b q) :
    q.HoldsFields := by
  cases hm with
  | idle => exact hf
  | start => exact Parser.beginFrame_holdsFields c p
  | startId => exact stepId_holdsFields (Parser.beginFrame_inv hc p) (Parser.beginFrame_holdsFields c p) b rfl
  | idByte hs => exact stepId_holdsFields h hf b hs
  | lenByte hs => exact stepLen_holdsFields h hf b hs
  | typeByte hs | typeToHeadCksum hs | typeToData hs =>
    obtain ⟨hid, hlen, htyp⟩ := typeByte_holdsFields h hf b hs
    exact ⟨hid, hlen, htyp⟩
  | cleared => exact p.clear_holdsFields
  | _ => exact ⟨hf.rxId, hf.rxLen, hf.rxType⟩

end

/-- Every effect of a command keeps the accumulators (R25). -/
theorem Effect.holdsFields {s u : State} {i : Instr} (h : s.Inv) (hf : s.parser.HoldsFields) (he : Effect s i u) :
    u.parser.HoldsFields := by
  cases he with
  | acceptByte b p evs hp =>
    exact (parserStep_move hp).holdsFields (h.parser.arrive _) (Parser.arrive_holdsFields hf _) h.cfg
  | tick => exact ⟨hf.rxId, hf.rxLen, hf.rxType⟩
  | resetParser => exact s.parser.clear_holdsFields
  | _ => exact hf

/-- Settles O11: together with the invariant, the accumulators are kept by every effect of a command. -/
theorem accumulatorsHoldTheFieldsReceived : Obligations.AccumulatorsHoldTheFieldsReceived := fun _ _ h hf hstep =>
  (step_keeps (P := fun s => s.Inv ∧ s.parser.HoldsFields)
    (fun s _ => ⟨s.hwReset_inv, Parser.reset_holdsFields⟩) (fun _ rest h => ⟨h.1.setInput rest, h.2⟩)
    (fun _ st vals evs h => ⟨h.1.reply st vals evs, h.2⟩)
    (fun _ _ _ h he => ⟨he.inv h.1, he.holdsFields h.1 h.2⟩) ⟨h, hf⟩ hstep).2

end Sys2Proof.Machine
end

section
/-! PROOFS. The one access path to the state (20_memory.md): a step runs the command delivered next (R51), and the
commands that read have no side effects (R62). -/

namespace Sys2Proof.Machine

/-! ## The command delivered next -/

/-- With no RESET, a step runs the whole command at the head of the delivered words, once it has taken its words. -/
theorem step_eq_exec_of_decode {s : State} {i : Instr} {rest : List Word} (hr : s.resetIn = false)
    (hd : decode s.input = .instr i rest) : step s = exec i (s.setInput rest) := by
  simp [step, State.nextCommand, hr, hd]

/-- Settles O6: `setInput` is the state with the command's words taken. -/
theorem stepRunsTheDecodedCommand : Obligations.StepRunsTheDecodedCommand := fun _ _ _ hr hd =>
  step_eq_exec_of_decode hr hd

/-! ## Commands that only read -/

/-- CFGR answers `ILLEGAL_CMD` or the register, and either answer is all it does. -/
theorem execCfgr_eq_reply (r : Byte) (s : State) : ∃ st vals, execCfgr r s = .next (s.reply st vals []) := by
  cases h : CfgReg.ofNum? r with
  | none => exact ⟨_, _, execCfgr_eq_next.2 (.inl ⟨h, rfl⟩)⟩
  | some g => exact ⟨_, _, execCfgr_eq_next.2 (.inr ⟨g, h, rfl⟩)⟩

/-- CKSUM answers `BAD_CONFIG` or the checksum, and either answer is all it does. -/
theorem execCksum_eq_reply (sel : Byte) (d : List Byte) (s : State) :
    ∃ st vals, execCksum sel d s = .next (s.reply st vals []) := by
  cases h : CksumSel.ofCode? sel.toNat with
  | none => exact ⟨_, _, execCksum_eq_next.2 (.inl ⟨h, rfl⟩)⟩
  | some c => exact ⟨_, _, execCksum_eq_next.2 (.inr ⟨c, h, rfl⟩)⟩

/-- LREAD answers `BAD_SLOT` or the slot's words, and either answer is all it does. -/
theorem execLread_eq_reply (k : BitVec 16) (s : State) : ∃ st vals, execLread k s = .next (s.reply st vals []) := by
  cases h : slotInRange s.params.nIdSlots k.toNat with
  | false => exact ⟨_, _, execLread_eq_next.2 (.inl ⟨h, rfl⟩)⟩
  | true => exact ⟨_, _, execLread_eq_next.2 (.inr ⟨h, rfl⟩)⟩

/-- Settles O59: each of the three commands replies without an event, whichever its answer. -/
theorem readCommandsHaveNoSideEffects : Obligations.ReadCommandsHaveNoSideEffects := by
  rintro i s (⟨r, rfl⟩ | ⟨k, rfl⟩ | ⟨sel, d, rfl⟩)
  · obtain ⟨st, vals, h⟩ := execCfgr_eq_reply r s
    exact ⟨_, h, rfl⟩
  · obtain ⟨st, vals, h⟩ := execLread_eq_reply k s
    exact ⟨_, h, rfl⟩
  · obtain ⟨st, vals, h⟩ := execCksum_eq_reply sel d s
    exact ⟨_, h, rfl⟩

end Sys2Proof.Machine
end

section
/-! PROOFS. The words of a command (R70 to R72, R86), each way: data words against byte sequences, command words against
their fields, and how many operand words a command has. -/

namespace Sys2Proof

/-! ## Data words (R72) -/

/-- The bytes of a word, in the order in which they are put together (R72). -/
@[simp] theorem wordBytes_append (b0 b1 b2 b3 : Byte) : wordBytes (b0 ++ b1 ++ b2 ++ b3) = [b0, b1, b2, b3] := by
  simp only [wordBytes, List.cons.injEq, and_true]
  refine ⟨?_, ?_, ?_, ?_⟩ <;> ext i hi <;>
    simp only [BitVec.getElem_extractLsb', BitVec.getLsbD_append] <;> grind

/-- A word is determined by its four bytes (R72). -/
theorem wordBytes_injective : Function.Injective wordBytes := by
  intro v w h
  have hv := v.isLt
  have hw := w.isLt
  simp only [wordBytes, List.cons.injEq, ← BitVec.toNat_inj, BitVec.extractLsb'_toNat, Nat.shiftRight_eq_div_pow] at h
  obtain ⟨h3, h2, h1, h0, -⟩ := h
  exact BitVec.eq_of_toNat_eq (by omega)

theorem length_flatMap_wordBytes (ws : List Word) : (ws.flatMap wordBytes).length = 4 * ws.length := by
  induction ws with
  | nil => rfl
  | cons w ws ih => simp [ih, wordBytes]; omega

/-- Data words are determined by the bytes they carry, pad bytes included (R72). -/
theorem flatMap_wordBytes_injective : Function.Injective fun ws : List Word => ws.flatMap wordBytes := by
  intro vs
  induction vs with
  | nil => intro ws h; cases ws with
    | nil => rfl
    | cons w ws => simp [wordBytes] at h
  | cons v vs ih => intro ws h; cases ws with
    | nil => simp [wordBytes] at h
    | cons w ws =>
      have happ : wordBytes v ++ vs.flatMap wordBytes = wordBytes w ++ ws.flatMap wordBytes := h
      obtain ⟨hv, hvs⟩ := List.append_inj happ rfl
      rw [wordBytes_injective hv, ih hvs]

/-- The packed words carry the bytes in order, then zeros up to the end of the last word (R72). -/
theorem flatMap_wordBytes_packWords : ∀ d : List Byte,
    (packWords d).flatMap wordBytes = d ++ List.replicate (4 * dataWordCount d.length - d.length) 0
  | [] => rfl
  | [_] => by simp [packWords, dataWordCount, List.replicate]
  | [_, _] => by simp [packWords, dataWordCount, List.replicate]
  | [_, _, _] => by simp [packWords, dataWordCount]
  | b0 :: b1 :: b2 :: b3 :: rest => by
    have hpad : 4 * dataWordCount (rest.length + 4) - (rest.length + 4) =
        4 * dataWordCount rest.length - rest.length := by simp only [dataWordCount]; omega
    simp [packWords, flatMap_wordBytes_packWords rest, hpad]

@[simp] theorem dataBytes_packWords (d : List Byte) : dataBytes d.length (packWords d) = d := by
  simp [dataBytes, flatMap_wordBytes_packWords]

@[simp] theorem padClear_packWords (d : List Byte) : padClear d.length (packWords d) = true := by
  simp [padClear, flatMap_wordBytes_packWords]

/-- As many data words as `n` bytes take carry `n` bytes (R72). -/
theorem length_dataBytes {n : Nat} {ws : List Word} (hl : ws.length = dataWordCount n) :
    (dataBytes n ws).length = n := by
  simp only [dataBytes, List.length_take, length_flatMap_wordBytes, hl, dataWordCount]
  omega

/-- With clear pad bytes the data words are the packing of the bytes they carry (R72). -/
theorem packWords_dataBytes {n : Nat} {ws : List Word} (hl : ws.length = dataWordCount n)
    (hp : padClear n ws = true) : packWords (dataBytes n ws) = ws := by
  have hpad : (ws.flatMap wordBytes).drop n = List.replicate (4 * dataWordCount n - n) 0 :=
    List.eq_replicate_iff.2 ⟨by rw [List.length_drop, length_flatMap_wordBytes, hl], by simpa [padClear] using hp⟩
  apply flatMap_wordBytes_injective
  calc (packWords (dataBytes n ws)).flatMap wordBytes
      = dataBytes n ws ++ List.replicate (4 * dataWordCount n - n) 0 := by
        rw [flatMap_wordBytes_packWords, length_dataBytes hl]
    _ = ws.flatMap wordBytes := by rw [← hpad, dataBytes, List.take_append_drop]

/-- A count word with its data words, pad bytes clear, is the operand of a byte sequence that fits (R71, R72). -/
theorem dataOperand_dataBytes {n : Word} {ws : List Word} (hl : ws.length = dataWordCount n.toNat)
    (hp : padClear n.toNat ws = true) :
    dataFits (dataBytes n.toNat ws) = true ∧ dataOperand (dataBytes n.toNat ws) = n :: ws := by
  simp only [dataFits, dataOperand, length_dataBytes hl, packWords_dataBytes hl hp, decide_eq_true_eq,
    BitVec.ofNat_toNat, BitVec.setWidth_eq]
  exact ⟨n.isLt, trivial⟩

/-! ## The command word (R70, R71) -/

/-- A command word is its opcode with its fields A and S (R70). -/
theorem commandWord_fields {op : Op} {w : Word} (hc : op.code = fieldOpc w) :
    commandWord op (fieldA w) (fieldS w) = w := by
  have hhigh : fieldS w ++ fieldA w = w.extractLsb' 8 24 := BitVec.extractLsb'_append_extractLsb'_eq_extractLsb' rfl
  have hword : w.extractLsb' 8 24 ++ fieldOpc w = w.extractLsb' 0 32 :=
    BitVec.extractLsb'_append_extractLsb'_eq_extractLsb' rfl
  rw [commandWord, hc]
  exact (congrArg (· ++ fieldOpc w) hhigh).trans (hword.trans BitVec.extractLsb'_eq_self)

/-- An opcode names the operation that has it as its code, and no other (R74). -/
theorem Op.ofCode?_eq_some {c : Byte} {op : Op} : Op.ofCode? c = some op ↔ op.code = c := by
  constructor
  · intro h
    simpa using List.find?_some h
  · rintro rfl
    exact Op.ofCode?_code op

theorem Op.reservedClear_iff {op : Op} {w : Word} :
    op.reservedClear w = true ↔ fieldA w &&& ~~~op.maskA = 0 ∧ (op.usesS = false → fieldS w = 0) := by
  cases h : op.usesS <;> simp [Op.reservedClear, h]

/-! ## The field A against its mask (R71): all of it, nothing, or the flags alone -/

theorem and_not_allOnes (a : Byte) : a &&& ~~~0xFF = 0 := by simp

theorem eq_zero_of_maskA_zero : ∀ a : Byte, a &&& ~~~0x00 = 0 → a = 0 := by decide

theorem flagsA_getLsbD_of_r : ∀ a : Byte, a &&& ~~~0x01 = 0 → flagsA (a.getLsbD 0) false = a := by decide

theorem flagsA_getLsbD_of_p : ∀ a : Byte, a &&& ~~~0x02 = 0 → flagsA false (a.getLsbD 1) = a := by decide

theorem flagsA_getLsbD : ∀ a : Byte, a &&& ~~~0x03 = 0 → flagsA (a.getLsbD 0) (a.getLsbD 1) = a := by decide

/-- The flags set no bit of A but their own (R71). -/
theorem flagsA_and_not_mask (r p : Bool) :
    flagsA r false &&& ~~~0x01 = 0 ∧ flagsA false p &&& ~~~0x02 = 0 ∧ flagsA r p &&& ~~~0x03 = 0 := by
  cases r <;> cases p <;> decide

theorem getLsbD_flagsA_zero (r p : Bool) : (flagsA r p).getLsbD 0 = r := by cases r <;> cases p <;> decide

theorem getLsbD_flagsA_one (r p : Bool) : (flagsA r p).getLsbD 1 = p := by cases r <;> cases p <;> decide

/-! ## Whole commands (R86) -/

/-- An operation with data has at least its count word (R71). -/
theorem Op.fixedOperands_pos {op : Op} (h : op.hasData = true) : 0 < op.fixedOperands := by
  revert h
  cases op <;> decide

/-- The length of a command is settled by the words of the command itself: words after it change nothing (R86). -/
theorem Op.operandLength_append {op : Op} {args : List Word} {n : Nat} (h : op.operandLength args = some n)
    (rest : List Word) : op.operandLength (args ++ rest) = some n := by
  cases hd : op.hasData with
  | false => rwa [Op.operandLength_fixed hd] at h ⊢
  | true =>
    simp only [Op.operandLength, hd, if_true, Option.map_eq_some_iff] at h ⊢
    obtain ⟨v, hv, hn⟩ := h
    exact ⟨v, by rw [List.getElem?_append_left (List.getElem?_eq_some_iff.1 hv).1, hv], hn⟩

/-- The words that R86 takes from a list are a whole command's. -/
theorem Op.operandLength_take {op : Op} {ops : List Word} {n : Nat} (h : op.operandLength ops = some n) :
    op.operandLength (ops.take n) = some n := by
  cases hd : op.hasData with
  | false => rwa [Op.operandLength_fixed hd] at h ⊢
  | true =>
    simp only [Op.operandLength, hd, if_true, Option.map_eq_some_iff] at h ⊢
    obtain ⟨v, hv, rfl⟩ := h
    have hpos := Op.fixedOperands_pos hd
    exact ⟨v, by rw [List.getElem?_take_of_lt (by omega), hv], rfl⟩

/-- The words of a whole command without data are its fixed operands (R71, R86). -/
theorem Op.length_args_fixed {op : Op} (hd : op.hasData = false) {args : List Word}
    (hl : op.operandLength args = some args.length) : args.length = op.fixedOperands := by
  rw [Op.operandLength_fixed hd, Option.some.injEq] at hl
  exact hl.symm

/-- The operand words of a whole command with data: the fixed ones before the count word, the count word, and the data
words it counts (R71, R86). -/
theorem Op.args_eq_append_of_data {op : Op} (hd : op.hasData = true) {args : List Word}
    (hl : op.operandLength args = some args.length) :
    ∃ pre n ds, args = pre ++ n :: ds ∧ pre.length + 1 = op.fixedOperands ∧ ds.length = dataWordCount n.toNat := by
  simp only [Op.operandLength, hd, if_true, Option.map_eq_some_iff] at hl
  obtain ⟨n, hn, hlen⟩ := hl
  obtain ⟨hlt, hget⟩ := List.getElem?_eq_some_iff.1 hn
  have hpos := Op.fixedOperands_pos hd
  refine ⟨args.take (op.fixedOperands - 1), n, args.drop op.fixedOperands, ?_, ?_, ?_⟩
  · conv_lhs => rw [← List.take_append_drop (op.fixedOperands - 1) args, List.drop_eq_getElem_cons hlt, hget,
      Nat.sub_add_cancel hpos]
  · rw [List.length_take_of_le (by omega)]; omega
  · rw [List.length_drop]; omega

end Sys2Proof
end

section
/-! PROOFS. The round trip of the encoding (30_encoding.md): what the decoder reads from a whole command, said once, and
from it that decoding undoes encoding and encoding undoes decoding. -/

namespace Sys2Proof

/-! ## What the decoder reads from a whole command -/

section
variable {op : Op} {w : Word} {args : List Word} (hc : op.code = fieldOpc w)
  (hl : op.operandLength args = some args.length)
include hc hl

/-- A whole command that builds decodes to what it builds, whatever follows it. -/
theorem decode_of_build_ok {i : Instr} (hb : build op w args = .ok i) (rest : List Word) :
    decode (w :: (args ++ rest)) = .instr i rest := by
  simp [decode, Op.ofCode?_eq_some.2 hc, Op.operandLength_append hl rest, hb]

/-- A whole command that does not build is illegal for the reason `build` gives, whatever follows it. -/
theorem decode_of_build_error {why : Illegal} (hb : build op w args = .error why) (rest : List Word) :
    decode (w :: (args ++ rest)) = .illegal why rest := by
  simp [decode, Op.ofCode?_eq_some.2 hc, Op.operandLength_append hl rest, hb]

end

/-- The words of a whole command, built into `i`, and the words after it are exactly what decodes to `i`. -/
theorem decode_eq_instr_iff {ws : List Word} {i : Instr} {rest : List Word} :
    decode ws = .instr i rest ↔ ∃ op w args, ws = w :: (args ++ rest) ∧ op.code = fieldOpc w ∧
      op.operandLength args = some args.length ∧ build op w args = .ok i := by
  constructor
  · intro h
    cases ws with
    | nil => cases h
    | cons w ops =>
      cases hop : Op.ofCode? (fieldOpc w) with
      | none => simp [decode, hop] at h
      | some op =>
        cases hn : op.operandLength ops with
        | none => simp [decode, hop, hn] at h
        | some n =>
          by_cases hlen : ops.length < n
          · simp [decode, hop, hn, hlen] at h
          · cases hb : build op w (ops.take n) with
            | error why => simp [decode, hop, hn, hlen, hb] at h
            | ok j =>
              simp only [decode, hop, hn, hlen, hb, if_false, Decoded.instr.injEq] at h
              obtain ⟨rfl, rfl⟩ := h
              have htake : (ops.take n).length = n := List.length_take_of_le (by omega)
              exact ⟨op, w, ops.take n, by rw [List.take_append_drop], Op.ofCode?_eq_some.1 hop,
                by rw [Op.operandLength_take hn, htake], hb⟩
  · rintro ⟨op, w, args, rfl, hc, hl, hb⟩
    exact decode_of_build_ok hc hl hb rest

/-- The timeout operand is legal with P = 0 and TO = 0, or with P = 1 (R73). -/
theorem timeoutOf_eq_some {p : Bool} {t : Word} {o : Option Word} :
    timeoutOf p t = some o ↔ o.isSome = p ∧ o.getD 0 = t := by
  cases p with
  | true => cases o with
    | none => simp [timeoutOf]
    | some u => simpa [timeoutOf] using eq_comm
  | false => cases o with
    | none => simpa [timeoutOf] using eq_comm
    | some u => simp [timeoutOf]

/-- The timeout operand is illegal exactly with P = 0 and TO ≠ 0 (R73, R75). -/
theorem timeoutOf_eq_none {p : Bool} {t : Word} : timeoutOf p t = none ↔ p = false ∧ t ≠ 0 := by
  cases p <;> simp [timeoutOf]

/-- The pad bytes of a command's operand words are clear, where its operation has data (R72, R75). -/
def Op.padsClear (op : Op) (args : List Word) : Bool :=
  !op.hasData || padClear (args.getD (op.fixedOperands - 1) 0).toNat (args.drop op.fixedOperands)

/-- The byte sequence in a command's operand words, where its operation has data (R72). -/
def Op.dataArg (op : Op) (args : List Word) : List Byte :=
  dataBytes (args.getD (op.fixedOperands - 1) 0).toNat (args.drop op.fixedOperands)

/-- The command that `build` reads from the fields A and S and the operand words, its own checks of the reserved bits
and the pad bytes set aside. -/
inductive Reads (a : Byte) (k : BitVec 16) (args : List Word) : Op → Instr → Prop
  | acceptByte : Reads a k args .acceptByte (.acceptByte a)
  | tick : Reads a k args .tick .tick
  | resetParser : Reads a k args .resetParser .resetParser
  | cfgw : Reads a k args .cfgw (.cfgw a (args.getD 0 0))
  | cfgr : Reads a k args .cfgr (.cfgr a)
  | cksum : Reads a k args .cksum (.cksum a (Op.cksum.dataArg args))
  | send : Reads a k args .send (.send (a.getLsbD 0) (args.getD 0 0) (args.getD 1 0) (Op.send.dataArg args))
  | query (o : Option Word) (timeout : timeoutOf (a.getLsbD 1) (args.getD 2 0) = some o) :
      Reads a k args .query (.query (a.getLsbD 0) (args.getD 0 0) (args.getD 1 0) o (Op.query.dataArg args))
  | respond :
      Reads a k args .respond (.respond (a.getLsbD 0) (args.getD 0 0) (args.getD 1 0) (Op.respond.dataArg args))
  | ladd (o : Option Word) (timeout : timeoutOf (a.getLsbD 1) (args.getD 1 0) = some o) :
      Reads a k args .ladd (.ladd (args.getD 0 0) o)
  | lrem : Reads a k args .lrem (.lrem k)
  | lrenew : Reads a k args .lrenew (.lrenew k)
  | lread : Reads a k args .lread (.lread k)

/-- A whole command builds what is read from it, exactly when its reserved bits and pad bytes are clear. -/
theorem build_eq_ok_iff {op : Op} {w : Word} {args : List Word} {i : Instr} :
    build op w args = .ok i ↔
      op.reservedClear w = true ∧ op.padsClear args = true ∧ Reads (fieldA w) (fieldS w) args op i := by
  have hpads : (op.hasData && !padClear (args.getD (op.fixedOperands - 1) 0).toNat (args.drop op.fixedOperands)) =
      !op.padsClear args := by simp [Op.padsClear]
  cases hr : op.reservedClear w with
  | false => simp [build, hr]
  | true =>
    simp only [build, hr, hpads]
    cases hp : op.padsClear args with
    | false => simp
    | true =>
      simp only [Bool.not_true, Bool.false_eq_true, if_false, true_and]
      constructor
      · intro h
        cases op with
        | query =>
          cases ht : timeoutOf ((fieldA w).getLsbD 1) (args.getD 2 0) with
          | none => simp only [ht, reduceCtorEq] at h
          | some o =>
            simp only [ht, Except.ok.injEq] at h
            exact h ▸ .query o ht
        | ladd =>
          cases ht : timeoutOf ((fieldA w).getLsbD 1) (args.getD 1 0) with
          | none => simp only [ht, reduceCtorEq] at h
          | some o =>
            simp only [ht, Except.ok.injEq] at h
            exact h ▸ .ladd o ht
        | _ => cases h; constructor
      · intro h
        cases h with
        | query o ht => simp only [ht]; rfl
        | ladd o ht => simp only [ht]
        | _ => rfl

/-- Some command is read from any operand words but those with an illegal timeout operand. -/
theorem exists_reads_iff {a : Byte} {k : BitVec 16} {args : List Word} {op : Op} :
    (∃ i, Reads a k args op i) ↔
      (op = .query → timeoutOf (a.getLsbD 1) (args.getD 2 0) ≠ none) ∧
      (op = .ladd → timeoutOf (a.getLsbD 1) (args.getD 1 0) ≠ none) := by
  constructor
  · rintro ⟨i, h⟩
    cases h with
    | query o ht => exact ⟨fun _ => by rw [ht]; exact Option.some_ne_none o, nofun⟩
    | ladd o ht => exact ⟨nofun, fun _ => by rw [ht]; exact Option.some_ne_none o⟩
    | _ => exact ⟨nofun, nofun⟩
  · rintro ⟨hq, hl⟩
    cases op with
    | query =>
      obtain ⟨o, ho⟩ := Option.ne_none_iff_exists'.1 (hq rfl)
      exact ⟨_, .query o ho⟩
    | ladd =>
      obtain ⟨o, ho⟩ := Option.ne_none_iff_exists'.1 (hl rfl)
      exact ⟨_, .ladd o ho⟩
    | _ => exact ⟨_, by constructor⟩

/-! ## The encoding of a command -/

/-- The operand words of a whole command with data, pad bytes clear, end in the operand of its byte sequence, which
fits (R71, R72). -/
theorem Op.args_eq_append_dataOperand {op : Op} {args : List Word} (hd : op.hasData = true)
    (hl : op.operandLength args = some args.length) (hp : op.padsClear args = true) :
    ∃ pre, pre.length + 1 = op.fixedOperands ∧ args = pre ++ dataOperand (op.dataArg args) ∧
      dataFits (op.dataArg args) = true := by
  obtain ⟨pre, n, ds, rfl, hpre, hds⟩ := Op.args_eq_append_of_data hd hl
  have hcount : (pre ++ n :: ds).getD (op.fixedOperands - 1) 0 = n := by simp [← hpre]
  have hdata : (pre ++ n :: ds).drop op.fixedOperands = ds := by simp [← hpre]
  rw [Op.padsClear, hd, hcount, hdata, Bool.not_true, Bool.false_or] at hp
  obtain ⟨hfits, hwords⟩ := dataOperand_dataBytes hds hp
  rw [Op.dataArg, hcount, hdata]
  exact ⟨pre, hpre, by rw [hwords], hfits⟩

/-- What is read from a whole command, reserved bits and pad bytes clear, is well formed and has those words as its
encoding (R71 to R73). -/
theorem encode_of_reads {op : Op} {a : Byte} {k : BitVec 16} {args : List Word} {i : Instr}
    (hl : op.operandLength args = some args.length) (ha : a &&& ~~~op.maskA = 0) (hk : op.usesS = false → k = 0)
    (hp : op.padsClear args = true) (h : Reads a k args op i) :
    i.wf = true ∧ encode i = commandWord op a k :: args := by
  cases h with
  | acceptByte | cfgr =>
    obtain rfl := List.length_eq_zero_iff.1 (Op.length_args_fixed rfl hl)
    obtain rfl := hk rfl
    exact ⟨rfl, rfl⟩
  | tick | resetParser =>
    obtain rfl := List.length_eq_zero_iff.1 (Op.length_args_fixed rfl hl)
    obtain rfl := eq_zero_of_maskA_zero a ha
    obtain rfl := hk rfl
    exact ⟨rfl, rfl⟩
  | lrem | lrenew | lread =>
    obtain rfl := List.length_eq_zero_iff.1 (Op.length_args_fixed rfl hl)
    obtain rfl := eq_zero_of_maskA_zero a ha
    exact ⟨rfl, rfl⟩
  | cfgw =>
    obtain ⟨v, rfl⟩ := List.length_eq_one_iff.1 (Op.length_args_fixed rfl hl)
    obtain rfl := hk rfl
    exact ⟨rfl, rfl⟩
  | ladd o ht =>
    obtain ⟨lid, t, rfl⟩ := List.length_eq_two.1 (Op.length_args_fixed rfl hl)
    obtain rfl := hk rfl
    obtain ⟨hflag, htime⟩ := timeoutOf_eq_some.1 ht
    rw [encode, hflag, flagsA_getLsbD_of_p a ha, htime]
    exact ⟨rfl, rfl⟩
  | cksum =>
    obtain ⟨pre, hpre, hargs, hfits⟩ := Op.args_eq_append_dataOperand rfl hl hp
    obtain rfl := List.length_eq_zero_iff.1 (Nat.succ.inj hpre)
    obtain rfl := hk rfl
    exact ⟨hfits, congrArg (_ :: ·) hargs.symm⟩
  | send | respond =>
    obtain ⟨pre, hpre, hargs, hfits⟩ := Op.args_eq_append_dataOperand rfl hl hp
    obtain ⟨fid, typ, rfl⟩ := List.length_eq_two.1 (Nat.succ.inj hpre)
    obtain rfl := hk rfl
    generalize Op.dataArg _ args = d at hargs hfits ⊢
    subst hargs
    rw [encode, flagsA_getLsbD_of_r a ha]
    exact ⟨hfits, rfl⟩
  | query o ht =>
    obtain ⟨pre, hpre, hargs, hfits⟩ := Op.args_eq_append_dataOperand rfl hl hp
    obtain ⟨fid, typ, t, rfl⟩ := List.length_eq_three.1 (Nat.succ.inj hpre)
    obtain rfl := hk rfl
    generalize Op.dataArg _ args = d at hargs hfits ⊢
    subst hargs
    obtain ⟨hflag, htime⟩ := timeoutOf_eq_some.1 ht
    rw [encode, hflag, flagsA_getLsbD a ha, htime]
    exact ⟨hfits, rfl⟩

/-- Settles O3: the words that decode are a whole command's, and what is read from them has them as its encoding. -/
theorem decodedWordsAreTheEncoding : Obligations.DecodedWordsAreTheEncoding := by
  intro ws i rest h
  obtain ⟨op, w, args, rfl, hc, hl, hb⟩ := decode_eq_instr_iff.1 h
  obtain ⟨hr, hp, hreads⟩ := build_eq_ok_iff.1 hb
  obtain ⟨ha, hk⟩ := Op.reservedClear_iff.1 hr
  obtain ⟨hwf, henc⟩ := encode_of_reads hl ha hk hp hreads
  rw [commandWord_fields hc] at henc
  exact ⟨hwf, by rw [henc, List.cons_append]⟩

/-- Operand words that end in the operand of a byte sequence that fits are a whole command's, with pad bytes clear, and
the sequence is read back from them (R71, R72, R86). -/
theorem Op.operands_append_dataOperand {op : Op} {pre : List Word} {d : List Byte} (hd : op.hasData = true)
    (hpre : pre.length + 1 = op.fixedOperands) (hfits : dataFits d = true) :
    op.operandLength (pre ++ dataOperand d) = some (pre ++ dataOperand d).length ∧
      op.padsClear (pre ++ dataOperand d) = true ∧ op.dataArg (pre ++ dataOperand d) = d := by
  have hcount : (pre ++ dataOperand d)[op.fixedOperands - 1]? = some (BitVec.ofNat 32 d.length) := by
    simp [← hpre, dataOperand]
  have hn : ((pre ++ dataOperand d).getD (op.fixedOperands - 1) 0).toNat = d.length := by
    rw [List.getD_eq_getElem?_getD, hcount, Option.getD_some, toNat_countWord hfits]
  have hdata : (pre ++ dataOperand d).drop op.fixedOperands = packWords d := by simp [← hpre, dataOperand]
  refine ⟨?_, ?_, ?_⟩
  · rw [Op.operandLength_data hd hfits hcount, List.length_append, dataOperand, List.length_cons, length_packWords]
    congr 1
    omega
  · simp only [Op.padsClear, hn, hdata, padClear_packWords, Bool.or_true]
  · simp only [Op.dataArg, hn, hdata, dataBytes_packWords]

/-- Words put together from fields and operand words with reserved bits and pad bytes clear decode to the command read
from them. -/
theorem decode_commandWord {op : Op} {a : Byte} {k : BitVec 16} {args : List Word} {i : Instr} (rest : List Word)
    (hl : op.operandLength args = some args.length) (ha : a &&& ~~~op.maskA = 0) (hk : op.usesS = false → k = 0)
    (hp : op.padsClear args = true) (h : Reads a k args op i) :
    decode (commandWord op a k :: (args ++ rest)) = .instr i rest := by
  have hr : op.reservedClear (commandWord op a k) = true := by
    rw [Op.reservedClear_iff, fieldA_commandWord, fieldS_commandWord]
    exact ⟨ha, hk⟩
  refine decode_of_build_ok (fieldOpc_commandWord op a k).symm hl (build_eq_ok_iff.2 ⟨hr, hp, ?_⟩) rest
  rwa [fieldA_commandWord, fieldS_commandWord]

/-- The same for an operation with data, where the byte sequence is read back from its operand. -/
theorem decode_commandWord_data {op : Op} {a : Byte} {pre : List Word} {d : List Byte} {i : Instr} (rest : List Word)
    (hd : op.hasData = true) (hpre : pre.length + 1 = op.fixedOperands) (hfits : dataFits d = true)
    (ha : a &&& ~~~op.maskA = 0)
    (h : op.dataArg (pre ++ dataOperand d) = d → Reads a 0 (pre ++ dataOperand d) op i) :
    decode (commandWord op a 0 :: (pre ++ dataOperand d ++ rest)) = .instr i rest := by
  obtain ⟨hl, hp, hdata⟩ := Op.operands_append_dataOperand hd hpre hfits
  exact decode_commandWord rest hl ha (fun _ => rfl) hp (h hdata)

/-- Settles O2: each command is read back from the operand words of its encoding. -/
theorem decodeOfEncodeIsTheCommand : Obligations.DecodeOfEncodeIsTheCommand := by
  intro i rest hwf
  cases i with
  | acceptByte b => exact decode_commandWord (args := []) rest rfl (and_not_allOnes b) (fun _ => rfl) rfl .acceptByte
  | tick => exact decode_commandWord (args := []) rest rfl rfl (fun _ => rfl) rfl .tick
  | resetParser => exact decode_commandWord (args := []) rest rfl rfl (fun _ => rfl) rfl .resetParser
  | cfgw r v => exact decode_commandWord (args := [v]) rest rfl (and_not_allOnes r) (fun _ => rfl) rfl .cfgw
  | cfgr r => exact decode_commandWord (args := []) rest rfl (and_not_allOnes r) (fun _ => rfl) rfl .cfgr
  | cksum c d =>
    refine decode_commandWord_data (pre := []) rest rfl rfl hwf (and_not_allOnes c) fun hd => ?_
    have h := Reads.cksum (a := c) (k := 0) (args := [] ++ dataOperand d)
    rw [hd] at h
    exact h
  | send r f y d =>
    refine decode_commandWord_data (pre := [f, y]) rest rfl rfl hwf (flagsA_and_not_mask r false).1 fun hd => ?_
    have h := Reads.send (a := flagsA r false) (k := 0) (args := [f, y] ++ dataOperand d)
    rw [hd, getLsbD_flagsA_zero] at h
    exact h
  | query r f y o d =>
    refine decode_commandWord_data (pre := [f, y, o.getD 0]) rest rfl rfl hwf (flagsA_and_not_mask r o.isSome).2.2
      fun hd => ?_
    have h := Reads.query (a := flagsA r o.isSome) (k := 0) (args := [f, y, o.getD 0] ++ dataOperand d) o
      (timeoutOf_eq_some.2 ⟨(getLsbD_flagsA_one r o.isSome).symm, rfl⟩)
    rw [hd, getLsbD_flagsA_zero] at h
    exact h
  | respond r f y d =>
    refine decode_commandWord_data (pre := [f, y]) rest rfl rfl hwf (flagsA_and_not_mask r false).1 fun hd => ?_
    have h := Reads.respond (a := flagsA r false) (k := 0) (args := [f, y] ++ dataOperand d)
    rw [hd, getLsbD_flagsA_zero] at h
    exact h
  | ladd l o =>
    have ht := timeoutOf_eq_some.2 ⟨(getLsbD_flagsA_one false o.isSome).symm, rfl⟩
    exact decode_commandWord (args := [l, o.getD 0]) rest rfl (flagsA_and_not_mask false o.isSome).2.1 (fun _ => rfl)
      rfl (.ladd o ht)
  | lrem k => exact decode_commandWord (args := []) rest rfl rfl nofun rfl .lrem
  | lrenew k => exact decode_commandWord (args := []) rest rfl rfl nofun rfl .lrenew
  | lread k => exact decode_commandWord (args := []) rest rfl rfl nofun rfl .lread

/-- Settles O1: the fourteen literal word lists are evaluated. -/
theorem writtenWordsDecode : Obligations.WrittenWordsDecode := by
  unfold Obligations.WrittenWordsDecode
  decide

end Sys2Proof
end

section
/-! PROOFS. Illegal encodings (R75): the illegal fields are exactly what a whole command does not build with. -/

namespace Sys2Proof.Machine

/-- No operation has the code: the opcode names none (R74). -/
theorem ofCode?_eq_none {c : Byte} : Op.ofCode? c = none ↔ ∀ op : Op, op.code ≠ c := by
  simp only [← Op.ofCode?_eq_some, Option.eq_none_iff_forall_ne_some, ne_eq]

/-- A step rejects the illegal encoding at the head of the delivered words, whatever makes it illegal. -/
theorem step_of_decode_illegal {s : State} {why : Illegal} {rest : List Word} (hr : s.resetIn = false)
    (hd : decode s.input = .illegal why rest) : step s = .next ((s.setInput rest).reply .illegalCmd [] []) := by
  simp [step, State.nextCommand, hr, hd, rejectCommand, raise]

/-- A byte is within a mask exactly when it sets no bit outside it. -/
theorem and_not_eq_zero_iff {a m : Byte} : a &&& ~~~m = 0 ↔ ∀ j, m.getLsbD j = false → a.getLsbD j = false := by
  constructor
  · intro h j hm
    have hbit : (a &&& ~~~m).getLsbD j = false := h ▸ BitVec.getLsbD_zero
    rcases Nat.lt_or_ge j 8 with hj | hj
    · rwa [BitVec.getLsbD_and, BitVec.getLsbD_not, hm, decide_eq_true hj, Bool.not_false, Bool.and_true,
        Bool.and_true] at hbit
    · exact BitVec.getLsbD_of_ge a j hj
  · intro h
    apply BitVec.eq_of_getLsbD_eq
    intro j hj
    cases hm : m.getLsbD j with
    | false => simp [h j hm]
    | true => simp [hm]

/-- The pad bytes are the bytes of the data words from position N on (R72). -/
theorem padsClear_iff {op : Op} {args : List Word} :
    op.padsClear args = true ↔ (op.hasData = true →
      ∀ j b, (args.getD (op.fixedOperands - 1) 0).toNat ≤ j →
        ((args.drop op.fixedOperands).flatMap wordBytes)[j]? = some b → b = 0) := by
  cases hd : op.hasData with
  | false => simp [Op.padsClear, hd]
  | true =>
    simp only [Op.padsClear, padClear, hd, Bool.not_true, Bool.false_or, List.all_eq_true, beq_iff_eq, true_imp_iff,
      List.mem_iff_getElem?, List.getElem?_drop]
    constructor
    · intro h j b hj hb
      obtain ⟨m, rfl⟩ := Nat.exists_eq_add_of_le hj
      exact h b ⟨m, hb⟩
    · rintro h b ⟨m, hb⟩
      exact h _ b (Nat.le_add_right _ m) hb

/-- The flag P is bit 9 of the command word (R70, R71). -/
theorem getLsbD_fieldA_one (w : Word) : (fieldA w).getLsbD 1 = w.getLsbD 9 := by simp [fieldA]

/-- R75's illegal fields are exactly what a command does not build with. -/
theorem exists_build_ok_iff_not_illegalFields {op : Op} {w : Word} {args : List Word} :
    (∃ i, build op w args = .ok i) ↔ ¬ IllegalFields op w args := by
  simp only [build_eq_ok_iff, exists_and_left, exists_reads_iff, Op.reservedClear_iff, and_not_eq_zero_iff,
    padsClear_iff, ne_eq, timeoutOf_eq_none, getLsbD_fieldA_one]
  constructor
  · rintro ⟨⟨ha, hs⟩, hp, hq, hl⟩ h
    cases h with
    | reservedA j used set => exact absurd (ha j used) (by rw [set]; decide)
    | reservedS unused set => exact set (hs unused)
    | queryTimeout isOp p t => exact hq isOp ⟨p, t⟩
    | laddTimeout isOp p t => exact hl isOp ⟨p, t⟩
    | pad data j b past at_ nonzero => exact nonzero (hp data j b past at_)
  · intro h
    refine ⟨⟨fun j used => ?_, fun unused => ?_⟩, fun data j b past at_ => ?_, ?_, ?_⟩
    · exact Bool.eq_false_iff.2 fun set => h (.reservedA j used set)
    · exact by_contra fun set => h (.reservedS unused set)
    · exact by_contra fun nonzero => h (.pad data j b past at_ nonzero)
    · exact fun isOp ⟨p, t⟩ => h (.queryTimeout isOp p t)
    · exact fun isOp ⟨p, t⟩ => h (.laddTimeout isOp p t)

/-- Settles O4: the decoder finds an unassigned opcode or an illegal field, and the step rejects it. -/
theorem illegalEncodingsReturnIllegalCmd : Obligations.IllegalEncodingsReturnIllegalCmd := by
  refine fun s w hr => ⟨fun ops hop hin => ?_, fun op args rest hc hl hill hin => ?_⟩
  · have hnone : Op.ofCode? (fieldOpc w) = none := ofCode?_eq_none.2 hop
    exact step_of_decode_illegal hr (why := .unassignedOpcode) (by rw [hin]; simp [decode, hnone])
  · cases hb : build op w args with
    | error why => exact step_of_decode_illegal hr (by rw [hin]; exact decode_of_build_error hc hl hb rest)
    | ok i => exact absurd hill (exists_build_ok_iff_not_illegalFields.1 ⟨i, hb⟩)

/-- Settles O5: with no illegal field a whole command builds, and decodes to what it builds. -/
theorem legalEncodingsAreCommands : Obligations.LegalEncodingsAreCommands := by
  intro op w args rest hc hl hlegal
  obtain ⟨i, hb⟩ := exists_build_ok_iff_not_illegalFields.2 hlegal
  exact ⟨i, decode_of_build_ok hc hl hb rest⟩

end Sys2Proof.Machine
end

section
/-! PROOFS. The length of a frame (R81), part by part. -/

namespace Sys2Proof.Machine

@[simp] theorem length_cksumField (k : CksumDefs) (c : CksumSel) (d : List Byte) :
    (cksumField k c d).length = cksize c := by
  simp [cksumField]

@[simp] theorem length_sofField (c : CfgRegs) : (sofField c).length = if c.sofEn then 1 else 0 := by
  cases h : c.sofEn <;> simp [sofField, h]

@[simp] theorem length_headerBytes (c : CfgRegs) (id typ : Word) (n : Nat) :
    (headerBytes c id typ n).length = c.idSize.toNat + c.lenSize.toNat + c.typeSize.toNat := by
  simp [headerBytes, Nat.add_assoc]

theorem length_frameHead (k : CksumDefs) (c : CfgRegs) (id typ : Word) (n : Nat) :
    (frameHead k c id typ n).length = (if c.sofEn then 1 else 0) +
      (c.idSize.toNat + c.lenSize.toNat + c.typeSize.toNat) + cksize c.cksumSel := by
  simp [frameHead, Nat.add_assoc]

theorem length_frameTail (k : CksumDefs) (c : CfgRegs) (d : List Byte) :
    (frameTail k c d).length = d.length + if 0 < d.length then cksize c.cksumSel else 0 := by
  by_cases h : 0 < d.length <;> simp [frameTail, h]

/-- R81's formula. -/
theorem length_frameBytes (k : CksumDefs) (c : CfgRegs) (id typ : Word) (d : List Byte) :
    (frameBytes k c id typ d).length =
      (if c.sofEn then 1 else 0) + c.idSize.toNat + c.lenSize.toNat + c.typeSize.toNat + cksize c.cksumSel +
        d.length + (if 0 < d.length then cksize c.cksumSel else 0) := by
  rw [frameBytes, List.length_append, length_frameHead, length_frameTail]
  omega

/-- Settles O19: the formula is the sum over the frame's parts, the minimum and the default length values of it. -/
theorem frameLengthFormula : Obligations.FrameLengthFormula := by
  intro k c id typ d
  refine ⟨length_frameBytes k c id typ d, fun h => ?_, fun he hi hl ht hk => ?_, fun he hi hl ht hk => ?_⟩
  · obtain ⟨hi, hl, ht⟩ := h
    rw [length_frameBytes]
    omega
  · simp [length_frameBytes, he, hi, hl, ht, hk, cksize]
  · simp [length_frameBytes, he, hi, hl, ht, hk, cksize]

end Sys2Proof.Machine
end

section
/-! PROOFS. The checksum engine (40_checksum.md): the width of a checksum, the command CKSUM, the default algorithms,
and the least-significant-bit-first loop as the mirror image of R110's computation. -/

namespace Sys2Proof.Machine

/-! ## Width -/

/-- Whatever width it is moved to, a value stays within the width it came from. -/
theorem toNat_setWidth_lt {w : Nat} (v : Nat) (x : BitVec w) : (x.setWidth v).toNat < 2 ^ w :=
  calc (x.setWidth v).toNat = x.toNat % 2 ^ v := BitVec.toNat_setWidth v x
    _ ≤ x.toNat := Nat.mod_le _ _
    _ < 2 ^ w := x.isLt

/-- Settles O15: a checksum is a value of its algorithm's own width, widened; that of NONE is 0. -/
theorem checksumFitsItsWidth : Obligations.ChecksumFitsItsWidth := by
  intro k c d
  cases c with
  | nosum => exact Nat.one_pos
  | xor => exact toNat_setWidth_lt 32 (xorSum k.xorOut d)
  | crc8 => exact toNat_setWidth_lt 32 (crc k.crc8 d)
  | crc16 => exact toNat_setWidth_lt 32 (crc k.crc16 d)
  | crc32 => exact (crc k.crc32 d).isLt

/-! ## The command CKSUM -/

/-- Only the values above 4 select no algorithm (R100). -/
theorem CksumSel.ofCode?_eq_none {n : Nat} : CksumSel.ofCode? n = none ↔ 4 < n := by
  match n with
  | 0 | 1 | 2 | 3 | 4 => simp [CksumSel.ofCode?]
  | n + 5 => simp [CksumSel.ofCode?]

/-- Settles O14: a code names its selector, and a number above 4 names none. -/
theorem cksumReturnsTheChecksum : Obligations.CksumReturnsTheChecksum := by
  refine fun s sel d => ⟨fun c hc => ?_, fun hs => ?_⟩
  · exact execCksum_eq_next.2 (.inr ⟨c, hc ▸ CksumSel.ofCode?_code c, rfl⟩)
  · exact execCksum_eq_next.2 (.inl ⟨CksumSel.ofCode?_eq_none.2 hs, rfl⟩)

/-! ## The least-significant-bit-first loop -/

/-- One bit of the least-significant-bit-first loop of R110. -/
def crcBitLsb {w : Nat} (p c : BitVec w) : BitVec w := if c.getLsbD 0 then (c >>> 1) ^^^ p else c >>> 1

theorem crcBits_eq_iterate {w : Nat} (poly : BitVec w) (n : Nat) (c : BitVec w) :
    crcBits poly n c = (crcBit poly)^[n] c := by
  induction n generalizing c with
  | zero => rfl
  | succ n ih => exact ih (crcBit poly c)

theorem crcByteLsb_eq_iterate {w : Nat} (p c : BitVec w) (b : Byte) :
    crcByteLsb p c b = (crcBitLsb p)^[8] (c ^^^ b.setWidth w) := rfl

theorem reverse_xor {w : Nat} (x y : BitVec w) : (x ^^^ y).reverse = x.reverse ^^^ y.reverse := by
  ext i hi
  simp only [BitVec.getElem_xor, BitVec.getElem_reverse, BitVec.getMsbD_xor]

theorem reverse_shiftLeft_one {w : Nat} (x : BitVec w) : (x <<< 1).reverse = x.reverse >>> 1 := by
  ext i hi
  simp only [BitVec.getElem_reverse, BitVec.getElem_ushiftRight, BitVec.getLsbD_reverse, BitVec.getMsbD_shiftLeft,
    Nat.add_comm]

/-- Mirrored, a byte moved to the top of the register is the mirrored byte at its bottom. -/
theorem reverse_shiftLeft_setWidth {w : Nat} (hw : 8 ≤ w) (b : Byte) :
    (b.setWidth w <<< (w - 8)).reverse = b.reverse.setWidth w := by
  ext i hi
  simp only [BitVec.getElem_reverse, BitVec.getMsbD_shiftLeft, BitVec.getMsbD_setWidth, BitVec.getElem_setWidth,
    BitVec.getLsbD_reverse]
  have hpos : i + (w - 8) + 8 - w = i := by omega
  simp [hpos]

/-- The two loops are mirror images bit by bit. -/
theorem reverse_semiconj_crcBit {w : Nat} (poly : BitVec w) :
    Function.Semiconj BitVec.reverse (crcBit poly) (crcBitLsb poly.reverse) := by
  intro c
  have hbit : c.reverse.getLsbD 0 = c.msb := BitVec.getLsbD_reverse
  cases h : c.msb with
  | false => simp [crcBit, crcBitLsb, hbit, h, reverse_shiftLeft_one]
  | true => simp [crcBit, crcBitLsb, hbit, h, reverse_xor, reverse_shiftLeft_one]

/-- The two loops are mirror images byte by byte when the input is reflected. -/
theorem reverse_crcByte {w : Nat} {k : CrcDef w} (hw : 8 ≤ w) (hin : k.refin = true) (c : BitVec w) (b : Byte) :
    (crcByte k c b).reverse = crcByteLsb k.poly.reverse c.reverse b :=
  calc (crcByte k c b).reverse
      = ((crcBit k.poly)^[8] (c ^^^ (b.reverse.setWidth w <<< (w - 8)))).reverse := by
        simp only [crcByte, hin, if_true, crcBits_eq_iterate]
    _ = (crcBitLsb k.poly.reverse)^[8] (c ^^^ (b.reverse.setWidth w <<< (w - 8))).reverse :=
        (reverse_semiconj_crcBit k.poly).iterate_right 8 _
    _ = crcByteLsb k.poly.reverse c.reverse b := by
        rw [reverse_xor, reverse_shiftLeft_setWidth hw, BitVec.reverse_reverse_eq, crcByteLsb_eq_iterate]

/-- Settles O17: bytes in turn, the register of one loop stays the mirror image of the other's. -/
theorem reflectedCrcEqualsTheLsbFirstLoop : Obligations.ReflectedCrcEqualsTheLsbFirstLoop := by
  intro w k d hw hin hout hinit
  have hfold : d.foldl (crcByteLsb k.poly.reverse) k.init.reverse = (d.foldl (crcByte k) k.init).reverse :=
    List.foldl_hom BitVec.reverse fun c b => (reverse_crcByte hw hin c b).symm
  rw [hinit] at hfold
  simp only [crc, crcLsb, hout, if_true, hfold]

/-! ## The default algorithms -/

/-- Settles O16: the eight checksums are evaluated. -/
theorem defaultChecksumsHaveTheirCheckValues : Obligations.DefaultChecksumsHaveTheirCheckValues := by
  unfold Obligations.DefaultChecksumsHaveTheirCheckValues
  decide +kernel

end Sys2Proof.Machine
end

section
/-! PROOFS. The serializer (41_serializer.md): how a frame is cut into pieces, which ID a frame carries, and what each
command hands back, said once; from these the transmitting commands and the events of every command. -/

namespace Sys2Proof.Machine

/-! ## Pieces of a frame (R128) -/

section
variable {n : Nat} (hn : 0 < n)
include hn

/-- With fuel for every byte nothing is left over: the pieces put together are what was cut. -/
theorem flatten_pieces (fuel : Nat) (l : List Byte) (h : l.length ≤ fuel) : (pieces n fuel l).flatten = l := by
  induction fuel generalizing l with
  | zero =>
    obtain rfl : l = [] := by simpa using h
    rfl
  | succ fuel ih =>
    cases l with
    | nil => rfl
    | cons b l =>
      have hrest : ((b :: l).drop n).length ≤ fuel := by simp at h ⊢; omega
      simp [pieces, ih _ hrest]

theorem length_of_mem_pieces {fuel : Nat} {l p : List Byte} (h : p ∈ pieces n fuel l) :
    1 ≤ p.length ∧ p.length ≤ n := by
  induction fuel generalizing l with
  | zero => simp [pieces] at h
  | succ fuel ih =>
    cases l with
    | nil => simp [pieces] at h
    | cons b l =>
      rcases List.mem_cons.1 h with rfl | h
      · simp; omega
      · exact ih h

end

/-- A piece with another after it has the full size: bytes were left over. -/
theorem length_of_mem_dropLast_pieces {n fuel : Nat} {l p : List Byte} (h : p ∈ (pieces n fuel l).dropLast) :
    p.length = n := by
  induction fuel generalizing l with
  | zero => simp [pieces] at h
  | succ fuel ih =>
    cases l with
    | nil => simp [pieces] at h
    | cons b l =>
      by_cases hlast : pieces n fuel ((b :: l).drop n) = []
      · simp [pieces, hlast] at h
      · have hleft : n < (b :: l).length := by
          by_contra hle
          rw [List.drop_eq_nil_of_le (by omega)] at hlast
          cases fuel <;> exact hlast rfl
        have h' : p ∈ (b :: l).take n :: (pieces n fuel ((b :: l).drop n)).dropLast := by
          rwa [← List.dropLast_cons_of_ne_nil hlast]
        rcases List.mem_cons.1 h' with rfl | h'
        · exact List.length_take_of_le (by omega)
        · exact ih h'

theorem chunks_zero (f : List Byte) : chunks 0 f = [f] := rfl

theorem chunks_of_ne_zero {size : Word} (h : size ≠ 0) (f : List Byte) :
    chunks size f = pieces size.toNat f.length f :=
  if_neg h

/-- Settles O20: CHUNK_SIZE = 0 makes one piece, and any other size cuts as `pieces` does. -/
theorem chunksCutTheFrameExactly : Obligations.ChunksCutTheFrameExactly := by
  intro size f _
  by_cases hs : size = 0
  · subst hs
    exact ⟨List.flatten_singleton, fun _ => chunks_zero f, fun h => absurd rfl h⟩
  · have hpos : 0 < size.toNat := BitVec.toNat_pos_of_ne_zero hs
    rw [chunks_of_ne_zero hs]
    exact ⟨flatten_pieces hpos _ f (Nat.le_refl _), fun h => absurd h hs,
      fun _ => ⟨fun _ hp => length_of_mem_dropLast_pieces hp, fun _ hp => length_of_mem_pieces hpos hp⟩⟩

/-! ## The ID of a frame (R120, R121) -/

/-- A response's ID is FID cut to the field (R120), whatever the field's width. -/
theorem toNat_responseId (c : CfgRegs) (fid : Word) :
    (responseId c fid).toNat = fid.toNat % 2 ^ (8 * c.idSize.toNat) := by
  have hle : fid.toNat % 2 ^ (8 * c.idSize.toNat) ≤ fid.toNat := Nat.mod_le _ _
  simp only [responseId, lowBytes, BitVec.toNat_ofNat]
  exact Nat.mod_eq_of_lt (Nat.lt_of_le_of_lt hle fid.isLt)

section
variable {c : CfgRegs} (hc : 1 ≤ c.idSize.toNat ∧ c.idSize.toNat ≤ 4)
include hc

/-- An ID field of a legal width fits a word. -/
theorem idField_le_word : 2 ^ (8 * c.idSize.toNat) ≤ 2 ^ 32 :=
  Nat.pow_le_pow_right (by decide) (by omega)

/-- The values of an ID field are the two halves its top bit selects. -/
theorem idField_eq_two_halves : 2 ^ (8 * c.idSize.toNat) = 2 * 2 ^ (8 * c.idSize.toNat - 1) := by
  rw [← Nat.pow_succ', Nat.succ_eq_add_one, Nat.sub_one_add_one (by omega)]

/-- The counter's low bits with the peer bit above them are a value of the ID field. -/
theorem stampedValue_lt (v : Word) :
    v.toNat % 2 ^ (8 * c.idSize.toNat - 1) + c.peer.toNat * 2 ^ (8 * c.idSize.toNat - 1) <
      2 ^ (8 * c.idSize.toNat) := by
  have hlow := Nat.mod_lt v.toNat (Nat.two_pow_pos (8 * c.idSize.toNat - 1))
  have hpeer : c.peer.toNat * 2 ^ (8 * c.idSize.toNat - 1) ≤ 1 * 2 ^ (8 * c.idSize.toNat - 1) :=
    Nat.mul_le_mul_right _ (Nat.le_of_lt_succ c.peer.isLt)
  rw [idField_eq_two_halves hc]
  omega

/-- Stamping adds PEER as the field's top bit, which the counter's low bits leave clear (R121). -/
theorem toNat_allocatedId (v : Word) :
    (allocatedId c v).toNat = v.toNat % 2 ^ (8 * c.idSize.toNat - 1) +
      c.peer.toNat * 2 ^ (8 * c.idSize.toNat - 1) := by
  have hlow := Nat.mod_lt v.toNat (Nat.two_pow_pos (8 * c.idSize.toNat - 1))
  have hcut : v.toNat % 2 ^ (8 * c.idSize.toNat) % 2 ^ (8 * c.idSize.toNat - 1) =
      v.toNat % 2 ^ (8 * c.idSize.toNat - 1) := Nat.mod_mod_of_dvd _ (Nat.pow_dvd_pow 2 (Nat.sub_le _ 1))
  simp only [allocatedId, hcut, BitVec.toNat_ofNat]
  rw [Nat.or_comm, ← Nat.shiftLeft_add_eq_or_of_lt hlow, Nat.shiftLeft_eq, Nat.add_comm]
  exact Nat.mod_eq_of_lt (Nat.lt_of_lt_of_le (stampedValue_lt hc v) (idField_le_word hc))

/-- An allocated ID fits its field. -/
theorem allocatedId_lt (v : Word) : (allocatedId c v).toNat < 2 ^ (8 * c.idSize.toNat) := by
  rw [toNat_allocatedId hc]
  exact stampedValue_lt hc v

/-- PEER 0 allocates in the lower half of the field. -/
theorem allocatedId_lt_half (hp : c.peer = 0) (v : Word) :
    (allocatedId c v).toNat < 2 ^ (8 * c.idSize.toNat - 1) := by
  rw [toNat_allocatedId hc, hp]
  simpa using Nat.mod_lt _ (Nat.two_pow_pos _)

/-- PEER 1 allocates in the upper half of the field. -/
theorem half_le_allocatedId (hp : c.peer = 1) (v : Word) :
    2 ^ (8 * c.idSize.toNat - 1) ≤ (allocatedId c v).toNat := by
  rw [toNat_allocatedId hc, hp]
  simp

/-- The counter advances within the field, wrapping at its end (R121). -/
theorem toNat_advancedId (v : Word) :
    (advancedId c v).toNat = (v.toNat + 1) % 2 ^ (8 * c.idSize.toNat) := by
  have hlt : (v.toNat + 1) % 2 ^ (8 * c.idSize.toNat) < 2 ^ (8 * c.idSize.toNat) := Nat.mod_lt _ (Nat.two_pow_pos _)
  simp only [advancedId, Nat.mod_add_mod, BitVec.toNat_ofNat]
  exact Nat.mod_eq_of_lt (Nat.lt_of_lt_of_le hlt (idField_le_word hc))

end

/-- A response to an ID that fits the field carries it unchanged (R120). -/
theorem responseId_of_lt {c : CfgRegs} {id : Word} (h : id.toNat < 2 ^ (8 * c.idSize.toNat)) : responseId c id = id :=
  BitVec.eq_of_toNat_eq (by rw [toNat_responseId, Nat.mod_eq_of_lt h])

/-! ## The transmitting commands -/

theorem lenOverflows_eq_false {c : CfgRegs} {d : List Byte} : lenOverflows c d.length = false ↔ c.Fits d := by
  simp [lenOverflows, CfgRegs.Fits]

/-- A frame that fits is transmitted, with the ID chosen for it (R125, R127). -/
theorem sendFrame_of_fits {s : State} {d : List Byte} (h : s.cfg.Fits d) (resp : Bool) (fid typ : Word) :
    sendFrame resp fid typ d s = .next ((s.setNextId (nextIdAfter resp s)).reply .ok [frameIdOf resp fid s]
      (txEvents s.cfg (frameBytes s.params.cksumDefs s.cfg (frameIdOf resp fid s) typ d))) :=
  sendFrame_eq_next.2 (.inr ⟨lenOverflows_eq_false.2 h, rfl⟩)

/-- Settles O21: an allocation that fits, its ID and the counter as arithmetic. -/
theorem sendAllocatesStampsAndTransmits : Obligations.SendAllocatesStampsAndTransmits := fun s fid typ _ hc hf =>
  ⟨allocatedId s.cfg s.nextId, advancedId s.cfg s.nextId, toNat_allocatedId hc.idSize _, toNat_advancedId hc.idSize _,
    sendFrame_of_fits hf false fid typ⟩

/-- Settles O22: RESPOND is SEND with R = 1, and a response leaves NEXT_ID alone. -/
theorem responsesCarryTheRequestsId : Obligations.ResponsesCarryTheRequestsId := by
  intro s flag fid typ d hf
  have hsend := sendFrame_of_fits hf true fid typ
  rw [nextIdAfter_true, State.setNextId_self] at hsend
  refine ⟨responseId s.cfg fid, toNat_responseId s.cfg fid, fun i hi => ?_⟩
  simp only [List.mem_cons, List.not_mem_nil, or_false] at hi
  rcases hi with rfl | rfl
  · exact hsend
  · exact hsend

/-- Settles O23: QUERY transmits SEND's frame and writes the listener into the lowest free slot, and that slot only. -/
theorem queryListensAndTransmits : Obligations.QueryListensAndTransmits := by
  intro s resp fid typ t d k hf hr hfree hlow
  have hk := freeSlot?_of_lowest hr hfree hlow
  obtain ⟨-, -, hgap, -⟩ := freeSlot?_eq_some hk
  refine ⟨frameIdOf resp fid s, nextIdAfter resp s, putSlot s.slots k (listenSlot (frameIdOf resp fid s) t), _,
    sendFrame_of_fits hf resp fid typ,
    execQuery_eq_next.2 (.inr (.inr ⟨k, lenOverflows_eq_false.2 hf, hk, rfl⟩)), ?_, fun j hj => ?_⟩
  · rw [slotAt_putSlot hgap, if_pos rfl, listenSlot]
  · rw [slotAt_putSlot hgap, if_neg hj]

/-! ## The parser's independence (R131) -/

section
variable {s t : State} (p : Parser)

theorem sendFrame_setParser {resp : Bool} {fid typ : Word} {d : List Byte} (h : sendFrame resp fid typ d s = .next t) :
    sendFrame resp fid typ d (s.setParser p) = .next (t.setParser p) := by
  rcases sendFrame_eq_next.1 h with ⟨hl, rfl⟩ | ⟨hl, rfl⟩
  · exact sendFrame_eq_next.2 (.inl ⟨hl, rfl⟩)
  · exact sendFrame_eq_next.2 (.inr ⟨hl, rfl⟩)

theorem execQuery_setParser {resp : Bool} {fid typ : Word} {o : Option Word} {d : List Byte}
    (h : execQuery resp fid typ o d s = .next t) :
    execQuery resp fid typ o d (s.setParser p) = .next (t.setParser p) := by
  rcases execQuery_eq_next.1 h with ⟨hl, rfl⟩ | ⟨hl, hk, rfl⟩ | ⟨k, hl, hk, rfl⟩
  · exact execQuery_eq_next.2 (.inl ⟨hl, rfl⟩)
  · exact execQuery_eq_next.2 (.inr (.inl ⟨hl, hk, rfl⟩))
  · exact execQuery_eq_next.2 (.inr (.inr ⟨k, hl, hk, rfl⟩))

/-- Whatever parser stands in the state, a transmitting command does the same around it. -/
theorem exec_setParser_of_transmits {i : Instr} {typ : Word} {d : List Byte} (hi : Transmits i typ d)
    (h : exec i s = .next t) : exec i (s.setParser p) = .next (t.setParser p) := by
  rcases hi with ⟨r, f, rfl⟩ | ⟨r, f, o, rfl⟩ | ⟨r, f, rfl⟩
  · exact sendFrame_setParser p h
  · exact execQuery_setParser p h
  · exact sendFrame_setParser p h

end

/-- Settles O26: with the parser the state holds already in its place, the same command ends with that parser. -/
theorem serializerIgnoresTheParser : Obligations.SerializerIgnoresTheParser := by
  intro s t i typ d p hi h
  have hsame : t = t.setParser s.parser :=
    Host.Outcome.next.inj (h.symm.trans (exec_setParser_of_transmits s.parser hi h))
  exact ⟨(congrArg State.parser hsame :), exec_setParser_of_transmits p hi h⟩

/-! ## What each command hands back (R77, R129) -/

/-- What a transmitting command asks to be sent, RESPOND's flag read as 1 (R127). -/
structure Message where
  resp : Bool
  fid  : Word
  typ  : Word
  data : List Byte

/-- The message of a transmitting command. -/
def message? : Instr → Option Message
  | .send r f y d => some ⟨r, f, y, d⟩
  | .query r f y _ d => some ⟨r, f, y, d⟩
  | .respond _ f y d => some ⟨true, f, y, d⟩
  | .acceptByte _ | .tick | .resetParser | .cfgw _ _ | .cfgr _ | .cksum _ _ | .ladd _ _ | .lrem _ | .lrenew _
  | .lread _ => none

/-- The commands with a message are the transmitting ones. -/
theorem transmits_iff {i : Instr} {y : Word} {d : List Byte} :
    Transmits i y d ↔ ∃ r f, message? i = some ⟨r, f, y, d⟩ := by
  constructor
  · rintro (⟨r, f, rfl⟩ | ⟨r, f, o, rfl⟩ | ⟨r, f, rfl⟩) <;> exact ⟨_, _, rfl⟩
  · rintro ⟨r, f, h⟩
    cases i with
    | send => cases h; exact .inl ⟨_, _, rfl⟩
    | query => cases h; exact .inr (.inl ⟨_, _, _, rfl⟩)
    | respond => cases h; exact .inr (.inr ⟨_, _, rfl⟩)
    | _ => cases h

/-- The ID chosen for a message (R120, R121). -/
def Message.idIn (m : Message) (s : State) : Word := frameIdOf m.resp m.fid s

/-- The events of a message's transmission (R129). -/
def Message.eventsIn (m : Message) (s : State) : List Event :=
  txEvents s.cfg (frameBytes s.params.cksumDefs s.cfg (m.idIn s) m.typ m.data)

/-- The responses a command can hand back: an error with nothing, a transmission, a byte accepted, or values alone. -/
inductive Answers (s : State) (i : Instr) : Response → Prop
  | failed (st : Status) (error : st ≠ .ok) : Answers s i ⟨st, [], []⟩
  | transmitted (m : Message) (message : message? i = some m) (vals : List Word) :
      Answers s i ⟨.ok, m.idIn s :: vals, m.eventsIn s⟩
  | accepted (b : Byte) (byte : i = .acceptByte b) (evs : List Event)
      (atMostOne : evs = [] ∨ ∃ d, evs = [.dispatch d]) : Answers s i ⟨.ok, [], evs⟩
  | silent (noMessage : message? i = none) (vals : List Word) : Answers s i ⟨.ok, vals, []⟩

theorem sendFrame_answer {i : Instr} {m : Message} {s t : State} (hi : message? i = some m)
    (h : sendFrame m.resp m.fid m.typ m.data s = .next t) : ∃ r, t.output = s.output ++ [r] ∧ Answers s i r := by
  rcases sendFrame_eq_next.1 h with ⟨-, rfl⟩ | ⟨-, rfl⟩
  · exact ⟨_, rfl, .failed _ nofun⟩
  · exact ⟨_, rfl, .transmitted m hi []⟩

/-- A command that goes on hands back one response, one of its answers. -/
theorem exec_answer {i : Instr} {s t : State} (h : exec i s = .next t) :
    ∃ r, t.output = s.output ++ [r] ∧ Answers s i r := by
  cases i with
  | acceptByte b =>
    obtain ⟨p, evs, hp, rfl⟩ := execAcceptByte_eq_next.1 h
    refine ⟨_, rfl, .accepted b rfl evs ?_⟩
    rcases parserStep_event hp with rfl | ⟨q, rfl, -⟩
    · exact .inl rfl
    · exact .inr ⟨_, rfl⟩
  | tick =>
    obtain rfl := execTick_eq_next.1 h
    exact ⟨_, rfl, .silent rfl _⟩
  | resetParser =>
    obtain rfl := execResetParser_eq_next.1 h
    exact ⟨_, rfl, .silent rfl _⟩
  | cfgw a v =>
    rcases execCfgw_eq_next.1 h with ⟨-, rfl⟩ | ⟨g, -, -, rfl⟩ | ⟨g, -, -, -, rfl⟩ | ⟨g, -, -, -, rfl⟩
    · exact ⟨_, rfl, .failed _ nofun⟩
    · exact ⟨_, rfl, .failed _ nofun⟩
    · exact ⟨_, rfl, .failed _ nofun⟩
    · exact ⟨_, rfl, .silent rfl _⟩
  | cfgr a =>
    rcases execCfgr_eq_next.1 h with ⟨-, rfl⟩ | ⟨g, -, rfl⟩
    · exact ⟨_, rfl, .failed _ nofun⟩
    · exact ⟨_, rfl, .silent rfl _⟩
  | cksum c d =>
    rcases execCksum_eq_next.1 h with ⟨-, rfl⟩ | ⟨c, -, rfl⟩
    · exact ⟨_, rfl, .failed _ nofun⟩
    · exact ⟨_, rfl, .silent rfl _⟩
  | send r f y d => exact sendFrame_answer (m := ⟨r, f, y, d⟩) rfl h
  | query r f y o d =>
    rcases execQuery_eq_next.1 h with ⟨-, rfl⟩ | ⟨-, -, rfl⟩ | ⟨k, -, -, rfl⟩
    · exact ⟨_, rfl, .failed _ nofun⟩
    · exact ⟨_, rfl, .failed _ nofun⟩
    · exact ⟨_, rfl, .transmitted ⟨r, f, y, d⟩ rfl _⟩
  | respond r f y d => exact sendFrame_answer (m := ⟨true, f, y, d⟩) rfl h
  | ladd l o =>
    rcases execLadd_eq_next.1 h with ⟨-, rfl⟩ | ⟨k, -, rfl⟩
    · exact ⟨_, rfl, .failed _ nofun⟩
    · exact ⟨_, rfl, .silent rfl _⟩
  | lrem k =>
    rcases execLrem_eq_next.1 h with ⟨-, rfl⟩ | ⟨-, rfl⟩
    · exact ⟨_, rfl, .failed _ nofun⟩
    · exact ⟨_, rfl, .silent rfl _⟩
  | lrenew k =>
    rcases execLrenew_eq_next.1 h with ⟨-, rfl⟩ | ⟨-, rfl⟩
    · exact ⟨_, rfl, .failed _ nofun⟩
    · exact ⟨_, rfl, .silent rfl _⟩
  | lread k =>
    rcases execLread_eq_next.1 h with ⟨-, rfl⟩ | ⟨-, rfl⟩
    · exact ⟨_, rfl, .failed _ nofun⟩
    · exact ⟨_, rfl, .silent rfl _⟩

/-- The one response a command handed back is one of its answers. -/
theorem answers_of_output {i : Instr} {s t : State} {r : Response} (h : exec i s = .next t)
    (hr : t.output = s.output ++ [r]) : Answers s i r := by
  obtain ⟨r', hr', ha⟩ := exec_answer h
  obtain rfl : r' = r := by simpa using hr'.symm.trans hr
  exact ha

/-- A command with a message fails with nothing handed back, or transmits that message. -/
theorem Answers.of_message {s : State} {i : Instr} {r : Response} {m : Message} (ha : Answers s i r)
    (hi : message? i = some m) : (r.status ≠ .ok ∧ r.values = []) ∨
      (r.values.head? = some (m.idIn s) ∧ r.events = m.eventsIn s) := by
  cases ha with
  | failed st hst => exact .inl ⟨hst, rfl⟩
  | transmitted m' hm' vals =>
    obtain rfl : m' = m := Option.some.inj (hm'.symm.trans hi)
    exact .inr ⟨rfl, rfl⟩
  | accepted b hb => subst hb; cases hi
  | silent hn => cases hn.symm.trans hi

/-- Settles O58: each clause picks its answers out of those of every command. -/
theorem eventsOfEachCommand : Obligations.EventsOfEachCommand := by
  intro i s t r h hr
  have ha := answers_of_output h hr
  refine ⟨fun y d hi hok => ?_, fun hbad => ?_, fun hnot hbyte => ?_, fun b hb => ?_⟩
  · obtain ⟨resp, fid, hm⟩ := transmits_iff.1 hi
    rcases ha.of_message hm with ⟨hbad, -⟩ | ⟨hid, hevs⟩
    · exact absurd hok hbad
    · exact ⟨_, hid, hevs⟩
  · cases ha with
    | failed => rfl
    | transmitted | accepted | silent => exact absurd rfl hbad
  · cases ha with
    | failed | silent => rfl
    | transmitted m hm => exact absurd (transmits_iff.2 ⟨m.resp, m.fid, hm⟩) (hnot m.typ m.data)
    | accepted b hb => exact absurd hb (hbyte b)
  · cases ha with
    | failed | silent => exact .inl rfl
    | transmitted m hm => subst hb; cases hm
    | accepted _ _ _ hone => exact hone

/-! ## Two peers (R132) -/

/-- The first value a command with a message hands back is the ID chosen for it. -/
theorem head_of_message {i : Instr} {m : Message} {s t : State} {r : Response} {x : Word} (hi : message? i = some m)
    (h : exec i s = .next t) (hr : t.output = s.output ++ [r]) (hx : r.values.head? = some x) : x = m.idIn s := by
  rcases (answers_of_output h hr).of_message hi with ⟨-, hnone⟩ | ⟨hid, -⟩
  · simp [hnone] at hx
  · exact Option.some.inj (hx.symm.trans hid)

/-- A request of either kind that hands back an ID has allocated it. -/
theorem head_of_request {i : Instr} {s t : State} {r : Response} {x : Word}
    (hi : (∃ f y d, i = .send false f y d) ∨ ∃ f y o d, i = .query false f y o d)
    (h : exec i s = .next t) (hr : t.output = s.output ++ [r]) (hx : r.values.head? = some x) :
    x = allocatedId s.cfg s.nextId := by
  rcases hi with ⟨f, y, d, rfl⟩ | ⟨f, y, o, d, rfl⟩
  · exact head_of_message (m := ⟨false, f, y, d⟩) rfl h hr hx
  · exact head_of_message (m := ⟨false, f, y, d⟩) rfl h hr hx

/-- A response of any kind to an ID that fits the field, where it hands back an ID, hands back that one. -/
theorem head_of_response {i : Instr} {flag : Bool} {fid typ : Word} {o : Option Word} {d : List Byte} {s t : State}
    {r : Response} {z : Word} (hfid : fid.toNat < 2 ^ (8 * s.cfg.idSize.toNat))
    (hi : i ∈ [Instr.respond flag fid typ d, .send true fid typ d, .query true fid typ o d])
    (h : exec i s = .next t) (hr : t.output = s.output ++ [r]) (hz : r.values.head? = some z) : z = fid := by
  have hm : message? i = some ⟨true, fid, typ, d⟩ := by
    simp only [List.mem_cons, List.not_mem_nil, or_false] at hi
    rcases hi with rfl | rfl | rfl <;> rfl
  exact (head_of_message hm h hr hz).trans (responseId_of_lt hfid)

/-- Settles O27: PEER puts the two engines' IDs in different halves of the ID field, which both have. -/
theorem peersNeverAllocateTheSameId : Obligations.PeersNeverAllocateTheSameId := by
  intro a b a' b' i j ra rb x y hi hj ha hsize hpa hpb hea hra hx heb hrb hy
  obtain rfl := head_of_request hi hea hra hx
  obtain rfl := head_of_request hj heb hrb hy
  have hwa := ha.idSize
  have hwb : 1 ≤ b.cfg.idSize.toNat ∧ b.cfg.idSize.toNat ≤ 4 := hsize ▸ hwa
  have hlow := allocatedId_lt_half hwa hpa a.nextId
  have hhigh := half_le_allocatedId hwb hpb b.nextId
  rw [← hsize] at hhigh
  have hne : allocatedId a.cfg a.nextId ≠ allocatedId b.cfg b.nextId := fun he => by rw [he] at hlow; omega
  refine ⟨hne, fun flag typ o d c rc z => ⟨fun k hk hc hrc hz => ?_, fun k hk hc hrc hz => ?_⟩⟩
  · obtain rfl := head_of_response (hsize ▸ allocatedId_lt hwa a.nextId) hk hc hrc hz
    exact ⟨rfl, hne⟩
  · obtain rfl := head_of_response (hsize ▸ allocatedId_lt hwb b.nextId) hk hc hrc hz
    exact ⟨rfl, hne.symm⟩

end Sys2Proof.Machine
end

section
/-! PROOFS. The frame parser, byte by byte (42_parser.md): what a byte of an open field does, said once for all fields;
from it the obligations about one ACCEPT_BYTE, and RESET_PARSER. -/

namespace Sys2Proof.Machine

/-! ## A byte of an open field

Outside SOF every byte goes into the field that is open: it is taken, and where it is the field's last, the field is
closed. -/

/-- The bytes the open field still waits for; no field is open in SOF. -/
def Parser.remaining (p : Parser) : Nat :=
  match p.pstate with
  | .sof => 0
  | .id => p.fIdSize.toNat - p.fpos.toNat
  | .len => p.fLenSize.toNat - p.fpos.toNat
  | .typ => p.fTypeSize.toNat - p.fpos.toNat
  | .headCksum | .dataCksum => cksize p.fCkSel - p.fpos.toNat
  | .data => p.rxLen.toNat - p.dcount.toNat

/-- The parser with more bytes of the open field taken, the field left open (R153 to R159). -/
def Parser.takeBytes (bs : List Byte) (p : Parser) : Parser :=
  match p.pstate with
  | .sof => p
  | .id =>
    { p with rxId := bs.foldl shiftIn p.rxId, hbuf := p.hbuf ++ bs, fpos := p.fpos + BitVec.ofNat 3 bs.length }
  | .len =>
    { p with rxLen := bs.foldl shiftIn p.rxLen, hbuf := p.hbuf ++ bs, fpos := p.fpos + BitVec.ofNat 3 bs.length }
  | .typ =>
    { p with rxType := bs.foldl shiftIn p.rxType, hbuf := p.hbuf ++ bs, fpos := p.fpos + BitVec.ofNat 3 bs.length }
  | .headCksum | .dataCksum =>
    { p with rxCk := bs.foldl shiftIn p.rxCk, fpos := p.fpos + BitVec.ofNat 3 bs.length }
  | .data => { p with dbuf := p.dbuf ++ bs, dcount := p.dcount + BitVec.ofNat 32 bs.length }

/-- What follows once the open field is whole (R153 to R159). -/
def Parser.closeField (prm : Params) (slots : List Slot) (p : Parser) : Parsed :=
  match p.pstate with
  | .sof => .ok p []
  | .id => .ok { p with fpos := 0, pstate := .len } []
  | .len => .ok { p with fpos := 0, pstate := .typ } []
  | .typ =>
    if 0 < cksize p.fCkSel then .ok { p with fpos := 0, rxCk := 0, pstate := .headCksum } []
    else if p.rxLen = 0 then dispatchFrame slots p
    else enterData prm.payloadCap { p with fpos := 0 }
  | .headCksum =>
    if p.rxCk ≠ ckWire prm.cksumDefs p.fCkSel p.hbuf then dropFrame p
    else if p.rxLen = 0 then dispatchFrame slots p
    else enterData prm.payloadCap { p with fpos := 0, dbuf := [], dcount := 0 }
  | .data =>
    if cksize p.fCkSel = 0 then dispatchFrame slots p else .ok { p with rxCk := 0, fpos := 0, pstate := .dataCksum } []
  | .dataCksum =>
    if p.rxCk ≠ ckWire prm.cksumDefs p.fCkSel p.dbuf then dropFrame p else dispatchFrame slots p

/-- A counter below a bound its width holds counts up without wrapping. -/
theorem toNat_succ_of_lt {w n : Nat} {f : BitVec w} (h : f.toNat + 1 ≤ n) (hn : n < 2 ^ w) :
    (f + 1).toNat = f.toNat + 1 := by
  have h1 : (1#w).toNat = 1 := Nat.mod_eq_of_lt (by omega)
  rw [show (1 : BitVec w) = 1#w from rfl, BitVec.toNat_add_of_lt (by omega), h1]

/-- Before the last byte but one of a field of n bytes, one more leaves it open. -/
theorem counter_early {w n : Nat} {f : BitVec w} (h : 1 < n - f.toNat) (hn : n < 2 ^ w) :
    (f + 1).toNat ≠ n ∧ n - (f + 1).toNat = n - f.toNat - 1 := by
  rw [toNat_succ_of_lt (n := n) (by omega) hn]
  omega

/-- One more byte than the last but one makes the field whole. -/
theorem counter_last {w n : Nat} {f : BitVec w} (h : n - f.toNat = 1) (hn : n < 2 ^ w) : (f + 1).toNat = n := by
  rw [toNat_succ_of_lt (n := n) (by omega) hn]
  omega

theorem cksize_lt_eight (c : CksumSel) : cksize c < 2 ^ 3 := Nat.lt_of_le_of_lt (cksize_le_four c) (by decide)

section
variable {prm : Params} {c : CfgRegs} {slots : List Slot} {p : Parser}

/-- Bytes taken one after the other are taken together. -/
theorem Parser.takeBytes_cons (b : Byte) (bs : List Byte) (p : Parser) :
    p.takeBytes (b :: bs) = (p.takeBytes [b]).takeBytes bs := by
  have hcount : ∀ (w : Nat) (f : BitVec w), f + BitVec.ofNat w (bs.length + 1) = f + 1#w + BitVec.ofNat w bs.length :=
    fun w f => by rw [Nat.add_comm, BitVec.ofNat_add, ← BitVec.add_assoc]
  cases hs : p.pstate <;> simp [takeBytes, hs, hcount]

/-- A byte of the open field that is not its last is taken, and one fewer is waited for. -/
theorem parserStep_of_early (h : 1 < p.remaining) (b : Byte) :
    parserStep prm c slots b p = .ok (p.takeBytes [b]) [] ∧ (p.takeBytes [b]).remaining = p.remaining - 1 := by
  cases hs : p.pstate with
  | sof => simp [Parser.remaining, hs] at h
  | id | len | typ | data =>
    simp only [Parser.remaining, hs] at h
    obtain ⟨hmore, hleft⟩ := counter_early h (BitVec.isLt _)
    refine ⟨?_, by simp only [Parser.remaining, Parser.takeBytes, hs]; exact hleft⟩
    simp only [parserStep, stepId, stepLen, stepType, stepData, Parser.takeBytes, hs,
      if_neg (hmore ∘ congrArg BitVec.toNat)]
    rfl
  | headCksum | dataCksum =>
    simp only [Parser.remaining, hs] at h
    obtain ⟨hmore, hleft⟩ := counter_early h (cksize_lt_eight _)
    refine ⟨?_, by simp only [Parser.remaining, Parser.takeBytes, hs]; exact hleft⟩
    simp only [parserStep, stepHeadCksum, stepDataCksum, Parser.takeBytes, hs, if_neg hmore]
    rfl

/-- The last byte of the open field is taken and the field closed. -/
theorem parserStep_of_last (h : p.remaining = 1) (b : Byte) :
    parserStep prm c slots b p = (p.takeBytes [b]).closeField prm slots := by
  cases hs : p.pstate with
  | sof => simp [Parser.remaining, hs] at h
  | id | len =>
    simp only [Parser.remaining, hs] at h
    have hlast := BitVec.eq_of_toNat_eq (counter_last h (BitVec.isLt _))
    simp only [parserStep, stepId, stepLen, Parser.takeBytes, Parser.closeField, hs, if_pos hlast, List.foldl_cons,
      List.foldl_nil]
  | typ | data =>
    simp only [Parser.remaining, hs] at h
    have hlast := BitVec.eq_of_toNat_eq (counter_last h (BitVec.isLt _))
    simp only [parserStep, stepType, stepData, Parser.takeBytes, Parser.closeField, hs, if_pos hlast]
    rfl
  | headCksum | dataCksum =>
    simp only [Parser.remaining, hs] at h
    have hlast := counter_last h (cksize_lt_eight _)
    simp only [parserStep, stepHeadCksum, stepDataCksum, Parser.takeBytes, Parser.closeField, hs, if_pos hlast]
    rfl

end

/-! ## Bytes taken and fields closed, by parser state -/

section
variable {prm : Params} {slots : List Slot} {p : Parser}

theorem Parser.takeBytes_id (hs : p.pstate = .id) (bs : List Byte) : p.takeBytes bs =
    { p with rxId := bs.foldl shiftIn p.rxId, hbuf := p.hbuf ++ bs,
             fpos := p.fpos + BitVec.ofNat 3 bs.length } := by
  simp only [takeBytes, hs]

theorem Parser.takeBytes_len (hs : p.pstate = .len) (bs : List Byte) : p.takeBytes bs =
    { p with rxLen := bs.foldl shiftIn p.rxLen, hbuf := p.hbuf ++ bs,
             fpos := p.fpos + BitVec.ofNat 3 bs.length } := by
  simp only [takeBytes, hs]

theorem Parser.takeBytes_typ (hs : p.pstate = .typ) (bs : List Byte) : p.takeBytes bs =
    { p with rxType := bs.foldl shiftIn p.rxType, hbuf := p.hbuf ++ bs,
             fpos := p.fpos + BitVec.ofNat 3 bs.length } := by
  simp only [takeBytes, hs]

theorem Parser.takeBytes_cksum (hs : p.pstate = .headCksum ∨ p.pstate = .dataCksum) (bs : List Byte) :
    p.takeBytes bs = { p with rxCk := bs.foldl shiftIn p.rxCk, fpos := p.fpos + BitVec.ofNat 3 bs.length } := by
  rcases hs with hs | hs <;> simp only [takeBytes, hs]

theorem Parser.takeBytes_data (hs : p.pstate = .data) (bs : List Byte) : p.takeBytes bs =
    { p with dbuf := p.dbuf ++ bs, dcount := p.dcount + BitVec.ofNat 32 bs.length } := by
  simp only [takeBytes, hs]

theorem Parser.closeField_id (hs : p.pstate = .id) :
    p.closeField prm slots = .ok { p with fpos := 0, pstate := .len } [] := by
  simp only [closeField, hs]

theorem Parser.closeField_len (hs : p.pstate = .len) :
    p.closeField prm slots = .ok { p with fpos := 0, pstate := .typ } [] := by
  simp only [closeField, hs]

/-- With a checksum active, the header checksum follows TYPE (R155). -/
theorem Parser.closeField_typ_cksum (hs : p.pstate = .typ) (hck : p.fCkSel ≠ .nosum) :
    p.closeField prm slots = .ok { p with fpos := 0, rxCk := 0, pstate := .headCksum } [] := by
  simp only [closeField, hs, if_pos (cksize_pos_iff.2 hck)]

/-- With none, a frame of length 0 ends with TYPE (R155). -/
theorem Parser.closeField_typ_empty (hs : p.pstate = .typ) (hck : p.fCkSel = .nosum) (hl : p.rxLen = 0) :
    p.closeField prm slots = dispatchFrame slots p := by
  simp only [closeField, hs, hck, if_pos hl]
  rfl

/-- With none, the payload of a longer frame follows TYPE (R155). -/
theorem Parser.closeField_typ_payload (hs : p.pstate = .typ) (hck : p.fCkSel = .nosum) (hl : p.rxLen ≠ 0) :
    p.closeField prm slots = enterData prm.payloadCap { p with fpos := 0 } := by
  simp only [closeField, hs, hck, if_neg hl]
  rfl

theorem Parser.closeField_headCksum_mismatch (hs : p.pstate = .headCksum)
    (hck : p.rxCk ≠ ckWire prm.cksumDefs p.fCkSel p.hbuf) : p.closeField prm slots = dropFrame p := by
  simp only [closeField, hs, if_pos hck]

theorem Parser.closeField_headCksum_empty (hs : p.pstate = .headCksum)
    (hck : p.rxCk = ckWire prm.cksumDefs p.fCkSel p.hbuf) (hl : p.rxLen = 0) :
    p.closeField prm slots = dispatchFrame slots p := by
  simp only [closeField, hs, if_neg (not_not_intro hck), if_pos hl]

theorem Parser.closeField_headCksum_payload (hs : p.pstate = .headCksum)
    (hck : p.rxCk = ckWire prm.cksumDefs p.fCkSel p.hbuf) (hl : p.rxLen ≠ 0) :
    p.closeField prm slots = enterData prm.payloadCap { p with fpos := 0, dbuf := [], dcount := 0 } := by
  simp only [closeField, hs, if_neg (not_not_intro hck), if_neg hl]

theorem Parser.closeField_data_nosum (hs : p.pstate = .data) (hck : p.fCkSel = .nosum) :
    p.closeField prm slots = dispatchFrame slots p := by
  simp only [closeField, hs, hck]
  rfl

theorem Parser.closeField_data_cksum (hs : p.pstate = .data) (hck : p.fCkSel ≠ .nosum) :
    p.closeField prm slots = .ok { p with rxCk := 0, fpos := 0, pstate := .dataCksum } [] := by
  simp only [closeField, hs, if_neg (cksize_pos_iff.2 hck).ne']

theorem Parser.closeField_dataCksum_mismatch (hs : p.pstate = .dataCksum)
    (hck : p.rxCk ≠ ckWire prm.cksumDefs p.fCkSel p.dbuf) : p.closeField prm slots = dropFrame p := by
  simp only [closeField, hs, if_pos hck]

theorem Parser.closeField_dataCksum_match (hs : p.pstate = .dataCksum)
    (hck : p.rxCk = ckWire prm.cksumDefs p.fCkSel p.dbuf) : p.closeField prm slots = dispatchFrame slots p := by
  simp only [closeField, hs, if_neg (not_not_intro hck)]

/-- The dispatch of a frame of length 0 (R158). -/
theorem dispatchFrame_of_empty (hd : p.dbuf = []) (hl : p.rxLen = 0) : dispatchFrame slots p =
    .ok p.clear [.dispatch { frameId := p.rxId, typ := p.rxType, len := 0, data := [], isResponse := false,
                             matchList := matchSlots slots p.rxId }] := by
  simp only [dispatchFrame, dispatchInfo, hd, hl]

/-- A checksum received equals the one computed when their values do (R109). -/
theorem toNat_ckWire (k : CksumDefs) (c : CksumSel) (d : List Byte) :
    (ckWire k c d).toNat = (ck k c d).toNat % 2 ^ (8 * cksize c) := by
  have hle : (ck k c d).toNat % 2 ^ (8 * cksize c) ≤ (ck k c d).toNat := Nat.mod_le _ _
  simp only [ckWire, lowBytes, BitVec.toNat_ofNat]
  exact Nat.mod_eq_of_lt (Nat.lt_of_le_of_lt hle (ck k c d).isLt)

end

/-! ## What ACCEPT_BYTE does -/

/-- The parser a byte finds, where its frame has not stalled: `pt_count` is zeroed (R150). -/
def Parser.arrived (p : Parser) : Parser := { p with ptCount := 0 }

/-- What ACCEPT_BYTE answers in state `s` for what the parser gives. -/
def Parsed.answer (s : State) : Parsed → Result
  | .ok p evs => .next ((s.setParser p).reply .ok [] evs)
  | .overCap => .refused .payloadCapExceeded

theorem execAcceptByte_eq_answer (b : Byte) (s : State) : execAcceptByte b s =
    (parserStep s.params s.cfg s.slots b (s.parser.arrive s.cfg.parserTimeout)).answer s := by
  unfold execAcceptByte
  split <;> next h => rw [h]; rfl

section
variable {s : State} (hst : s.parser.stalled s.cfg.parserTimeout = false)
include hst

theorem exec_acceptByte_of_not_stalled (b : Byte) : exec (.acceptByte b) s =
    (parserStep s.params s.cfg s.slots b s.parser.arrived).answer s := by
  rw [Parser.arrived, ← Parser.arrive_of_not_stalled hst]
  exact execAcceptByte_eq_answer b s

theorem exec_acceptByte_of_early {b : Byte} {q : Parser} (h : 1 < s.parser.remaining)
    (hq : s.parser.arrived.takeBytes [b] = q) : exec (.acceptByte b) s = .next ((s.setParser q).reply .ok [] []) := by
  rw [exec_acceptByte_of_not_stalled hst, (parserStep_of_early (p := s.parser.arrived) h b).1, hq, Parsed.answer]

theorem exec_acceptByte_of_last (h : s.parser.remaining = 1) (b : Byte) : exec (.acceptByte b) s =
    ((s.parser.arrived.takeBytes [b]).closeField s.params s.slots).answer s := by
  rw [exec_acceptByte_of_not_stalled hst, parserStep_of_last (p := s.parser.arrived) h b]

end

/-- Settles O32: in each of the five fields the byte is taken and nothing else happens. -/
theorem earlierFieldBytesOnlyAccumulate : Obligations.EarlierFieldBytesOnlyAccumulate := by
  intro s b _ hst
  have early {q : Parser} := exec_acceptByte_of_early hst (b := b) (q := q)
  refine ⟨fun hs hpos => ?_, fun hs hpos => ?_, fun hs hpos => ?_, fun hs hpos => ?_⟩
  · exact early (by simp only [Parser.remaining, hs]; omega) (Parser.takeBytes_id (p := s.parser.arrived) hs _)
  · exact early (by simp only [Parser.remaining, hs]; omega) (Parser.takeBytes_len (p := s.parser.arrived) hs _)
  · exact early (by simp only [Parser.remaining, hs]; omega) (Parser.takeBytes_typ (p := s.parser.arrived) hs _)
  · have hleft : 1 < s.parser.remaining := by rcases hs with hs | hs <;> simp only [Parser.remaining, hs] <;> omega
    exact early hleft (Parser.takeBytes_cksum (p := s.parser.arrived) hs _)

/-- Settles O33: each route is a way TYPE is closed. -/
theorem lastTypeByteRoutesTheFrame : Obligations.LastTypeByteRoutesTheFrame := by
  intro s b hinv hcap hs hpos hst
  obtain ⟨-, -, hempty⟩ := hinv.parser.inTyp hs
  rw [exec_acceptByte_of_last hst (by simp only [Parser.remaining, hs]; omega),
    Parser.takeBytes_typ (p := s.parser.arrived) hs]
  refine ⟨fun hck => ?_, fun hck hlen => ?_, fun hck hlen => ?_⟩
  · rw [Parser.closeField_typ_cksum]
    exacts [rfl, hs, hck]
  · rw [Parser.closeField_typ_empty, dispatchFrame_of_empty]
    exacts [rfl, hempty, hlen, hs, hck, hlen]
  · rw [Parser.closeField_typ_payload, hcap, enterData_none]
    exacts [rfl, hs, hck, hlen]

/-- Settles O34: each outcome is a way the header checksum is closed. -/
theorem headerChecksumDecidesTheFrame : Obligations.HeaderChecksumDecidesTheFrame := by
  intro s b hinv hcap hs hpos hst
  obtain ⟨-, -, -, hempty⟩ := hinv.parser.inHeadCksum hs
  rw [exec_acceptByte_of_last hst (by simp only [Parser.remaining, hs]; omega),
    Parser.takeBytes_cksum (p := s.parser.arrived) (.inl hs)]
  simp only [← toNat_ckWire, ne_eq, BitVec.toNat_inj]
  refine ⟨fun hck => ?_, fun hck hlen => ?_, fun hck hlen => ?_⟩
  · rw [Parser.closeField_headCksum_mismatch]
    exacts [rfl, hs, hck]
  · rw [Parser.closeField_headCksum_empty, dispatchFrame_of_empty]
    exacts [rfl, hempty, hlen, hs, hck, hlen]
  · rw [Parser.closeField_headCksum_payload, hcap, enterData_none]
    exacts [rfl, hs, hck, hlen]

/-- Settles O35: a payload byte that is not the last is taken, and the last closes DATA. -/
theorem payloadBytesAreCollected : Obligations.PayloadBytesAreCollected := by
  intro s b hinv hs hst
  have hcount := hinv.parser.dcount
  have hleft : s.parser.remaining = s.parser.rxLen.toNat - s.parser.dbuf.length := by
    simp only [Parser.remaining, hs, hcount]
  have htake := Parser.takeBytes_data (p := s.parser.arrived) hs [b]
  refine ⟨fun hpos => ?_, fun hpos hck => ?_, fun hpos hck => ?_⟩
  · exact exec_acceptByte_of_early hst (by omega) htake
  · rw [exec_acceptByte_of_last hst (by omega), htake, Parser.closeField_data_cksum]
    exacts [rfl, hs, hck]
  · rw [exec_acceptByte_of_last hst (by omega), htake, Parser.closeField_data_nosum]
    exacts [rfl, hs, hck]

/-- Settles O36: each outcome is a way the payload checksum is closed. -/
theorem payloadChecksumDecidesTheFrame : Obligations.PayloadChecksumDecidesTheFrame := by
  intro s b hinv hs hpos hst
  rw [exec_acceptByte_of_last hst (by simp only [Parser.remaining, hs]; omega),
    Parser.takeBytes_cksum (p := s.parser.arrived) (.inr hs)]
  simp only [← toNat_ckWire, ne_eq, BitVec.toNat_inj]
  refine ⟨fun hck => ?_, fun hck => ?_⟩
  · rw [Parser.closeField_dataCksum_mismatch]
    exacts [rfl, hs, hck]
  · rw [Parser.closeField_dataCksum_match]
    exacts [rfl, hs, hck]

/-! ## The stall, and a byte in SOF -/

/-- What ACCEPT_BYTE does depends on the parser only as the byte finds it (R150). -/
theorem exec_acceptByte_setParser {s : State} {q : Parser}
    (h : s.parser.arrive s.cfg.parserTimeout = q.arrive s.cfg.parserTimeout) (b : Byte) :
    exec (.acceptByte b) s = exec (.acceptByte b) (s.setParser q) := by
  simp only [exec, execAcceptByte_eq_answer, State.setParser_params, State.setParser_cfg, State.setParser_slots,
    State.setParser_parser, h]
  cases parserStep s.params s.cfg s.slots b (q.arrive s.cfg.parserTimeout) <;> rfl

theorem Parser.stalled_iff {p : Parser} {timeout : Word} : p.stalled timeout = true ↔
    timeout ≠ 0 ∧ timeout.toNat < p.ptCount.toNat ∧ p.pstate ≠ .sof := by
  simp [Parser.stalled, and_assoc]

/-- A frame that has not stalled goes on as if no tick had come (R164). -/
theorem exec_acceptByte_arrived {s : State} (hst : s.parser.stalled s.cfg.parserTimeout = false) (b : Byte) :
    exec (.acceptByte b) s = exec (.acceptByte b) (s.setParser s.parser.arrived) := by
  refine exec_acceptByte_setParser ?_ b
  rw [Parser.arrive_of_not_stalled hst, Parser.arrive_of_not_stalled (Parser.stalled_of_zero rfl)]
  rfl

/-- Settles O29: the parser a byte finds is the same with the stalled frame dropped, or with no tick counted. -/
theorem stallDropsTheFrameAtTheNextByte : Obligations.StallDropsTheFrameAtTheNextByte := by
  refine fun s b => ⟨fun hto hcount hs => exec_acceptByte_setParser ?_ b, fun h => exec_acceptByte_arrived ?_ b⟩
  · rw [Parser.arrive_of_stalled (Parser.stalled_iff.2 ⟨hto, hcount, hs⟩),
      Parser.arrive_of_not_stalled (Parser.stalled_of_sof rfl)]
  · rw [Bool.eq_false_iff, ne_eq, Parser.stalled_iff]
    rintro ⟨hto, hcount, hs⟩
    rcases h with h | h | h
    · exact hto h
    · omega
    · exact hs h

/-- The first ID byte of a frame, with others to come (R153). -/
theorem stepId_beginFrame_of_ne {c : CfgRegs} (hc : c.Legal) (hw : c.idSize ≠ 1) (b : Byte) (p : Parser) :
    stepId b (p.beginFrame c) = { p.beginFrame c with rxId := shiftIn 0 b, hbuf := [b], fpos := 1 } := by
  have hmore : (1 : BitVec 3) ≠ c.idSize.setWidth 3 := fun he => by
    have hval := congrArg BitVec.toNat he
    rw [toNat_latchedWidth hc.idSize.2] at hval
    exact hw (BitVec.eq_of_toNat_eq hval.symm)
  exact if_neg hmore

/-- The only ID byte of a frame (R153). -/
theorem stepId_beginFrame_of_eq {c : CfgRegs} (hw : c.idSize = 1) (b : Byte) (p : Parser) :
    stepId b (p.beginFrame c) = { p.beginFrame c with rxId := shiftIn 0 b, hbuf := [b], pstate := .len } :=
  if_pos (show (1 : BitVec 3) = c.idSize.setWidth 3 by rw [hw]; rfl)

theorem shiftIn_zero (b : Byte) : shiftIn 0 b = b.setWidth 32 := by simp [shiftIn]

/-- Settles O30: the parser in SOF idles, begins a frame, or begins one and takes its first ID byte. -/
theorem sofStateDiscardsOrBegins : Obligations.SofStateDiscardsOrBegins := by
  intro s b hinv hs
  have hstep : parserStep s.params s.cfg s.slots b s.parser.arrived = .ok (stepSof s.cfg b s.parser.arrived) [] := by
    simp only [parserStep, show s.parser.arrived.pstate = .sof from hs]
  rw [exec_acceptByte_of_not_stalled (Parser.stalled_of_sof hs), hstep, stepSof]
  refine ⟨fun hen hb => ?_, fun hen hb => ?_, fun hen hw => ?_, fun hen hw => ?_⟩
  · rw [if_pos hen, if_neg hb]
    rfl
  · rw [if_pos hen, if_pos hb]
    rfl
  · rw [hen, stepId_beginFrame_of_ne hinv.cfg hw, shiftIn_zero]
    rfl
  · rw [hen, stepId_beginFrame_of_eq hw, shiftIn_zero]
    rfl

/-! ## RESET_PARSER -/

/-- CLEAR changes nothing of an idle parser (R37, R161). -/
theorem Parser.clear_of_idle {p : Parser} (h : p.Inv) (hs : p.pstate = .sof) : p.clear = p := by
  obtain ⟨hpos, hh, hd, hcount, hid, hlen, htyp, hck⟩ := h.idle hs
  cases p
  simp only at hs hpos hh hd hcount hid hlen htyp hck
  simp only [clear, hs, hpos, hh, hd, hcount, hid, hlen, htyp, hck]

/-- Settles O37: RESET_PARSER is CLEAR, which in SOF finds the parser clear already. -/
theorem resetParserClearsOnlyTheParser : Obligations.ResetParserClearsOnlyTheParser :=
  fun s => ⟨rfl, fun hinv hs =>
    execResetParser_eq_next.2 (by rw [Parser.clear_of_idle hinv.parser hs, State.setParser_self])⟩

/-! ## Completion and refusal -/

theorem overCap_eq_true {cap : Option Nat} {l : Word} : overCap cap l = true ↔ ∃ n, cap = some n ∧ n < l.toNat := by
  cases cap <;> simp [overCap]

theorem enterData_eq_overCap {cap : Option Nat} {p : Parser} :
    enterData cap p = .overCap ↔ ∃ n, cap = some n ∧ n < p.rxLen.toNat := by
  rw [← overCap_eq_true]
  rcases enterData_cases cap p with ⟨h, h'⟩ | ⟨h, h'⟩ <;> simp [h, h']

/-- A parser step is refused only where a finite PAYLOAD_CAP is below the frame's length (R187). -/
theorem parserStep_eq_overCap {prm : Params} {c : CfgRegs} {slots : List Slot} {b : Byte} {p : Parser}
    (h : parserStep prm c slots b p = .overCap) :
    p.pstate ≠ .sof ∧ ∃ n, prm.payloadCap = some n ∧ n < p.rxLen.toNat := by
  unfold parserStep at h
  split at h
  · cases h
  · cases h
  · cases h
  · next hs =>
    simp only [stepType] at h
    split at h
    · split at h
      · cases h
      · split at h
        · cases h
        · have hcap := enterData_eq_overCap.1 h
          exact ⟨by simp [hs], hcap⟩
    · cases h
  · next hs =>
    simp only [stepHeadCksum] at h
    split at h
    · split at h
      · cases h
      · split at h
        · cases h
        · have hcap := enterData_eq_overCap.1 h
          exact ⟨by simp [hs], hcap⟩
    · cases h
  · simp only [stepData] at h
    split at h
    · split at h <;> cases h
    · cases h
  · simp only [stepDataCksum] at h
    split at h
    · split at h <;> cases h
    · cases h

/-- No move of the parser touches `pt_count`. -/
theorem Parser.Move.ptCount {c : CfgRegs} {b : Byte} {p q : Parser} (h : p.Move c b q) : q.ptCount = p.ptCount := by
  cases h with
  | startId | idByte =>
    simp only [stepId]
    split <;> rfl
  | lenByte =>
    simp only [stepLen]
    split <;> rfl
  | _ => rfl

/-- Settles O28: with no cap the parser step is not refused, and it keeps the zeroed `pt_count`. -/
theorem acceptByteAlwaysCompletes : Obligations.AcceptByteAlwaysCompletes := by
  intro s b hcap
  cases h : parserStep s.params s.cfg s.slots b (s.parser.arrive s.cfg.parserTimeout) with
  | ok p evs =>
    refine ⟨p, evs, execAcceptByte_eq_next.2 ⟨p, evs, h, rfl⟩, (parserStep_move h).ptCount, ?_⟩
    rcases parserStep_event h with rfl | ⟨q, rfl, -⟩
    · exact .inl rfl
    · exact .inr ⟨_, rfl⟩
  | overCap =>
    obtain ⟨-, n, hn, -⟩ := parserStep_eq_overCap h
    rw [hcap] at hn
    cases hn

theorem sendFrame_completes (resp : Bool) (fid typ : Word) (d : List Byte) (s : State) :
    ∃ t, sendFrame resp fid typ d s = .next t := by
  cases h : lenOverflows s.cfg d.length with
  | true => exact ⟨_, sendFrame_eq_next.2 (.inl ⟨h, rfl⟩)⟩
  | false => exact ⟨_, sendFrame_eq_next.2 (.inr ⟨h, rfl⟩)⟩

/-- Every command but ACCEPT_BYTE goes on, with its results or with an error status (R246, R249). -/
theorem exec_completes {i : Instr} (hi : ∀ b, i ≠ .acceptByte b) (s : State) : ∃ t, exec i s = .next t := by
  cases i with
  | acceptByte b => exact absurd rfl (hi b)
  | tick | resetParser => exact ⟨_, rfl⟩
  | cfgw r v =>
    simp only [exec, execCfgw]
    split
    · exact ⟨_, rfl⟩
    · split
      · exact ⟨_, rfl⟩
      · split <;> exact ⟨_, rfl⟩
  | cfgr r =>
    obtain ⟨st, vals, h⟩ := execCfgr_eq_reply r s
    exact ⟨_, h⟩
  | cksum sel d =>
    obtain ⟨st, vals, h⟩ := execCksum_eq_reply sel d s
    exact ⟨_, h⟩
  | send r f y d => exact sendFrame_completes r f y d s
  | query r f y o d =>
    simp only [exec, execQuery]
    split
    · exact ⟨_, rfl⟩
    · split <;> exact ⟨_, rfl⟩
  | respond r f y d => exact sendFrame_completes true f y d s
  | ladd l o =>
    simp only [exec, execLadd]
    split <;> exact ⟨_, rfl⟩
  | lrem k =>
    simp only [exec, execLrem]
    split <;> exact ⟨_, rfl⟩
  | lrenew k =>
    simp only [exec, execLrenew]
    split <;> exact ⟨_, rfl⟩
  | lread k =>
    obtain ⟨st, vals, h⟩ := execLread_eq_reply k s
    exact ⟨_, h⟩

/-- ACCEPT_BYTE goes on, or is refused for a frame above a finite PAYLOAD_CAP; a stalled frame is dropped before. -/
theorem exec_acceptByte_cases (b : Byte) (s : State) : (∃ t, exec (.acceptByte b) s = .next t) ∨
    (exec (.acceptByte b) s = .refused .payloadCapExceeded ∧
      ∃ n, s.params.payloadCap = some n ∧ n < s.parser.rxLen.toNat) := by
  simp only [exec, execAcceptByte_eq_answer]
  cases h : parserStep s.params s.cfg s.slots b (s.parser.arrive s.cfg.parserTimeout) with
  | ok p evs => exact .inl ⟨_, rfl⟩
  | overCap =>
    obtain ⟨hs, hcap⟩ := parserStep_eq_overCap h
    refine .inr ⟨rfl, ?_⟩
    cases hst : s.parser.stalled s.cfg.parserTimeout with
    | true =>
      rw [Parser.arrive_of_stalled hst] at hs
      exact absurd rfl hs
    | false => rwa [Parser.arrive_of_not_stalled hst] at hcap

/-- A length above a cap is not 0. -/
theorem ne_zero_of_lt_toNat {l : Word} {n : Nat} (h : n < l.toNat) : l ≠ 0 := by
  rintro rfl
  exact absurd h (Nat.not_lt_zero n)

/-- Settles O43: only the parser step refuses, and both ways into DATA check the cap. -/
theorem onlyAFinitePayloadBufferRefuses : Obligations.OnlyAFinitePayloadBufferRefuses := by
  refine ⟨fun i s => ?_, fun s b n hcap hs hpos hck hn hst => ?_, fun s b n hcap hs hpos hn hst hck => ?_⟩
  · by_cases hi : ∃ b, i = .acceptByte b
    · obtain ⟨b, rfl⟩ := hi
      rcases exec_acceptByte_cases b s with h | ⟨h, hcap⟩
      · exact .inl h
      · exact .inr ⟨h, ⟨b, rfl⟩, hcap⟩
    · exact .inl (exec_completes (fun b hb => hi ⟨b, hb⟩) s)
  · rw [exec_acceptByte_of_last hst (by simp only [Parser.remaining, hs]; omega),
      Parser.takeBytes_typ (p := s.parser.arrived) hs, Parser.closeField_typ_payload, enterData_eq_overCap.2]
    exacts [rfl, ⟨n, hcap, hn⟩, hs, hck, ne_zero_of_lt_toNat hn]
  · rw [← toNat_ckWire, BitVec.toNat_inj] at hck
    rw [exec_acceptByte_of_last hst (by simp only [Parser.remaining, hs]; omega),
      Parser.takeBytes_cksum (p := s.parser.arrived) (.inl hs), Parser.closeField_headCksum_payload,
      enterData_eq_overCap.2]
    exacts [rfl, ⟨n, hcap, hn⟩, hs, hck, ne_zero_of_lt_toNat hn]

end Sys2Proof.Machine
end

section
/-! PROOFS. A sequence of bytes fed to the parser (R79): field by field as the parser takes them, and as the
ACCEPT_BYTEs that feed them. -/

namespace Sys2Proof.Machine

/-! ## Bytes fed to the parser -/

/-- Bytes fed one after the other lead the parser from `p` to `q`, with these events. -/
inductive Feeds (prm : Params) (c : CfgRegs) (slots : List Slot) : List Byte → Parser → Parser → List Event → Prop
  | nil (p : Parser) : Feeds prm c slots [] p p []
  | cons {b : Byte} {bs : List Byte} {p q r : Parser} {evs evs' : List Event}
      (first : parserStep prm c slots b p = .ok q evs) (rest : Feeds prm c slots bs q r evs') :
      Feeds prm c slots (b :: bs) p r (evs ++ evs')

section
variable {prm : Params} {c : CfgRegs} {slots : List Slot} {bs as : List Byte} {p q r : Parser} {evs evs' : List Event}

theorem Feeds.append (h : Feeds prm c slots as p q evs) (h' : Feeds prm c slots bs q r evs') :
    Feeds prm c slots (as ++ bs) p r (evs ++ evs') := by
  induction h with
  | nil => exact h'
  | cons first _ ih => rw [List.append_assoc]; exact .cons first (ih h')

/-- Bytes that emit nothing, and then others. -/
theorem Feeds.followedBy (h : Feeds prm c slots as p q []) (h' : Feeds prm c slots bs q r evs) :
    Feeds prm c slots (as ++ bs) p r evs := h.append h'

/-- A whole field is taken and closed. -/
theorem Feeds.of_field (hne : bs ≠ []) (hl : bs.length = p.remaining)
    (hclose : (p.takeBytes bs).closeField prm slots = .ok q evs) : Feeds prm c slots bs p q evs := by
  induction bs generalizing p with
  | nil => exact absurd rfl hne
  | cons b bs ih =>
    cases bs with
    | nil =>
      have hstep := (parserStep_of_last (prm := prm) (c := c) (slots := slots) hl.symm b).trans hclose
      simpa using Feeds.cons hstep (.nil q)
    | cons b' bs =>
      obtain ⟨hstep, hleft⟩ := parserStep_of_early (prm := prm) (c := c) (slots := slots) (p := p)
        (by rw [← hl]; simp) b
      rw [Parser.takeBytes_cons] at hclose
      exact .cons hstep (ih (by simp) (by rw [hleft, ← hl]; simp) hclose)

end

/-! ## Accumulated fields -/

theorem toNat_foldl_shiftIn (bs : List Byte) (acc : Word) :
    (bs.foldl shiftIn acc).toNat = (acc.toNat * 256 ^ bs.length + beVal bs) % 2 ^ 32 := by
  induction bs generalizing acc with
  | nil => simp [beVal, Nat.mod_eq_of_lt acc.isLt]
  | cons b bs ih =>
    rw [List.foldl_cons, ih, toNat_shiftIn, beVal_cons, List.length_cons, ← Nat.mod_add_mod, Nat.mod_mul_mod,
      Nat.mod_add_mod]
    congr 1
    ring

/-- From zero, a field's accumulator comes to the field's big-endian value (R57). -/
theorem foldl_shiftIn_zero (bs : List Byte) : bs.foldl shiftIn 0 = BitVec.ofNat 32 (beVal bs) :=
  BitVec.eq_of_toNat_eq (by rw [toNat_foldl_shiftIn, BitVec.toNat_ofNat]; simp)

/-- The ID field, accumulated from zero (R153). -/
theorem Feeds.id {prm : Params} {c : CfgRegs} {slots : List Slot} {bs : List Byte} {p : Parser} (hs : p.pstate = .id)
    (hpos : p.fpos = 0) (hacc : p.rxId = 0) (hne : bs ≠ []) (hl : bs.length = p.fIdSize.toNat) :
    Feeds prm c slots bs p
      { p with pstate := .len, fpos := 0, rxId := BitVec.ofNat 32 (beVal bs), hbuf := p.hbuf ++ bs } [] := by
  refine .of_field hne (by simp [Parser.remaining, hs, hpos, hl]) ?_
  rw [Parser.takeBytes_id hs, Parser.closeField_id, hacc, foldl_shiftIn_zero]
  exact hs

/-- The LEN field, accumulated from zero (R154). -/
theorem Feeds.len {prm : Params} {c : CfgRegs} {slots : List Slot} {bs : List Byte} {p : Parser} (hs : p.pstate = .len)
    (hpos : p.fpos = 0) (hacc : p.rxLen = 0) (hne : bs ≠ []) (hl : bs.length = p.fLenSize.toNat) :
    Feeds prm c slots bs p
      { p with pstate := .typ, fpos := 0, rxLen := BitVec.ofNat 32 (beVal bs), hbuf := p.hbuf ++ bs } [] := by
  refine .of_field hne (by simp [Parser.remaining, hs, hpos, hl]) ?_
  rw [Parser.takeBytes_len hs, Parser.closeField_len, hacc, foldl_shiftIn_zero]
  exact hs

/-! ## Bytes fed by ACCEPT_BYTEs -/

theorem accepts_cons (b : Byte) (bs : List Byte) (s : State) :
    accepts (b :: bs) s = andThen (exec (.acceptByte b) s) (accepts bs) := rfl

/-- What the parser does with bytes, ACCEPT_BYTEs of them do in the state, each with one `OK` response. -/
theorem accepts_of_feeds {bs : List Byte} {s : State} {q : Parser} {evs : List Event} (hpt : s.parser.ptCount = 0)
    (h : Feeds s.params s.cfg s.slots bs s.parser q evs) :
    ∃ rs, accepts bs s = .next { s.setParser q with output := s.output ++ rs } ∧
      (∀ x ∈ rs, x.status = .ok) ∧ eventsOf rs = evs := by
  induction bs generalizing s evs with
  | nil =>
    cases h
    exact ⟨[], by simp [accepts, acceptsExpansion, runCommands, State.setParser], nofun, rfl⟩
  | cons b bs ih =>
    cases h with
    | @cons _ _ _ q' _ evs' evs'' first rest =>
      have hfirst : exec (.acceptByte b) s = .next ((s.setParser q').reply .ok [] evs') :=
        execAcceptByte_eq_next.2 ⟨q', evs', by
          rw [Parser.arrive_of_not_stalled (Parser.stalled_of_zero hpt), ← hpt]; exact first, rfl⟩
      obtain ⟨rs, hrun, hok, hevs⟩ := ih (s := (s.setParser q').reply .ok [] evs')
        ((parserStep_move first).ptCount.trans hpt) rest
      refine ⟨⟨.ok, [], evs'⟩ :: rs, ?_, ?_, ?_⟩
      · rw [accepts_cons, hfirst, andThen_next, hrun]
        simp [State.setParser, State.reply]
      · simpa using hok
      · simp [eventsOf, ← hevs]

/-- The same where the first byte still has ticks to zero. -/
theorem accepts_of_feeds_arrived {bs : List Byte} {s : State} {q : Parser} {evs : List Event} (hne : bs ≠ [])
    (hst : s.parser.stalled s.cfg.parserTimeout = false)
    (h : Feeds s.params s.cfg s.slots bs s.parser.arrived q evs) :
    ∃ rs, accepts bs s = .next { s.setParser q with output := s.output ++ rs } ∧
      (∀ x ∈ rs, x.status = .ok) ∧ eventsOf rs = evs := by
  obtain ⟨rs, hrun, hrs⟩ := accepts_of_feeds (s := s.setParser s.parser.arrived) rfl h
  refine ⟨rs, ?_, hrs⟩
  obtain ⟨b, bs, rfl⟩ := List.exists_cons_of_ne_nil hne
  rw [accepts_cons, exec_acceptByte_arrived hst, ← accepts_cons, hrun, State.setParser_setParser]
  rfl

/-- Settles O31: from zero, a whole field's accumulator comes to the value of its bytes. -/
theorem headerFieldsAccumulateBigEndian : Obligations.HeaderFieldsAccumulateBigEndian := by
  intro s bs hinv hpos hst
  obtain ⟨⟨hi, -⟩, ⟨hl, -⟩, -⟩ := hinv.parser.widths
  refine ⟨fun hs hacc hlen => ?_, fun hs hacc hlen => ?_⟩
  · have hne : bs ≠ [] := List.ne_nil_of_length_pos (by omega)
    obtain ⟨rs, hrun, -, hevs⟩ := accepts_of_feeds_arrived hne hst (Feeds.id hs hpos hacc hne hlen)
    refine ⟨_, hrun, ?_, ?_⟩
    · simp [hevs]; rfl
    · simp [Parser.arrived, hpos]
  · have hne : bs ≠ [] := List.ne_nil_of_length_pos (by omega)
    obtain ⟨rs, hrun, -, hevs⟩ := accepts_of_feeds_arrived hne hst (Feeds.len hs hpos hacc hne hlen)
    refine ⟨_, hrun, ?_, ?_⟩
    · simp [hevs]; rfl
    · simp [Parser.arrived, hpos]

end Sys2Proof.Machine
end

section
/-! PROOFS. Frames on the wire (R122 to R124) and what the parser makes of one, whole or with other bytes in a window
and its checksum (R151 to R159); from it that transmitted frames are dispatched (R165). -/

namespace Sys2Proof.Machine

/-! ## The fields of a frame, one after the other -/

/-- A parser with the header fields `bi`, `bl` and `bt` of a frame received, in state `st`. -/
def Parser.opened (c : CfgRegs) (st : PState) (bi bl bt : List Byte) (p : Parser) : Parser :=
  { p.beginFrame c with
    pstate := st, rxId := BitVec.ofNat 32 (beVal bi), rxLen := BitVec.ofNat 32 (beVal bl),
    rxType := BitVec.ofNat 32 (beVal bt), hbuf := bi ++ bl ++ bt }

/-- With a checksum active, its field has bytes. -/
theorem ne_nil_of_length_cksize {sel : CksumSel} {ks : List Byte} (hck : sel ≠ .nosum) (hk : ks.length = cksize sel) :
    ks ≠ [] := by
  rintro rfl
  exact (cksize_pos_iff.2 hck).ne hk

section
variable {prm : Params} {c : CfgRegs} {slots : List Slot} {bs : List Byte} {p q : Parser} {evs : List Event}

/-- A frame begins with its start byte where one is configured, and with its first ID byte where not (R152). -/
theorem Feeds.start (hs : p.pstate = .sof) (hne : bs ≠ []) (h : Feeds prm c slots bs (p.beginFrame c) q evs) :
    Feeds prm c slots (sofField c ++ bs) p q evs := by
  cases hen : c.sofEn with
  | true =>
    have hstep : parserStep prm c slots c.sofByte p = .ok (p.beginFrame c) [] := by
      simp [parserStep, hs, stepSof, hen]
    simpa [sofField, hen] using Feeds.cons hstep h
  | false =>
    cases h with
    | nil => exact absurd rfl hne
    | @cons b _ _ _ _ _ _ first rest =>
      have hstep : parserStep prm c slots b p = parserStep prm c slots b (p.beginFrame c) := by
        simp [parserStep, hs, stepSof, hen, Parser.beginFrame]
      simpa [sofField, hen] using Feeds.cons (hstep.trans first) rest

section
variable {bi bl bt ks : List Byte} (hs : p.pstate = .sof) (hc : c.Legal) (hi : bi.length = c.idSize.toNat)
  (hl : bl.length = c.lenSize.toNat) (ht : bt.length = c.typeSize.toNat)
include hs hc hi hl ht

/-- A whole header leads to where TYPE is closed (R153 to R155). -/
theorem Feeds.header (hclose : ∀ f, { p.opened c .typ bi bl bt with fpos := f }.closeField prm slots = .ok q evs) :
    Feeds prm c slots (sofField c ++ (bi ++ bl ++ bt)) p q evs := by
  obtain ⟨⟨hi1, hi4⟩, ⟨hl1, hl4⟩, ht1, ht4⟩ := hc
  have hine : bi ≠ [] := List.ne_nil_of_length_pos (by omega)
  have hlne : bl ≠ [] := List.ne_nil_of_length_pos (by omega)
  have htne : bt ≠ [] := List.ne_nil_of_length_pos (by omega)
  refine .start hs (by simp [hine]) ?_
  refine (Feeds.followedBy (.id (p := p.beginFrame c) rfl rfl rfl hine (hi.trans (toNat_latchedWidth hi4).symm))
    (.len rfl rfl rfl hlne (hl.trans (toNat_latchedWidth hl4).symm))).followedBy (.of_field htne ?_ ?_)
  · exact ht.trans (toNat_latchedWidth ht4).symm
  · rw [Parser.takeBytes_typ rfl, ← hclose (0 + BitVec.ofNat 3 bt.length), Parser.opened, ← foldl_shiftIn_zero bt]
    rfl

/-- A whole header and header checksum lead to where HEADCKSUM is closed (R155, R156). -/
theorem Feeds.header_cksum (hck : c.cksumSel ≠ .nosum) (hk : ks.length = cksize c.cksumSel)
    (hclose : ∀ f, { p.opened c .headCksum bi bl bt with rxCk := BitVec.ofNat 32 (beVal ks), fpos := f }.closeField
      prm slots = .ok q evs) :
    Feeds prm c slots (sofField c ++ (bi ++ bl ++ bt ++ ks)) p q evs := by
  have hhead : Feeds prm c slots (sofField c ++ (bi ++ bl ++ bt)) p (p.opened c .headCksum bi bl bt) [] :=
    .header hs hc hi hl ht fun f => Parser.closeField_typ_cksum rfl hck
  rw [← List.append_assoc]
  refine hhead.followedBy (.of_field (ne_nil_of_length_cksize hck hk) hk ?_)
  rw [Parser.takeBytes_cksum (.inl rfl), ← hclose, ← foldl_shiftIn_zero]
  rfl

end

/-- A parser that has just opened the payload (R155, R156). -/
structure Parser.AtPayload (p : Parser) : Prop where
  state  : p.pstate = .data
  dbuf   : p.dbuf = []
  dcount : p.dcount = 0

section
variable {d ks : List Byte} (hp : p.AtPayload) (hne : d ≠ []) (hl : d.length = p.rxLen.toNat)
include hp hne hl

/-- A whole payload is taken and DATA closed (R157). -/
theorem Feeds.payload (hclose : { p with dbuf := d, dcount := BitVec.ofNat 32 d.length }.closeField prm slots =
    .ok q evs) : Feeds prm c slots d p q evs := by
  refine .of_field hne (by simp [Parser.remaining, hp.state, hp.dcount, hl]) ?_
  rw [Parser.takeBytes_data hp.state, ← hclose, hp.dbuf, hp.dcount, List.nil_append, zero_add]

/-- A whole payload and payload checksum are taken and DATACKSUM closed (R157, R159). -/
theorem Feeds.payload_cksum (hck : p.fCkSel ≠ .nosum) (hk : ks.length = cksize p.fCkSel)
    (hclose : ∀ f, { p with pstate := .dataCksum, dbuf := d, dcount := BitVec.ofNat 32 d.length,
                            rxCk := BitVec.ofNat 32 (beVal ks), fpos := f }.closeField prm slots = .ok q evs) :
    Feeds prm c slots (d ++ ks) p q evs := by
  refine (Feeds.payload hp hne hl (Parser.closeField_data_cksum hp.state hck)).followedBy
    (.of_field (ne_nil_of_length_cksize hck hk) hk ?_)
  rw [Parser.takeBytes_cksum (.inr rfl), ← hclose, ← foldl_shiftIn_zero]

end

end

/-! ## The bytes a frame is made of -/

@[simp] theorem ckWire_nosum (k : CksumDefs) (w : List Byte) : ckWire k .nosum w = 0 := by
  apply BitVec.eq_of_toNat_eq
  simp [toNat_ckWire, cksize, Nat.mod_one]

/-- A checksum field's value is the checksum (R109). -/
theorem beVal_cksumField (k : CksumDefs) (sel : CksumSel) (w : List Byte) :
    beVal (cksumField k sel w) = (ckWire k sel w).toNat := by
  rw [cksumField, beVal_be, toNat_ckWire, Nat.mod_mod]

/-- A field as wide as its value reads back as that value (R8). -/
theorem beVal_be_of_lt {v n : Nat} (h : v < 2 ^ (8 * n)) : beVal (be v n) = v := by
  rw [beVal_be, Nat.mod_eq_of_lt h]

/-- The parser at the payload of a frame sent with ID `id`, type `typ` and `n` payload bytes. -/
def Parser.headReceived (k : CksumDefs) (c : CfgRegs) (id typ : Word) (n : Nat) (p : Parser) : Parser :=
  { p.opened c .data (be id.toNat c.idSize.toNat) (be n c.lenSize.toNat) (be typ.toNat c.typeSize.toNat) with
    rxCk := ckWire k c.cksumSel (headerBytes c id typ n) }

theorem Parser.headReceived_atPayload (k : CksumDefs) (c : CfgRegs) (id typ : Word) (n : Nat) (p : Parser) :
    (p.headReceived k c id typ n).AtPayload :=
  ⟨rfl, rfl, rfl⟩

section
variable {c : CfgRegs} {d : List Byte} (hc : c.Legal) (hf : c.Fits d)
include hf

theorem length_lt_lenField : d.length < 2 ^ (8 * c.lenSize.toNat) :=
  have := Nat.two_pow_pos (8 * c.lenSize.toNat)
  have : d.length ≤ 2 ^ (8 * c.lenSize.toNat) - 1 := hf
  by omega

include hc

theorem length_lt_word : d.length < 2 ^ 32 :=
  Nat.lt_of_lt_of_le (length_lt_lenField hf) (Nat.pow_le_pow_right (by decide) (by have := hc.lenSize; omega))

/-- A payload that fits is counted exactly in the word `rx_len` (R154). -/
theorem toNat_length_word : (BitVec.ofNat 32 d.length).toNat = d.length :=
  Nat.mod_eq_of_lt (length_lt_word hc hf)

theorem length_word_ne_zero (hne : d ≠ []) : BitVec.ofNat 32 d.length ≠ 0 := fun h =>
  hne (List.length_eq_zero_iff.1 ((toNat_length_word hc hf).symm.trans (congrArg BitVec.toNat h)))

theorem Parser.length_eq_rxLen_headReceived (k : CksumDefs) (id typ : Word) (p : Parser) :
    d.length = (p.headReceived k c id typ d.length).rxLen.toNat := by
  show d.length = (BitVec.ofNat 32 (beVal (be d.length c.lenSize.toNat))).toNat
  rw [beVal_be_of_lt (length_lt_lenField hf), toNat_length_word hc hf]

end

/-- A checksum field as received is the checksum computed (R109). -/
theorem cksumField_word (k : CksumDefs) (sel : CksumSel) (w : List Byte) :
    BitVec.ofNat 32 (beVal (cksumField k sel w)) = ckWire k sel w := by
  rw [beVal_cksumField, BitVec.ofNat_toNat, BitVec.setWidth_eq]

/-- The dispatch of a frame received with these header fields and this payload (R158). -/
def receivedInfo (slots : List Slot) (bi bl bt d : List Byte) : DispatchInfo :=
  { frameId := BitVec.ofNat 32 (beVal bi), typ := BitVec.ofNat 32 (beVal bt), len := BitVec.ofNat 32 (beVal bl),
    data := d, isResponse := false, matchList := matchSlots slots (BitVec.ofNat 32 (beVal bi)) }

/-! ## The parser and a frame -/

section
variable {prm : Params} {c : CfgRegs} {slots : List Slot} {d : List Byte} {p : Parser} (hs : p.pstate = .sof)
  (hc : c.Legal) (hcap : prm.payloadCap = none) (hf : c.Fits d) (id typ : Word)
include hs hc

/-- A frame without payload is dispatched with its head (R155, R156). -/
theorem Feeds.emptyFrame : Feeds prm c slots (frameHead prm.cksumDefs c id typ 0) p (p.beginFrame c).clear
    [.dispatch (receivedInfo slots (be id.toNat c.idSize.toNat) (be 0 c.lenSize.toNat) (be typ.toNat c.typeSize.toNat)
      [])] := by
  have hlen : BitVec.ofNat 32 (beVal (be 0 c.lenSize.toNat)) = 0 := by
    rw [beVal_be_of_lt (Nat.two_pow_pos _)]
    rfl
  unfold frameHead headerBytes
  by_cases hck : c.cksumSel = .nosum
  · simp only [hck, cksumField, cksize, be, List.append_nil]
    exact .header hs hc (length_be _ _) (length_be _ _) (length_be _ _) fun f =>
      Parser.closeField_typ_empty rfl hck hlen
  · rw [List.append_assoc]
    exact .header_cksum hs hc (length_be _ _) (length_be _ _) (length_be _ _) hck (length_cksumField _ _ _) fun f =>
      Parser.closeField_headCksum_empty rfl (cksumField_word _ _ _) hlen

include hcap hf

/-- The head of a frame with a payload leads to the payload (R155, R156). -/
theorem Feeds.frameHead (hne : d ≠ []) : Feeds prm c slots (frameHead prm.cksumDefs c id typ d.length) p
    (p.headReceived prm.cksumDefs c id typ d.length) [] := by
  have hlen : BitVec.ofNat 32 (beVal (be d.length c.lenSize.toNat)) ≠ 0 := by
    rw [beVal_be_of_lt (length_lt_lenField hf)]
    exact length_word_ne_zero hc hf hne
  unfold Machine.frameHead headerBytes
  by_cases hck : c.cksumSel = .nosum
  · simp only [hck, cksumField, cksize, be, List.append_nil]
    refine .header hs hc (length_be _ _) (length_be _ _) (length_be _ _) fun f => ?_
    rw [Parser.closeField_typ_payload rfl hck hlen, hcap, enterData_none, Parser.headReceived, hck, ckWire_nosum]
    rfl
  · rw [List.append_assoc]
    refine .header_cksum hs hc (length_be _ _) (length_be _ _) (length_be _ _) hck (length_cksumField _ _ _) fun f => ?_
    rw [Parser.closeField_headCksum_payload rfl (cksumField_word _ _ _) hlen, hcap, enterData_none, cksumField_word]
    rfl

/-- A frame fed to a parser in SOF is dispatched once, at its last byte, which leaves the parser in SOF (R165). -/
theorem Feeds.frame : Feeds prm c slots (frameBytes prm.cksumDefs c id typ d) p (p.beginFrame c).clear
    [.dispatch (receivedInfo slots (be id.toNat c.idSize.toNat) (be d.length c.lenSize.toNat)
      (be typ.toNat c.typeSize.toNat) d)] := by
  by_cases hne : d = []
  · subst hne
    simpa [frameBytes, frameTail] using Feeds.emptyFrame hs hc id typ
  · have hpos : 0 < d.length := List.length_pos_iff.2 hne
    have hp := Parser.headReceived_atPayload prm.cksumDefs c id typ d.length p
    have hl := Parser.length_eq_rxLen_headReceived hc hf prm.cksumDefs id typ p
    refine (Feeds.frameHead hs hc hcap hf id typ hne).followedBy ?_
    rw [frameTail, if_pos hpos]
    by_cases hck : c.cksumSel = .nosum
    · simp only [hck, cksumField, cksize, be, List.append_nil]
      exact .payload hp hne hl (Parser.closeField_data_nosum rfl hck)
    · exact .payload_cksum hp hne hl hck (length_cksumField _ _ _) fun f =>
        Parser.closeField_dataCksum_match rfl (cksumField_word _ _ _)

end

/-! ## What a transmitting command puts on the wire -/

theorem chunkBytes_txChunks (ps : List (List Byte)) (es : List Event) :
    chunkBytes (ps.map .txChunk ++ es) = ps.flatten ++ chunkBytes es := by
  induction ps with
  | nil => rfl
  | cons p ps ih => simp [chunkBytes, ih]

/-- The chunks of a frame are the frame, whatever CHUNK_SIZE (R128). -/
theorem flatten_chunks (size : Word) (f : List Byte) : (chunks size f).flatten = f := by
  by_cases hs : size = 0
  · subst hs
    exact List.flatten_singleton
  · rw [chunks_of_ne_zero hs]
    exact flatten_pieces (BitVec.toNat_pos_of_ne_zero hs) _ f (Nat.le_refl _)

/-- The transmit byte stream of a frame is the frame (R129). -/
theorem chunkBytes_txEvents (c : CfgRegs) (f : List Byte) : chunkBytes (txEvents c f) = f := by
  rw [txEvents, chunkBytes, chunkBytes_txChunks, flatten_chunks]
  exact List.append_nil f

/-- A transmitting command that succeeds had a payload that fits (R244). -/
theorem fits_of_ok {i : Instr} {typ : Word} {d : List Byte} {s t : State} {r : Response} (hi : Transmits i typ d)
    (h : exec i s = .next t) (hr : t.output = s.output ++ [r]) (hok : r.status = .ok) : s.cfg.Fits d := by
  rw [← lenOverflows_eq_false, Bool.eq_false_iff]
  intro hover
  have hfail : t = s.reply .lenOverflow [] [] := by
    rcases hi with ⟨q, f, rfl⟩ | ⟨q, f, o, rfl⟩ | ⟨q, f, rfl⟩
    · simpa [hover] using sendFrame_eq_next.1 h
    · simpa [hover] using execQuery_eq_next.1 h
    · simpa [hover] using sendFrame_eq_next.1 h
  have hr' := State.reply_output_inj rfl (hfail ▸ hr : (s.reply .lenOverflow [] []).output = _)
  rw [hr'] at hok
  cases hok

/-- The ID chosen for a message fits its field (R120, R121). -/
theorem Message.idIn_lt (m : Message) {s : State} (hc : s.cfg.Legal) :
    (m.idIn s).toNat < 2 ^ (8 * s.cfg.idSize.toNat) := by
  rw [idIn, frameIdOf]
  cases m.resp with
  | false => exact allocatedId_lt hc.idSize s.nextId
  | true =>
    show (responseId s.cfg m.fid).toNat < _
    rw [toNat_responseId]
    exact Nat.mod_lt _ (Nat.two_pow_pos _)

/-- A transmitting command that returns an ID puts one frame on the wire, with that ID (R125 to R129). -/
theorem transmitted_of_id {i : Instr} {typ id : Word} {d : List Byte} {s t : State} {r : Response} (hc : s.cfg.Legal)
    (hi : Transmits i typ d) (h : exec i s = .next t) (hr : t.output = s.output ++ [r])
    (hid : r.values.head? = some id) :
    chunkBytes r.events = frameBytes s.params.cksumDefs s.cfg id typ d ∧ id.toNat < 2 ^ (8 * s.cfg.idSize.toNat) := by
  obtain ⟨resp, fid, hm⟩ := transmits_iff.1 hi
  rcases (answers_of_output h hr).of_message hm with ⟨-, hnone⟩ | ⟨hid', hevs⟩
  · simp [hnone] at hid
  · obtain rfl := Option.some.inj (hid'.symm.trans hid)
    exact ⟨by rw [hevs, Message.eventsIn, chunkBytes_txEvents], Message.idIn_lt _ hc⟩

/-! ## Round trip -/

section
variable {c c' : CfgRegs} (h : c.SameFraming c')
include h

/-- Frames look alike under the same framing configuration (R273). -/
theorem CfgRegs.SameFraming.frameBytes_eq (k : CksumDefs) (id typ : Word) (d : List Byte) :
    frameBytes k c id typ d = frameBytes k c' id typ d := by
  simp only [frameBytes, frameHead, frameTail, headerBytes, sofField, h.idSize, h.lenSize, h.typeSize, h.sofByte,
    h.sofEn, h.cksumSel]

theorem CfgRegs.SameFraming.legal (hc : c'.Legal) : c.Legal :=
  ⟨h.idSize ▸ hc.idSize, h.lenSize ▸ hc.lenSize, h.typeSize ▸ hc.typeSize⟩

theorem CfgRegs.SameFraming.fits {d : List Byte} (hf : c'.Fits d) : c.Fits d := by
  rwa [CfgRegs.Fits, h.lenSize]

end

/-- What is dispatched of a transmitted frame: its ID, its type cut to the field, its payload (R165). -/
theorem receivedInfo_of_sent {c : CfgRegs} {id : Word} {d : List Byte} (hid : id.toNat < 2 ^ (8 * c.idSize.toNat))
    (hf : c.Fits d) (slots : List Slot) (typ : Word) :
    receivedInfo slots (be id.toNat c.idSize.toNat) (be d.length c.lenSize.toNat) (be typ.toNat c.typeSize.toNat) d =
      { frameId := id, typ := BitVec.ofNat 32 (typ.toNat % 2 ^ (8 * c.typeSize.toNat)),
        len := BitVec.ofNat 32 d.length, data := d, isResponse := false, matchList := matchSlots slots id } := by
  simp only [receivedInfo, beVal_be_of_lt hid, beVal_be_of_lt (length_lt_lenField hf), beVal_be, BitVec.ofNat_toNat,
    BitVec.setWidth_eq]

/-- No frame is empty: its header fields are not (R81). -/
theorem frameBytes_ne_nil {c : CfgRegs} (hc : c.Legal) (k : CksumDefs) (id typ : Word) (d : List Byte) :
    frameBytes k c id typ d ≠ [] := by
  intro h
  obtain ⟨-, hmin, -⟩ := frameLengthFormula k c id typ d
  have := hmin hc
  simp [h] at this

/-- Settles O38: the bytes on the wire are one frame, and the parser dispatches it. -/
theorem transmittedFramesRoundTrip : Obligations.TransmittedFramesRoundTrip := by
  intro a a' s i typ id d r ha hi h hr hok hid hcap hdefs hsame hs
  obtain ⟨hwire, hidlt⟩ := transmitted_of_id ha hi h hr hid
  have hc := hsame.legal ha
  have hf := hsame.fits (fits_of_ok hi h hr hok)
  rw [← hdefs, ← hsame.frameBytes_eq] at hwire
  rw [← hsame.idSize] at hidlt
  have hframe := Feeds.frame (slots := s.slots) (p := s.parser.arrived) hs hc hcap hf id typ
  obtain ⟨rs, hrun, hrs, hevs⟩ :=
    accepts_of_feeds_arrived (frameBytes_ne_nil hc _ _ _ _) (Parser.stalled_of_sof hs) hframe
  rw [hwire]
  refine ⟨_, rs, hrun, rfl, hrs, ?_, rfl, rfl⟩
  rw [hevs, ← hsame.typeSize, receivedInfo_of_sent hidlt hf]
  rfl

end Sys2Proof.Machine
end

section
/-! PROOFS. Errors on the wire (R166): one changed byte of a window changes its checksum, so the parser drops the
frame. -/

namespace Sys2Proof.Machine

/-! ## One changed byte changes a checksum -/

/-- A fold that loses neither its value nor the element at any step tells apart lists that differ in one element. -/
theorem foldl_ne_of_injective {α β : Type} {f : α → β → α} (hl : ∀ b, Function.Injective (f · b))
    (hr : ∀ a, Function.Injective (f a)) {x y : β} (hne : x ≠ y) (u v : List β) (a : α) :
    (u ++ x :: v).foldl f a ≠ (u ++ y :: v).foldl f a := by
  have hinj : ∀ v : List β, Function.Injective fun a => v.foldl f a := by
    intro v
    induction v with
    | nil => exact fun _ _ h => h
    | cons b v ih => exact fun _ _ h => hl b (ih h)
  simp only [List.foldl_append, List.foldl_cons]
  exact fun h => hne (hr _ (hinj v h))

theorem xor_left_injective {w : Nat} (x : BitVec w) : Function.Injective (x ^^^ ·) := fun _ _ h => by simpa using h

theorem xor_right_injective {w : Nat} (x : BitVec w) : Function.Injective (· ^^^ x) := fun _ _ h => by simpa using h

/-- Nothing but the top bit is lost by a shift. -/
theorem eq_of_msb_eq_of_shiftLeft_one_eq {w : Nat} {c d : BitVec w} (hm : c.msb = d.msb) (hs : c <<< 1 = d <<< 1) :
    c = d := by
  refine BitVec.eq_of_getLsbD_eq fun i hi => ?_
  by_cases hlast : i = w - 1
  · simpa only [BitVec.msb_eq_getLsbD_last, hlast] using hm
  · have hbit := congrArg (·.getLsbD (i + 1)) hs
    simpa [hi, show i + 1 < w by omega] using hbit

/-- With an odd polynomial, bit 0 of the next value tells whether the polynomial went in, so no bit is lost. -/
theorem crcBit_injective {w : Nat} {poly : BitVec w} (hp : poly.getLsbD 0 = true) :
    Function.Injective (crcBit poly) := by
  have hpos : 0 < w := BitVec.lt_of_getLsbD hp
  have hbit (c : BitVec w) : (crcBit poly c).getLsbD 0 = c.msb := by
    cases hm : c.msb <;> simp [crcBit, hm, hp, hpos]
  intro c d h
  have hm : c.msb = d.msb := by rw [← hbit, ← hbit, h]
  refine eq_of_msb_eq_of_shiftLeft_one_eq hm ?_
  cases hd : d.msb <;> simpa [crcBit, hm, hd] using h

theorem reverse_injective {w : Nat} : Function.Injective (BitVec.reverse (w := w)) :=
  Function.LeftInverse.injective fun _ => BitVec.reverse_reverse_eq

/-- A byte moved to the top of a register is not lost. -/
theorem setWidth_shiftLeft_injective {w : Nat} (hw : 8 ≤ w) :
    Function.Injective fun b : Byte => b.setWidth w <<< (w - 8) := by
  intro a b h
  refine BitVec.eq_of_getLsbD_eq fun i hi => ?_
  have hbit := congrArg (·.getLsbD (i + (w - 8))) h
  simpa [show i + (w - 8) < w by omega, show i < w by omega] using hbit

theorem setWidth_injective {w : Nat} (hw : w ≤ 32) : Function.Injective fun x : BitVec w => x.setWidth 32 := by
  intro x y h
  have hval := congrArg BitVec.toNat h
  simp only [BitVec.toNat_setWidth_of_le hw] at hval
  exact BitVec.eq_of_toNat_eq hval

theorem crc_ne_of_ne {w : Nat} {k : CrcDef w} (hw : 8 ≤ w) (hp : k.poly.getLsbD 0 = true) {x y : Byte} (hne : x ≠ y)
    (u v : List Byte) : crc k (u ++ x :: v) ≠ crc k (u ++ y :: v) := by
  have hbits : Function.Injective (crcBits k.poly 8) := by
    rw [show crcBits k.poly 8 = (crcBit k.poly)^[8] from funext (crcBits_eq_iterate k.poly 8)]
    exact (crcBit_injective hp).iterate 8
  have hfold := foldl_ne_of_injective (f := crcByte k) (fun b c d h => xor_right_injective _ (hbits h))
    (fun c a b h => by
      have hin := setWidth_shiftLeft_injective hw (xor_left_injective c (hbits h))
      cases hr : k.refin with
      | false => simpa [hr] using hin
      | true => exact reverse_injective (by simpa [hr] using hin)) hne u v k.init
  intro h
  have hout := xor_right_injective k.xorout h
  cases hr : k.refout with
  | false => exact hfold (by simpa [hr] using hout)
  | true => exact hfold (reverse_injective (by simpa [hr] using hout))

theorem xorSum_ne_of_ne (xorOut : Byte) {x y : Byte} (hne : x ≠ y) (u v : List Byte) :
    xorSum xorOut (u ++ x :: v) ≠ xorSum xorOut (u ++ y :: v) := fun h =>
  foldl_ne_of_injective (f := (· ^^^ ·)) xor_right_injective xor_left_injective hne u v (0x00 : Byte)
    (xor_right_injective xorOut h)

/-- Settles O18: both algorithms fold the window byte by byte and lose nothing, the CRCs for their odd polynomials. -/
theorem oneChangedByteChangesTheChecksum : Obligations.OneChangedByteChangesTheChecksum := by
  intro k c u v x y hodd hc hne
  cases c with
  | nosum => exact absurd rfl hc
  | xor => exact fun h => xorSum_ne_of_ne k.xorOut hne u v (setWidth_injective (by decide) h)
  | crc8 => exact fun h => crc_ne_of_ne (by decide) hodd.crc8 hne u v (setWidth_injective (by decide) h)
  | crc16 => exact fun h => crc_ne_of_ne (by decide) hodd.crc16 hne u v (setWidth_injective (by decide) h)
  | crc32 => exact crc_ne_of_ne (by decide) hodd.crc32 hne u v

/-! ## One changed byte of a window or its checksum -/

/-- A checksum goes on the wire whole (R101, R109). -/
theorem ckWire_eq_ck (k : CksumDefs) (c : CksumSel) (d : List Byte) : ckWire k c d = ck k c d :=
  BitVec.eq_of_toNat_eq (by rw [toNat_ckWire, Nat.mod_eq_of_lt (checksumFitsItsWidth k c d)])

/-- Sequences that differ in one byte have different values. -/
theorem beVal_ne_of_ne {x y : Byte} (hne : x ≠ y) (u v : List Byte) : beVal (u ++ x :: v) ≠ beVal (u ++ y :: v) := by
  intro h
  simp only [beVal_append, beVal_cons, List.length_cons, Nat.add_left_cancel_iff, Nat.add_right_cancel_iff] at h
  exact hne (BitVec.eq_of_toNat_eq (Nat.eq_of_mul_eq_mul_right (Nat.pow_pos (by decide)) h))

/-- A list of two parts with one element changed has its parts, one of them changed. -/
theorem changed_part {α : Type} {as bs u v : List α} {x : α} (h : as ++ bs = u ++ x :: v) (y : α) :
    (∃ w, as = u ++ x :: w ∧ u ++ y :: v = (u ++ y :: w) ++ bs) ∨
    (∃ w, bs = w ++ x :: v ∧ u ++ y :: v = as ++ (w ++ y :: v)) := by
  rcases List.append_eq_append_iff.1 h with ⟨w, rfl, rfl⟩ | ⟨w, rfl, hw⟩
  · exact .inr ⟨w, rfl, by simp⟩
  · cases w with
    | nil => exact .inr ⟨[], by simpa using hw.symm, by simp⟩
    | cons z w =>
      obtain ⟨rfl, rfl⟩ := List.cons.inj hw
      exact .inl ⟨w, rfl, by simp⟩

/-- A window and its checksum with one byte changed are a window of the same length with a wrong checksum (R166). -/
theorem wrongChecksum_of_changed {k : CksumDefs} {sel : CksumSel} {w u v : List Byte} {x y : Byte} (hodd : OddPolys k)
    (hsel : sel ≠ .nosum) (hne : x ≠ y) (h : w ++ cksumField k sel w = u ++ x :: v) :
    ∃ w' ks, u ++ y :: v = w' ++ ks ∧ w'.length = w.length ∧ ks.length = cksize sel ∧
      BitVec.ofNat 32 (beVal ks) ≠ ckWire k sel w' := by
  rcases changed_part h y with ⟨w', rfl, hw⟩ | ⟨ks, hks, hw⟩
  · refine ⟨_, _, hw, by simp, length_cksumField _ _ _, ?_⟩
    rw [cksumField_word, ckWire_eq_ck, ckWire_eq_ck]
    exact oneChangedByteChangesTheChecksum k sel u w' x y hodd hsel hne
  · have hlen : (ks ++ y :: v).length = cksize sel := by
      rw [← length_cksumField k sel w, hks]
      simp
    have hlt : beVal (ks ++ y :: v) < 2 ^ 32 := calc
      beVal (ks ++ y :: v) < 256 ^ cksize sel := hlen ▸ beVal_lt _
      _ ≤ 256 ^ 4 := Nat.pow_le_pow_right (by decide) (cksize_le_four sel)
    refine ⟨_, _, hw, rfl, hlen, fun heq => ?_⟩
    have hval := congrArg BitVec.toNat heq
    rw [BitVec.toNat_ofNat, Nat.mod_eq_of_lt hlt, ← beVal_cksumField, hks] at hval
    exact beVal_ne_of_ne hne ks v hval.symm

/-! ## Corrupted frames are dropped -/

/-- Bytes that lead a parser in SOF back to SOF with no event are accepted with no dispatch. -/
theorem dropped_of_feeds {bs : List Byte} {s : State} {q : Parser} (hne : bs ≠ []) (hs : s.parser.pstate = .sof)
    (hq : q.pstate = .sof) (h : Feeds s.params s.cfg s.slots bs s.parser.arrived q []) :
    ∃ t, accepts bs s = .next t ∧ t.parser.pstate = .sof ∧
      dispatchesOf (eventsOf (t.output.drop s.output.length)) = [] := by
  obtain ⟨rs, hrun, -, hevs⟩ := accepts_of_feeds_arrived hne (Parser.stalled_of_sof hs) h
  refine ⟨_, hrun, hq, ?_⟩
  rw [List.drop_left, hevs]
  rfl

/-- A list as long as three parts together has them. -/
theorem exists_three_parts {α : Type} {l : List α} {a b c : Nat} (h : l.length = a + b + c) :
    ∃ x y z, l = x ++ y ++ z ∧ x.length = a ∧ y.length = b ∧ z.length = c :=
  ⟨l.take a, (l.drop a).take b, (l.drop a).drop b, by simp, by simp; omega, by simp; omega, by simp; omega⟩

/-- Settles O39: whichever byte is changed, the header checksum is wrong for the header that arrives. -/
theorem corruptedHeadersAreDropped : Obligations.CorruptedHeadersAreDropped := by
  intro s id typ n u v x y hc hodd hsel _ hs hne h
  obtain ⟨w, ks, hw, hlen, hk, hwrong⟩ := wrongChecksum_of_changed hodd hsel hne h
  rw [length_headerBytes] at hlen
  obtain ⟨bi, bl, bt, rfl, hi, hl, ht⟩ := exists_three_parts hlen
  rw [List.append_assoc, hw]
  have hfeed : Feeds s.params s.cfg s.slots (sofField s.cfg ++ (bi ++ bl ++ bt ++ ks)) s.parser.arrived
      (s.parser.arrived.beginFrame s.cfg).clear [] :=
    .header_cksum hs hc hi hl ht hsel hk fun f => Parser.closeField_headCksum_mismatch rfl hwrong
  exact dropped_of_feeds (by simp [ne_nil_of_length_cksize hsel hk]) hs rfl hfeed

/-- Settles O40: whichever byte is changed, the payload checksum is wrong for the payload that arrives. -/
theorem corruptedPayloadsAreDropped : Obligations.CorruptedPayloadsAreDropped := by
  intro s id typ d u v x y hc hodd hsel hcap hs hd hf hne h
  rw [frameTail, if_pos (List.length_pos_iff.2 hd)] at h
  obtain ⟨w, ks, hw, hlen, hk, hwrong⟩ := wrongChecksum_of_changed hodd hsel hne h
  have hwne : w ≠ [] := by
    rintro rfl
    exact hd (List.length_eq_zero_iff.1 hlen.symm)
  have hl := hlen.trans (Parser.length_eq_rxLen_headReceived hc hf s.params.cksumDefs id typ s.parser.arrived)
  rw [List.append_assoc, hw]
  have htail : Feeds s.params s.cfg s.slots (w ++ ks)
      (s.parser.arrived.headReceived s.params.cksumDefs s.cfg id typ d.length)
      (s.parser.arrived.beginFrame s.cfg).clear [] :=
    .payload_cksum (Parser.headReceived_atPayload ..) hwne hl hsel hk fun f =>
      Parser.closeField_dataCksum_mismatch rfl hwrong
  exact dropped_of_feeds (by simp [hwne]) hs rfl
    ((Feeds.frameHead (p := s.parser.arrived) hs hc hcap hf id typ hd).followedBy htail)

end Sys2Proof.Machine
end

section
/-! PROOFS. Transport grouping (R60, R79, R163): however the words of a sequence of commands are cut into pieces, with
whatever steps between, the engine goes where the commands lead. -/

namespace Sys2Proof.Machine

/-! ## The command at the head of the words delivered so far -/

/-- Words that end inside a command decode to nothing yet (R271; log entry 1). -/
theorem decode_of_cut {i : Instr} {ws more rest : List Word} (hi : i.wf = true)
    (hw : ws ++ more = encode i ++ rest) (hlen : ws.length < (encode i).length) : decode ws = .incomplete := by
  obtain ⟨op, w, args, hall, hc, hl, -⟩ := decode_eq_instr_iff.1 (decodeOfEncodeIsTheCommand i rest hi)
  have henc : encode i = w :: args := List.append_cancel_right hall
  cases ws with
  | nil => rfl
  | cons w' ops =>
    rw [henc, List.cons_append, List.cons_append] at hw
    obtain ⟨rfl, hops⟩ := List.cons.inj hw
    simp only [henc, List.length_cons, Nat.add_lt_add_iff_right] at hlen
    cases hn : op.operandLength ops with
    | none => simp [decode, Op.ofCode?_eq_some.2 hc, hn]
    | some n =>
      have hn' : n = args.length := by
        have h := Op.operandLength_append hn more
        rw [hops, Op.operandLength_append hl rest] at h
        exact (Option.some.inj h).symm
      simp [decode, Op.ofCode?_eq_some.2 hc, hn, hn', hlen]

theorem step_of_incomplete {s : State} (hr : s.resetIn = false) (hd : decode s.input = .incomplete) :
    step s = .next s := by
  simp [step, State.nextCommand, hr, hd]

/-- No command touches the RESET input. -/
theorem exec_resetIn {i : Instr} {s t : State} (h : exec i s = .next t) : t.resetIn = s.resetIn := by
  obtain ⟨-, -, -, -, -, hr⟩ := onlyTheNamedCommandsWriteEachPart i s t h
  exact hr

/-! ## Words under way -/

/-- The commands `is` are under way to the engine: it holds their first words in `input`, and the words `more` are
still to be delivered. -/
structure UnderWay (is : List Instr) (more : List Word) (s : State) : Prop where
  resetIn : s.resetIn = false
  wf : ∀ i ∈ is, i.wf = true
  words : s.input ++ more = commandStream is

/-- A step waits, for lack of a command or of its last words, or runs the first command and leaves the others under
way. -/
theorem UnderWay.step_cases {is : List Instr} {more : List Word} {s : State} (h : UnderWay is more s) :
    (step s = .next s ∧ (more = [] → is = [])) ∨
    ∃ i js rest, is = i :: js ∧ step s = exec i (s.setInput rest) ∧ rest ++ more = commandStream js := by
  obtain ⟨hr, hwf, hw⟩ := h
  cases is with
  | nil =>
    obtain ⟨hin, -⟩ := List.append_eq_nil_iff.1 hw
    exact .inl ⟨step_of_incomplete hr (by rw [hin]; rfl), fun _ => rfl⟩
  | cons i js =>
    have hi := hwf i List.mem_cons_self
    by_cases hlen : s.input.length < (encode i).length
    · refine .inl ⟨step_of_incomplete hr (decode_of_cut hi hw hlen), ?_⟩
      rintro rfl
      rw [List.append_nil] at hw
      exact absurd hlen (by simp [hw, commandStream])
    · obtain ⟨rest, hin⟩ : encode i <+: s.input :=
        List.prefix_of_prefix_length_le (l₃ := commandStream (i :: js)) (List.prefix_append _ _) ⟨more, hw⟩ (by omega)
      have hd : decode s.input = .instr i rest := hin ▸ decodeOfEncodeIsTheCommand i rest hi
      refine .inr ⟨i, js, rest, rfl, step_eq_exec_of_decode hr hd, ?_⟩
      rw [← hin, List.append_assoc] at hw
      exact List.append_cancel_left hw

/-- Whatever a continuation does with a state, it goes where at most `k` commands under way lead. -/
def Follows (more : List Word) (k : Nat) (f : State → Result) : Prop :=
  ∀ is s, is.length ≤ k → UnderWay is more s → f s = runCommands is (s.setInput [])

/-- Running the first command and following the others is running them all: no command reads the words behind it. -/
theorem andThen_exec_setInput {i : Instr} {js : List Instr} {more rest : List Word} {k : Nat} {f : State → Result}
    {s : State} (hf : Follows more k f) (hk : js.length ≤ k) (h : UnderWay (i :: js) more s)
    (hw : rest ++ more = commandStream js) :
    andThen (exec i (s.setInput rest)) f = runCommands (i :: js) (s.setInput []) := by
  rw [runCommands, exec_setInput i s rest, exec_setInput i s []]
  cases hi : exec i s with
  | next t =>
    exact hf js (t.setInput rest) hk
      ⟨(exec_resetIn hi).trans h.resetIn, fun j hj => h.wf j (List.mem_cons_of_mem i hj), hw⟩
  | fault e => rfl
  | refused e => rfl

/-- Any number of steps may go by first. -/
theorem Follows.runSteps {more : List Word} {k : Nat} {f : State → Result} (hf : Follows more k f) (n : Nat) :
    Follows more k fun s => andThen (runSteps n s) f := by
  induction n with
  | zero => exact hf
  | succ n ih =>
    intro is s hk h
    show andThen (andThen (step s) (Machine.runSteps n)) f = _
    rw [andThen_assoc]
    rcases h.step_cases with ⟨hwait, -⟩ | ⟨i, js, rest, rfl, hstep, hw⟩
    · rw [hwait]
      exact ih is s hk h
    · rw [hstep]
      exact andThen_exec_setInput ih (Nat.le_of_succ_le hk) h hw

/-- With every word delivered, as many steps as commands run them all. -/
theorem follows_runSteps (k : Nat) : Follows [] k (runSteps k) := by
  induction k with
  | zero =>
    intro is s hk h
    obtain rfl := List.length_eq_zero_iff.1 (Nat.le_zero.1 hk)
    have hin : s.input = [] := by simpa [commandStream] using h.words
    show Host.Outcome.next s = .next (s.setInput [])
    rw [← hin]
    rfl
  | succ k ih =>
    intro is s hk h
    show andThen (step s) (runSteps k) = _
    rcases h.step_cases with ⟨hwait, hnone⟩ | ⟨i, js, rest, rfl, hstep, hw⟩
    · obtain rfl := hnone rfl
      rw [hwait]
      exact ih [] s (Nat.zero_le _) h
    · rw [hstep]
      exact andThen_exec_setInput ih (Nat.le_of_succ_le_succ hk) h hw

/-- Pieces delivered first, with steps between, may be followed by the steps. -/
theorem follows_deliver (k : Nat) (ps : List (List Word × Nat)) :
    Follows (ps.flatMap Prod.fst) k fun s => andThen (deliver ps s) (runSteps k) := by
  induction ps with
  | nil => exact follows_runSteps k
  | cons p ps ih =>
    intro is s hk h
    show andThen (andThen (runSteps p.2 (s.issue p.1)) (deliver ps)) (runSteps k) = _
    rw [andThen_assoc]
    exact ih.runSteps p.2 is (s.issue p.1) hk ⟨h.resetIn, h.wf, by simpa [State.issue] using h.words⟩

/-- Settles O42: both deliveries go where the commands lead. -/
theorem transportGroupingHasNoEffect : Obligations.TransportGroupingHasNoEffect := by
  intro is ps s hr hin hwf hps
  have hself : s.setInput [] = s := by rw [← hin]; rfl
  have hpieces := follows_deliver is.length ps is s (Nat.le_refl _) ⟨hr, hwf, by rw [hin, hps]; rfl⟩
  have hwhole := follows_runSteps is.length is (s.issue (commandStream is)) (Nat.le_refl _)
    ⟨hr, hwf, by simp [State.issue, hin]⟩
  have hwhole' : runSteps is.length (s.issue (commandStream is)) = runCommands is s :=
    hwhole.trans (congrArg (runCommands is) hself)
  exact ⟨(hpieces.trans (congrArg (runCommands is) hself)).trans hwhole'.symm, hwhole'⟩

end Sys2Proof.Machine
end

section
/-! PROOFS. Listener slots and ticks (43_listener.md): what LADD, LREM, LRENEW and LREAD do to a slot, how a slot ages
from tick to tick, which slots a dispatch lists, and how a slot leaves the table. -/

namespace Sys2Proof.Machine

/-! ## A slot written -/

section
variable {slots : List Slot} {k j : Nat} {v : Slot}

theorem slotAt_putSlot_self (hk : k ≤ slots.length) : slotAt (putSlot slots k v) k = v := by
  rw [slotAt_putSlot hk, if_pos rfl]

theorem slotAt_putSlot_of_ne (hk : k ≤ slots.length) (hj : j ≠ k) :
    slotAt (putSlot slots k v) j = slotAt slots j := by
  rw [slotAt_putSlot hk, if_neg hj]

/-- A valid slot that one write makes free is the slot written, with a free value. -/
theorem putSlot_frees (hk : k ≤ slots.length) (hv : (slotAt slots j).valid = true)
    (hf : (slotAt (putSlot slots k v) j).valid = false) : k = j ∧ v.valid = false := by
  by_cases hj : j = k
  · subst hj
    rw [slotAt_putSlot_self hk] at hf
    exact ⟨rfl, hf⟩
  · rw [slotAt_putSlot_of_ne hk hj, hv] at hf
    cases hf

end

/-! ## LADD, LREM, LRENEW and LREAD -/

/-- Settles O44: the lowest free slot is the one LADD writes. -/
theorem laddFillsTheLowestFreeSlot : Obligations.LaddFillsTheLowestFreeSlot := by
  intro s lid o k hr hfree hlow
  have hk := freeSlot?_of_lowest hr hfree hlow
  obtain ⟨-, -, hgap, -⟩ := freeSlot?_eq_some hk
  exact ⟨putSlot s.slots k (listenSlot lid o), execLadd_eq_next.2 (.inr ⟨k, hk, rfl⟩), slotAt_putSlot_self hgap,
    fun _ hj => slotAt_putSlot_of_ne hgap hj⟩

section
variable {sl : Slot}

theorem Slot.renew_of_timed (h : sl.hasTo = true) : sl.renew = { sl with countdown := sl.maxTo } := by
  rw [renew, if_pos h]

theorem Slot.renew_of_untimed (h : sl.hasTo = false) : sl.renew = sl := by
  rw [renew, h]
  rfl

/-- LRENEW frees no slot (R192). -/
@[simp] theorem Slot.renew_valid : sl.renew.valid = sl.valid := by
  cases h : sl.hasTo with
  | true => rw [renew_of_timed h]
  | false => rw [renew_of_untimed h]

end

/-- Settles O45: a valid slot is a listed one, so both commands write it in place. -/
theorem lremFreesAndLrenewReloads : Obligations.LremFreesAndLrenewReloads := by
  intro s k hr hv
  have hlive : liveSlot s k.toNat = true := liveSlot_iff.2 ⟨hr, hv⟩
  have hgap := (lt_length_of_valid hv).le
  refine ⟨⟨_, execLrem_eq_next.2 (.inr ⟨hlive, rfl⟩), ?_, ?_⟩,
    ⟨_, execLrenew_eq_next.2 (.inr ⟨hlive, rfl⟩), ?_, ?_, ?_⟩⟩
  · exact slotAt_putSlot_self hgap
  · exact fun _ hj => slotAt_putSlot_of_ne hgap hj
  · exact fun ht => (slotAt_putSlot_self hgap).trans (Slot.renew_of_timed ht)
  · exact fun ht => (slotAt_putSlot_self hgap).trans (Slot.renew_of_untimed ht)
  · exact fun _ hj => slotAt_putSlot_of_ne hgap hj

/-- The flags word of a slot: `valid` in bit 0, `has_to` in bit 1 (R194). -/
theorem toNat_slotFlags (v t : Bool) : (flagWord v ||| (flagWord t <<< 1)).toNat = v.toNat + 2 * t.toNat := by
  revert v t
  decide

/-- Settles O46: the words are those of the slot, and the invariant has a free slot all zero. -/
theorem lreadReturnsTheSlot : Obligations.LreadReturnsTheSlot := by
  intro s k hr
  have hread : exec (.lread k) s = .next (s.reply .ok (slotAt s.slots k.toNat).words []) :=
    execLread_eq_next.2 (.inr ⟨hr, rfl⟩)
  refine ⟨⟨_, toNat_slotFlags _ _, hread⟩, fun hinv hfree => ?_⟩
  rw [hread, (slotAt_inv hinv.slots k.toNat).free hfree]
  rfl

/-! ## One tick -/

section
variable {sl : Slot}

/-- A free slot and an untimed one do not age (R196). -/
theorem Slot.age_of_idle (h : sl.valid = false ∨ sl.hasTo = false) : sl.age = sl := by
  rcases h with h | h <;> simp [age, h]

section
variable (hv : sl.valid = true) (ht : sl.hasTo = true)
include hv ht

/-- A timed slot at its last tick is freed (R196). -/
theorem Slot.age_of_last (hc : sl.countdown.toNat ≤ 1) : sl.age = Slot.free := by
  simp [age, hv, ht, hc]

/-- A timed slot before its last tick counts down (R196). -/
theorem Slot.age_of_counting (hc : 1 < sl.countdown.toNat) :
    sl.age = { sl with countdown := BitVec.ofNat 32 (sl.countdown.toNat - 1) } := by
  have hdec : sl.countdown - 1 = BitVec.ofNat 32 (sl.countdown.toNat - 1) := by bv_omega
  simp [age, hv, ht, Nat.not_le.2 hc, ← hdec]

end

/-- A valid slot that a tick frees was timed and at its last tick. -/
theorem Slot.age_frees (hv : sl.valid = true) (h : sl.age.valid = false) :
    sl.hasTo = true ∧ sl.countdown.toNat ≤ 1 := by
  have ht : sl.hasTo = true := by
    by_contra ht
    rw [age_of_idle (.inr (Bool.eq_false_of_not_eq_true ht)), hv] at h
    cases h
  refine ⟨ht, ?_⟩
  by_contra hc
  rw [age_of_counting hv ht (Nat.not_le.1 hc)] at h
  exact absurd (hv.symm.trans h) nofun

end

theorem toNat_sat32 (v : Nat) : (sat32 v).toNat = min v (2 ^ 32 - 1) :=
  Nat.mod_eq_of_lt (by omega)

/-- Settles O48: each slot ages by the case it is in. -/
theorem tickAgesEverySlot : Obligations.TickAgesEverySlot := by
  intro s
  refine ⟨_, s.slots.map Slot.age, execTick_eq_next.2 rfl, toNat_sat32 _, List.length_map _, fun k => ?_⟩
  simp only [slotAt_map_age]
  exact ⟨fun ⟨hv, ht, hc⟩ => Slot.age_of_last hv ht hc, fun ⟨hv, ht, hc⟩ => Slot.age_of_counting hv ht hc,
    Slot.age_of_idle⟩

/-! ## Ticks in a row -/

/-- Ticks in a row complete, and age every slot once each (R87). -/
theorem ticks_complete (n : Nat) (s : State) :
    ∃ t, ticks n s = .next t ∧ ∀ k, slotAt t.slots k = Slot.age^[n] (slotAt s.slots k) := by
  induction n generalizing s with
  | zero => exact ⟨s, rfl, fun _ => rfl⟩
  | succ n ih =>
    obtain ⟨u, hu⟩ : ∃ u, execTick s = .next u := ⟨_, rfl⟩
    have hslots : u.slots = s.slots.map Slot.age := by rw [execTick_eq_next.1 hu]; rfl
    obtain ⟨t, ht, hage⟩ := ih u
    refine ⟨t, ?_, fun k => ?_⟩
    · show andThen (execTick s) (ticks n) = .next t
      rw [hu, andThen_next, ht]
    · rw [hage, hslots, slotAt_map_age, Function.iterate_succ_apply]

section
variable {sl : Slot} {n : Nat} (hv : sl.valid = true) (ht : sl.hasTo = true)
include hv ht

/-- Before its last tick a timed slot has counted down once a tick. -/
theorem Slot.iterate_age_of_lt (h : n < max 1 sl.countdown.toNat) :
    age^[n] sl = { sl with countdown := BitVec.ofNat 32 (sl.countdown.toNat - n) } := by
  induction n with
  | zero => simp
  | succ n ih =>
    have hcount : (BitVec.ofNat 32 (sl.countdown.toNat - n)).toNat = sl.countdown.toNat - n :=
      Nat.mod_eq_of_lt (by omega)
    rw [Function.iterate_succ_apply', ih (by omega), age_of_counting]
    · simp only [hcount, Nat.sub_sub]
    · exact hv
    · exact ht
    · show 1 < (BitVec.ofNat 32 (sl.countdown.toNat - n)).toNat
      omega

/-- From its last tick on a timed slot is free (R197). -/
theorem Slot.iterate_age_of_le (h : max 1 sl.countdown.toNat ≤ n) : age^[n] sl = Slot.free := by
  induction n, h using Nat.le_induction with
  | base =>
    obtain ⟨m, hm⟩ : ∃ m, max 1 sl.countdown.toNat = m + 1 := ⟨max 1 sl.countdown.toNat - 1, by omega⟩
    rw [hm, Function.iterate_succ_apply', iterate_age_of_lt hv ht (by omega), age_of_last]
    · exact hv
    · exact ht
    · show (BitVec.ofNat 32 (sl.countdown.toNat - m)).toNat ≤ 1
      rw [BitVec.toNat_ofNat]
      omega
  | succ n _ ih => rw [Function.iterate_succ_apply', ih, age_of_idle (.inl rfl)]

end

/-- Settles O49: n ticks age the slot n times, and a slot is listed for its ID while it is valid. -/
theorem listenersExpireAfterTheirTicks : Obligations.ListenersExpireAfterTheirTicks := by
  intro s k n hv ht
  obtain ⟨t, htick, hage⟩ := ticks_complete n s
  refine ⟨t, htick, fun h => ?_, fun h => ?_⟩
  · have hslot := (hage k).trans (Slot.iterate_age_of_lt hv ht h)
    refine ⟨hslot, mem_matchSlots.2 ?_⟩
    rw [hslot]
    exact ⟨hv, rfl⟩
  · have hslot := (hage k).trans (Slot.iterate_age_of_le hv ht h)
    refine ⟨hslot, fun hmem => ?_⟩
    obtain ⟨hvalid, -⟩ := mem_matchSlots.1 hmem
    rw [hslot] at hvalid
    cases hvalid

/-! ## What a dispatch lists -/

section
variable {prm : Params} {c : CfgRegs} {slots : List Slot} {p q : Parser} {evs : List Event}
  {d : DispatchInfo} {b : Byte}

/-- DISPATCH emits the frame held and nothing else (R158). -/
theorem eq_of_mem_dispatchFrame (h : dispatchFrame slots p = .ok q evs) (hd : .dispatch d ∈ evs) :
    d = dispatchInfo slots p := by
  cases h
  simpa using hd

/-- Entering DATA dispatches nothing. -/
theorem not_mem_of_enterData {cap : Option Nat} (h : enterData cap p = .ok q evs) : .dispatch d ∉ evs := by
  rcases enterData_cases cap p with ⟨-, h'⟩ | ⟨-, h'⟩
  · rw [h'] at h; cases h; simp
  · rw [h'] at h; cases h

/-- A field that closes with a dispatch is the header of an empty frame or ends the payload, and the frame dispatched is
the one held (R155 to R159). -/
theorem Parser.closeField_dispatches (h : p.closeField prm slots = .ok q evs) (hd : .dispatch d ∈ evs) :
    d = dispatchInfo slots p ∧
      ((p.pstate = .typ ∨ p.pstate = .headCksum) ∧ p.rxLen = 0 ∨ p.pstate = .data ∨ p.pstate = .dataCksum) := by
  cases hs : p.pstate with
  | sof | id | len =>
    simp only [closeField, hs] at h
    cases h
    cases hd
  | typ =>
    simp only [closeField, hs] at h
    split at h
    · cases h
      cases hd
    · split at h
      · next hlen => exact ⟨eq_of_mem_dispatchFrame h hd, .inl ⟨.inl rfl, hlen⟩⟩
      · exact absurd hd (not_mem_of_enterData h)
  | headCksum =>
    simp only [closeField, hs] at h
    split at h
    · cases h
      cases hd
    · split at h
      · next hlen => exact ⟨eq_of_mem_dispatchFrame h hd, .inl ⟨.inr rfl, hlen⟩⟩
      · exact absurd hd (not_mem_of_enterData h)
  | data =>
    simp only [closeField, hs] at h
    split at h
    · exact ⟨eq_of_mem_dispatchFrame h hd, .inr (.inl rfl)⟩
    · cases h
      cases hd
  | dataCksum =>
    simp only [closeField, hs] at h
    split at h
    · cases h
      cases hd
    · exact ⟨eq_of_mem_dispatchFrame h hd, .inr (.inr rfl)⟩

theorem Parser.takeBytes_pstate (bs : List Byte) (p : Parser) : (p.takeBytes bs).pstate = p.pstate := by
  cases hs : p.pstate <;> simp only [takeBytes, hs]

/-- Outside SOF the open field waits for a byte (R37). -/
theorem Parser.Inv.remaining_pos (h : p.Inv) (hs : p.pstate ≠ .sof) : 0 < p.remaining := by
  cases hp : p.pstate with
  | sof => exact absurd hp hs
  | id => have hfield := h.inId hp; simp only [remaining, hp]; omega
  | len => have hfield := h.inLen hp; simp only [remaining, hp]; omega
  | typ => have hfield := h.inTyp hp; simp only [remaining, hp]; omega
  | headCksum => have hfield := h.inHeadCksum hp; simp only [remaining, hp]; omega
  | data => have hfield := h.inData hp; simp only [remaining, hp]; omega
  | dataCksum => have hfield := h.inDataCksum hp; simp only [remaining, hp]; omega

/-- With the byte that ends a frame, the payload held has the length declared: none of an empty frame, counted in DATA,
whole from then on (R37). -/
theorem Parser.Inv.length_of_last (hp : p.Inv) (hlast : p.remaining = 1)
    (hends : (p.pstate = .typ ∨ p.pstate = .headCksum) ∧ (p.takeBytes [b]).rxLen = 0 ∨ p.pstate = .data ∨
      p.pstate = .dataCksum) : (p.takeBytes [b]).rxLen.toNat = (p.takeBytes [b]).dbuf.length := by
  have hcount := hp.dcount
  rcases hends with ⟨hs | hs, hlen⟩ | hs | hs
  · obtain ⟨-, -, hempty⟩ := hp.inTyp hs
    rw [hlen, takeBytes_typ hs, hempty]
    rfl
  · obtain ⟨-, -, -, hempty⟩ := hp.inHeadCksum hs
    rw [hlen, takeBytes_cksum (.inl hs), hempty]
    rfl
  · simp only [remaining, hs] at hlast
    simp only [takeBytes_data hs, List.length_append, List.length_singleton]
    omega
  · obtain ⟨-, hwhole, -⟩ := hp.inDataCksum hs
    simp only [takeBytes_cksum (.inr hs), ← hwhole, hcount]

/-- A dispatched frame's data has the length it declares (R77). -/
theorem Parser.Inv.length_dispatched (hp : p.Inv) (h : parserStep prm c slots b p = .ok q evs)
    (hd : .dispatch d ∈ evs) : d.len.toNat = d.data.length := by
  have hs : p.pstate ≠ .sof := fun hs => by
    simp only [parserStep, hs] at h
    cases h
    cases hd
  rcases Nat.lt_or_eq_of_le (hp.remaining_pos hs) with hmore | hlast
  · rw [(parserStep_of_early hmore b).1] at h
    cases h
    cases hd
  · rw [parserStep_of_last hlast.symm] at h
    obtain ⟨rfl, hends⟩ := closeField_dispatches h hd
    rw [takeBytes_pstate] at hends
    exact hp.length_of_last hlast.symm hends

/-- A parser step that dispatches emits that frame alone, with its match list taken from the slots, and is back in SOF
(R158, R195). -/
theorem parserStep_dispatches (h : parserStep prm c slots b p = .ok q evs) (hd : .dispatch d ∈ evs) :
    d.matchList = matchSlots slots d.frameId ∧ d.isResponse = false ∧ q.pstate = .sof := by
  rcases parserStep_event h with rfl | ⟨p', rfl, rfl, -⟩
  · cases hd
  · obtain rfl : d = dispatchInfo slots p' := by simpa using hd
    exact ⟨rfl, rfl, rfl⟩

end

/-- Settles O50: what ACCEPT_BYTE hands back is what the parser step dispatches from a parser with the invariant. -/
theorem dispatchListsTheMatchingSlots : Obligations.DispatchListsTheMatchingSlots := by
  intro s t b r d hinv h hr hd
  obtain ⟨p, evs, hp, rfl⟩ := execAcceptByte_eq_next.1 h
  obtain rfl := State.reply_output_inj (State.setParser_output s p) hr
  obtain ⟨hmatch, hresp, hsof⟩ := parserStep_dispatches hp hd
  rw [hmatch]
  exact ⟨matchSlots_pairwise _ _, fun _ => mem_matchSlots, hresp, (hinv.parser.arrive _).length_dispatched hp hd,
    hsof⟩

/-! ## How a slot leaves the table -/

/-- Of the effects of commands, only LREM's and a timed slot's last TICK free a valid slot (R198). -/
theorem Effect.frees {s u : State} {i : Instr} {k : Nat} (h : Effect s i u) (hv : (slotAt s.slots k).valid = true)
    (hf : (slotAt u.slots k).valid = false) : (∃ j : BitVec 16, i = .lrem j ∧ j.toNat = k) ∨
      (i = .tick ∧ (slotAt s.slots k).hasTo = true ∧ (slotAt s.slots k).countdown.toNat ≤ 1) := by
  cases h with
  | none | acceptByte | resetParser | cfgw | allocate => exact absurd (hv.symm.trans hf) nofun
  | tick =>
    rw [State.setSlots_slots, slotAt_map_age] at hf
    exact .inr ⟨rfl, Slot.age_frees hv hf⟩
  | query r f y o d j hj | ladd l o j hj =>
    obtain ⟨-, -, hgap, -⟩ := freeSlot?_eq_some hj
    obtain ⟨-, hlisten⟩ := putSlot_frees hgap hv hf
    cases hlisten
  | lrem j hlive =>
    obtain ⟨-, hj⟩ := liveSlot_iff.1 hlive
    exact .inl ⟨j, rfl, (putSlot_frees (lt_length_of_valid hj).le hv hf).1⟩
  | lrenew j hlive =>
    obtain ⟨-, hj⟩ := liveSlot_iff.1 hlive
    obtain ⟨-, hrenew⟩ := putSlot_frees (lt_length_of_valid hj).le hv hf
    rw [Slot.renew_valid, hj] at hrenew
    cases hrenew

/-- An illegal encoding is answered, its words taken, and nothing else happens (R75). -/
theorem step_of_illegal {s : State} {why : Illegal} {rest : List Word} (hr : s.resetIn = false)
    (hd : decode s.input = .illegal why rest) : step s = .next ((s.setInput rest).reply .illegalCmd [] []) := by
  simp [step, State.nextCommand, hr, hd, rejectCommand, raise]

/-- Settles O51: ACCEPT_BYTE writes the parser alone; a step without RESET that frees a slot runs a command whose effect
does. -/
theorem slotsLeaveOnlyByRemovalExpiryOrReset : Obligations.SlotsLeaveOnlyByRemovalExpiryOrReset := by
  refine ⟨fun s t b h => ?_, fun s t k h hv hf => ?_⟩
  · obtain ⟨p, evs, -, rfl⟩ := execAcceptByte_eq_next.1 h
    rfl
  · cases hr : s.resetIn with
    | true => exact .inl rfl
    | false =>
      refine .inr ?_
      cases hd : decode s.input with
      | incomplete =>
        rw [step_of_incomplete hr hd] at h
        cases h
        exact absurd (hv.symm.trans hf) nofun
      | illegal why rest =>
        rw [step_of_illegal hr hd] at h
        cases h
        exact absurd (hv.symm.trans hf) nofun
      | instr i rest =>
        rw [step_eq_exec_of_decode hr hd] at h
        obtain ⟨u, hu, st, vals, evs, rfl⟩ := exec_effect h
        exact ⟨i, rest, rfl, hu.frees hv hf⟩

end Sys2Proof.Machine
end

section
/-! PROOFS. The configuration registers (44_config.md): what a register reads after a write of it and of another, and
what CFGW and CFGR do at the number of a register. -/

namespace Sys2Proof.Machine

/-! ## The values of registers -/

/-- SOF_CTRL has SOF_EN in bit 8 above SOF_BYTE (R21). -/
theorem toNat_sofCtrl (en : Bool) (b : Byte) :
    ((flagWord en <<< 8) ||| b.setWidth 32).toNat = 256 * en.toNat + b.toNat := by
  have hflag : (flagWord en <<< 8).toNat = 2 ^ 8 * en.toNat := by cases en <;> rfl
  rw [BitVec.toNat_or, hflag, BitVec.toNat_setWidth_of_le (by decide)]
  exact (Nat.two_pow_add_eq_or_of_lt b.isLt _).symm

theorem toNat_nSlotsWord_some (n : Nat) : (nSlotsWord (some n)).toNat = min n (2 ^ 32 - 1) := toNat_sat32 n

theorem toNat_nSlotsWord_none : (nSlotsWord none).toNat = 2 ^ 32 - 1 := toNat_sat32 _

theorem CksumSel.ofCode?_eq_some {n : Nat} {c : CksumSel} (h : CksumSel.ofCode? n = some c) : c.code = n := by
  match n with
  | 0 | 1 | 2 | 3 | 4 => cases h; rfl
  | n + 5 => cases h

/-- Every number up to 0x0B is a register's (R21). -/
theorem CfgReg.exists_num {r : Byte} (hr : r.toNat ≤ 0x0B) : ∃ g : CfgReg, g.num = r := by
  cases h : CfgReg.ofNum? r with
  | none => exact absurd (CfgReg.ofNum?_eq_none.1 h) (Nat.not_lt.2 hr)
  | some g => exact ⟨g, by simpa using List.find?_some h⟩

/-! ## A register written -/

/-- SOF_CTRL reads back: above SOF_EN a legal value has no bit (R221). -/
theorem sofCtrl_readback {v : Word} (hl : CfgReg.sofCtrl.legal v = true) :
    (flagWord (v.getLsbD 8) <<< 8) ||| (v.extractLsb' 0 8).setWidth 32 = v := by
  have hbits : v.toNat / 2 ^ 9 % 2 ^ 23 = 0 := by
    simpa [CfgReg.legal, BitVec.toNat_eq, Nat.shiftRight_eq_div_pow] using hl
  have hen : (v.getLsbD 8).toNat = v.toNat / 2 ^ 8 % 2 := Nat.toNat_testBit v.toNat 8
  have hbyte : (v.extractLsb' 0 8).toNat = v.toNat % 2 ^ 8 := by simp
  apply BitVec.eq_of_toNat_eq
  rw [toNat_sofCtrl, hen, hbyte]
  omega

/-- CKSUM_SEL reads back: a legal value is a selector's code (R221). -/
theorem cksumSel_readback {v : Word} (hl : CfgReg.cksumSel.legal v = true) (old : CksumSel) :
    BitVec.ofNat 32 ((CksumSel.ofCode? v.toNat).getD old).code = v := by
  cases h : CksumSel.ofCode? v.toNat with
  | none => exact absurd (CksumSel.ofCode?_eq_none.1 h) (Nat.not_lt.2 (of_decide_eq_true hl))
  | some c => rw [Option.getD_some, CksumSel.ofCode?_eq_some h, BitVec.ofNat_toNat, BitVec.setWidth_eq]

/-- PEER reads back: a legal value is one bit (R221). -/
theorem peer_readback {v : Word} (hl : CfgReg.peer.legal v = true) : (v.setWidth 1).setWidth 32 = v := by
  have hv : v.toNat ≤ 1 := of_decide_eq_true hl
  bv_omega

/-- A legal value written is the value read (R220, R222). -/
theorem State.readReg_write_self (s : State) {g : CfgReg} {v : Word} (hl : g.legal v = true) :
    (s.setCfg (s.cfg.write g v)).readReg g = v := by
  cases g with
  | idSize | lenSize | typeSize | chunkSize | parserTimeout => rfl
  | sofCtrl => exact sofCtrl_readback hl
  | cksumSel => exact cksumSel_readback hl _
  | peer => exact peer_readback hl
  | nextId | pstate | ptCount | nSlots => cases hl

/-- A write reaches its own register alone; the read-only registers are not in the configuration (R220). -/
theorem State.readReg_write_of_ne (s : State) {g h : CfgReg} (v : Word) (hne : h ≠ g) :
    (s.setCfg (s.cfg.write g v)).readReg h = s.readReg h := by
  cases h with
  | nextId | pstate | ptCount | nSlots => rfl
  | _ => cases g <;> simp [State.readReg, CfgRegs.write] at hne ⊢

/-! ## CFGW and CFGR -/

/-- CFGW of a legal value writes it (R220). -/
theorem exec_cfgw_num (s : State) {g : CfgReg} {v : Word} (hw : g.writable = true) (hl : g.legal v = true) :
    exec (.cfgw g.num v) s = .next ((s.setCfg (s.cfg.write g v)).reply .ok [] []) :=
  execCfgw_eq_next.2 (.inr (.inr (.inr ⟨g, g.ofNum?_num, hw, hl, rfl⟩)))

/-- CFGR of a register reads it (R222). -/
theorem exec_cfgr_num (s : State) (g : CfgReg) : exec (.cfgr g.num) s = .next (s.reply .ok [s.readReg g] []) :=
  execCfgr_eq_next.2 (.inr ⟨g, g.ofNum?_num, rfl⟩)

/-- Settles O52: the register written reads as the value, and any other as before. -/
theorem cfgwWritesOneRegister : Obligations.CfgwWritesOneRegister := fun s _ v hw hl =>
  ⟨_, exec_cfgw_num s hw hl, s.readReg_write_self hl, fun _ hne => s.readReg_write_of_ne v hne⟩

/-- Settles O54: the number is a register's, and the list holds the registers in the order of their numbers. -/
theorem cfgrReturnsTheRegister : Obligations.CfgrReturnsTheRegister := by
  intro s r hr
  obtain ⟨g, rfl⟩ := CfgReg.exists_num hr
  refine ⟨s.readReg .sofCtrl, s.readReg .nSlots, toNat_sofCtrl _ _, fun n hn => ?_, fun hn => ?_, ?_⟩
  · rw [State.readReg, hn, toNat_nSlotsWord_some]
  · rw [State.readReg, hn, toNat_nSlotsWord_none]
  · rw [exec_cfgr_num]
    cases g <;> rfl

end Sys2Proof.Machine
end

section
/-! PROOFS. Errors and the host (60_exceptions.md): the operands each error status is raised for, how a command ends,
said once for every command, and from it the statuses and values of each; what the host does on a command's events. -/

namespace Sys2Proof.Machine

/-! ## LEN_OVERFLOW (R244) -/

theorem lenOverflows_eq_true {c : CfgRegs} {n : Nat} : lenOverflows c n = true ↔ 2 ^ (8 * c.lenSize.toNat) - 1 < n :=
  decide_eq_true_iff

/-- Settles O24: each transmitting command tests the payload's length first. -/
theorem lenOverflowHasNoEffect : Obligations.LenOverflowHasNoEffect := by
  intro s i typ d hi hd
  have hover := lenOverflows_eq_true.2 hd
  rcases hi with ⟨r, f, rfl⟩ | ⟨r, f, o, rfl⟩ | ⟨r, f, rfl⟩
  · exact sendFrame_eq_next.2 (.inl ⟨hover, rfl⟩)
  · exact execQuery_eq_next.2 (.inl ⟨hover, rfl⟩)
  · exact sendFrame_eq_next.2 (.inl ⟨hover, rfl⟩)

/-! ## BAD_SLOT (R245) -/

/-- Only a bounded file has slots out of range (R6). -/
theorem slotInRange_eq_false {n : Option Nat} {k : Nat} : slotInRange n k = false ↔ ∃ m, n = some m ∧ m ≤ k := by
  cases n <;> simp [slotInRange]

theorem liveSlot_eq_false {s : State} {k : Nat} :
    liveSlot s k = false ↔ slotInRange s.params.nIdSlots k = false ∨ (slotAt s.slots k).valid = false :=
  Bool.and_eq_false_iff

/-- Settles O47: LREM and LRENEW need a live slot, LREAD one in range. -/
theorem badSlotHasNoEffect : Obligations.BadSlotHasNoEffect := by
  refine fun s k => ⟨fun hbad => ?_, fun hout => ?_⟩
  · have hdead : liveSlot s k.toNat = false := liveSlot_eq_false.2 (hbad.imp_left slotInRange_eq_false.2)
    exact ⟨execLrem_eq_next.2 (.inl ⟨hdead, rfl⟩), execLrenew_eq_next.2 (.inl ⟨hdead, rfl⟩)⟩
  · exact execLread_eq_next.2 (.inl ⟨slotInRange_eq_false.2 hout, rfl⟩)

/-! ## ILLEGAL_CMD of a register, BAD_CONFIG (R241, R243) -/

/-- The writable registers are those up to 0x07 (R21). -/
theorem CfgReg.writable_iff {g : CfgReg} : g.writable = true ↔ g.num.toNat ≤ 7 := by cases g <;> decide

theorem legalWidth_eq_false {v : Word} : legalWidth v = false ↔ v.toNat < 1 ∨ 4 < v.toNat := by
  rw [legalWidth, decide_eq_false_iff_not]
  omega

/-- SOF_CTRL has nine bits (R221). -/
theorem sofCtrl_legal_eq_false {v : Word} (hv : 2 ^ 9 ≤ v.toNat) : CfgReg.sofCtrl.legal v = false := by
  have hbits : v.toNat / 2 ^ 9 % 2 ^ 23 ≠ 0 := by
    have hword := v.isLt
    omega
  simpa [CfgReg.legal, BitVec.toNat_eq, Nat.shiftRight_eq_div_pow] using hbits

/-- The values outside the legal set of a register, by its number (R221). -/
theorem CfgReg.legal_eq_false {g : CfgReg} {v : Word}
    (h : (g.num.toNat ≤ 2 ∧ (v.toNat < 1 ∨ 4 < v.toNat)) ∨ (g.num.toNat = 3 ∧ 2 ^ 9 ≤ v.toNat) ∨
      (g.num.toNat = 4 ∧ 4 < v.toNat) ∨ (g.num.toNat = 7 ∧ 1 < v.toNat)) : g.legal v = false := by
  cases g with
  | idSize | lenSize | typeSize => exact legalWidth_eq_false.2 (by simpa [num] using h)
  | sofCtrl => exact sofCtrl_legal_eq_false (by simpa [num] using h)
  | cksumSel | peer => exact decide_eq_false (Nat.not_le.2 (by simpa [num] using h))
  | chunkSize | parserTimeout => simp [num] at h
  | nextId | pstate | ptCount | nSlots => rfl

/-- CFGW of a value that a writable register does not take (R243). -/
theorem exec_cfgw_num_of_not_legal (s : State) {g : CfgReg} {v : Word} (hw : g.writable = true)
    (hl : g.legal v = false) : exec (.cfgw g.num v) s = .next (s.reply .badConfig [] []) :=
  execCfgw_eq_next.2 (.inr (.inr (.inl ⟨g, g.ofNum?_num, hw, hl, rfl⟩)))

/-- Settles O53: every register named is writable and the value outside its legal set; no selector is above 4. -/
theorem badConfigHasNoEffect : Obligations.BadConfigHasNoEffect := by
  refine fun s r v d => ⟨fun hbad => ?_, fun hs => ?_⟩
  · have hr : r.toNat ≤ 7 := by omega
    obtain ⟨g, rfl⟩ := CfgReg.exists_num (hr.trans (by decide))
    exact exec_cfgw_num_of_not_legal s (CfgReg.writable_iff.2 hr) (CfgReg.legal_eq_false hbad)
  · exact execCksum_eq_next.2 (.inl ⟨CksumSel.ofCode?_eq_none.2 hs, rfl⟩)

/-- Settles O55: above 0x07 a number is a read-only register's, and above 0x0B no register's. -/
theorem illegalRegistersHaveNoEffect : Obligations.IllegalRegistersHaveNoEffect := by
  refine fun s r v => ⟨fun hr => ?_, fun hr => ?_⟩
  · rcases Nat.lt_or_ge 0x0B r.toNat with hnone | hle
    · exact execCfgw_eq_next.2 (.inl ⟨CfgReg.ofNum?_eq_none.2 hnone, rfl⟩)
    · obtain ⟨g, rfl⟩ := CfgReg.exists_num hle
      have hw : g.writable = false := by
        rw [← Bool.not_eq_true, CfgReg.writable_iff]
        exact Nat.not_le.2 hr
      exact execCfgw_eq_next.2 (.inr (.inl ⟨g, g.ofNum?_num, hw, rfl⟩))
  · exact execCfgr_eq_next.2 (.inl ⟨CfgReg.ofNum?_eq_none.2 hr, rfl⟩)

/-! ## How a command ends (R240, R246) -/

/-- The error statuses a command can raise (R241 to R245); TABLE_FULL with its reason. -/
inductive Raises (s : State) : Instr → Status → Prop
  | cfgwRegister (r : Byte) (v : Word) : Raises s (.cfgw r v) .illegalCmd
  | cfgwValue (r : Byte) (v : Word) : Raises s (.cfgw r v) .badConfig
  | cfgr (r : Byte) : Raises s (.cfgr r) .illegalCmd
  | cksum (sel : Byte) (d : List Byte) : Raises s (.cksum sel d) .badConfig
  | tooLong (i : Instr) (y : Word) (d : List Byte) (transmits : Transmits i y d) : Raises s i .lenOverflow
  | query (r : Bool) (f y : Word) (o : Option Word) (d : List Byte)
      (full : freeSlot? s.params.nIdSlots s.slots = none) : Raises s (.query r f y o d) .tableFull
  | ladd (l : Word) (o : Option Word) (full : freeSlot? s.params.nIdSlots s.slots = none) :
      Raises s (.ladd l o) .tableFull
  | lrem (k : BitVec 16) : Raises s (.lrem k) .badSlot
  | lrenew (k : BitVec 16) : Raises s (.lrenew k) .badSlot
  | lread (k : BitVec 16) : Raises s (.lread k) .badSlot

/-- The number of values a completed command hands back (R76). -/
def valueCount : Instr → Nat
  | .acceptByte _ | .tick | .resetParser | .cfgw _ _ | .lrem _ | .lrenew _ => 0
  | .cfgr _ | .cksum _ _ | .send _ _ _ _ | .respond _ _ _ _ | .ladd _ _ => 1
  | .query _ _ _ _ _ => 2
  | .lread _ => 4

/-- The state a command ends in: an error handed back and nothing else (R246), or its completion. -/
inductive Ends (s : State) (i : Instr) : State → Prop
  | raised (st : Status) (raises : Raises s i st) : Ends s i (s.reply st [] [])
  | completed (u : State) (vals : List Word) (evs : List Event) (output : u.output = s.output)
      (count : vals.length = valueCount i) : Ends s i (u.reply .ok vals evs)

theorem sendFrame_ends {i : Instr} {resp : Bool} {fid typ : Word} {d : List Byte} {s t : State}
    (hi : Transmits i typ d) (hc : valueCount i = 1) (h : sendFrame resp fid typ d s = .next t) : Ends s i t := by
  rcases sendFrame_eq_next.1 h with ⟨-, rfl⟩ | ⟨-, rfl⟩
  · exact .raised _ (.tooLong i typ d hi)
  · exact .completed _ _ _ rfl hc.symm

/-- A command that goes on raises one of its errors or completes with its number of values. -/
theorem exec_ends {i : Instr} {s t : State} (h : exec i s = .next t) : Ends s i t := by
  cases i with
  | acceptByte b =>
    obtain ⟨p, evs, -, rfl⟩ := execAcceptByte_eq_next.1 h
    exact .completed _ _ _ rfl rfl
  | tick =>
    obtain rfl := execTick_eq_next.1 h
    exact .completed _ _ _ rfl rfl
  | resetParser =>
    obtain rfl := execResetParser_eq_next.1 h
    exact .completed _ _ _ rfl rfl
  | cfgw r v =>
    rcases execCfgw_eq_next.1 h with ⟨-, rfl⟩ | ⟨g, -, -, rfl⟩ | ⟨g, -, -, -, rfl⟩ | ⟨g, -, -, -, rfl⟩
    · exact .raised _ (.cfgwRegister r v)
    · exact .raised _ (.cfgwRegister r v)
    · exact .raised _ (.cfgwValue r v)
    · exact .completed _ _ _ rfl rfl
  | cfgr r =>
    rcases execCfgr_eq_next.1 h with ⟨-, rfl⟩ | ⟨g, -, rfl⟩
    · exact .raised _ (.cfgr r)
    · exact .completed _ _ _ rfl rfl
  | cksum sel d =>
    rcases execCksum_eq_next.1 h with ⟨-, rfl⟩ | ⟨c, -, rfl⟩
    · exact .raised _ (.cksum sel d)
    · exact .completed _ _ _ rfl rfl
  | send r f y d => exact sendFrame_ends (.inl ⟨r, f, rfl⟩) rfl h
  | query r f y o d =>
    rcases execQuery_eq_next.1 h with ⟨-, rfl⟩ | ⟨-, hfull, rfl⟩ | ⟨k, -, -, rfl⟩
    · exact .raised _ (.tooLong _ y d (.inr (.inl ⟨r, f, o, rfl⟩)))
    · exact .raised _ (.query r f y o d hfull)
    · exact .completed _ _ _ rfl rfl
  | respond r f y d => exact sendFrame_ends (.inr (.inr ⟨r, f, rfl⟩)) rfl h
  | ladd l o =>
    rcases execLadd_eq_next.1 h with ⟨hfull, rfl⟩ | ⟨k, -, rfl⟩
    · exact .raised _ (.ladd l o hfull)
    · exact .completed _ _ _ rfl rfl
  | lrem k =>
    rcases execLrem_eq_next.1 h with ⟨-, rfl⟩ | ⟨-, rfl⟩
    · exact .raised _ (.lrem k)
    · exact .completed _ _ _ rfl rfl
  | lrenew k =>
    rcases execLrenew_eq_next.1 h with ⟨-, rfl⟩ | ⟨-, rfl⟩
    · exact .raised _ (.lrenew k)
    · exact .completed _ _ _ rfl rfl
  | lread k =>
    rcases execLread_eq_next.1 h with ⟨-, rfl⟩ | ⟨-, rfl⟩
    · exact .raised _ (.lread k)
    · exact .completed _ _ _ rfl rfl

/-- An end hands back one response, and nothing but it where its status is not `OK` (R246). -/
theorem Ends.response {i : Instr} {s t : State} (h : Ends s i t) : ∃ r : Response, t.output = s.output ++ [r] ∧
    (r.status ≠ .ok → r.values = [] ∧ r.events = [] ∧ t = { s with output := s.output ++ [r] }) := by
  cases h with
  | raised st => exact ⟨_, rfl, fun _ => ⟨rfl, rfl, rfl⟩⟩
  | completed u vals evs hu => exact ⟨⟨.ok, vals, evs⟩, by simp [hu], fun hbad => absurd rfl hbad⟩

/-- The response at an end is an error the command raises, or an `OK` with its number of values. -/
theorem Ends.status {i : Instr} {s t : State} {r : Response} (h : Ends s i t) (hr : t.output = s.output ++ [r]) :
    Raises s i r.status ∨ (r.status = .ok ∧ r.values.length = valueCount i) := by
  cases h with
  | raised st raises =>
    obtain rfl := State.reply_output_inj rfl hr
    exact .inl raises
  | completed u vals evs hu count =>
    obtain rfl := State.reply_output_inj hu hr
    exact .inr ⟨rfl, count⟩

/-- Settles O56: a step runs a command on the state with its words taken, or answers an illegal encoding. -/
theorem failedCommandsHaveNoEffect : Obligations.FailedCommandsHaveNoEffect := by
  refine ⟨fun i s t h => (exec_ends h).response, fun s t hr hd h => ?_⟩
  cases hdec : decode s.input with
  | incomplete => exact absurd hdec hd
  | illegal why rest =>
    rw [step_of_illegal hr hdec] at h
    cases h
    exact ⟨_, rfl, fun _ => ⟨rfl, rfl, rfl⟩⟩
  | instr i rest =>
    rw [step_eq_exec_of_decode hr hdec] at h
    obtain ⟨r, hout, hfail⟩ := (exec_ends h).response
    refine ⟨r, hout, fun hbad => ?_⟩
    obtain ⟨hvals, hevs, rfl⟩ := hfail hbad
    exact ⟨hvals, hevs, rfl⟩

theorem not_raises_ok {s : State} {i : Instr} : ¬ Raises s i .ok := nofun

/-- An error status handed back is one the command raises. -/
theorem raises_of_status {i : Instr} {s t : State} {r : Response} {st : Status} (h : exec i s = .next t)
    (hr : t.output = s.output ++ [r]) (hst : r.status = st) (hne : st ≠ .ok) : Raises s i st := by
  rcases (exec_ends h).status hr with hraises | ⟨hok, -⟩
  · exact hst ▸ hraises
  · exact absurd (hst.symm.trans hok) hne

/-- Settles O57: each error status is raised by the commands named, and a completion has its number of values. -/
theorem eachCommandReturnsItsOwnStatuses : Obligations.EachCommandReturnsItsOwnStatuses := by
  intro i s t r h hr
  refine ⟨fun hst => ?_, fun hst => ?_, fun hst => ?_, fun hst => ?_, fun hst => ?_, fun hst => ?_⟩
  · cases raises_of_status h hr hst nofun with
    | cfgwValue a v => exact .inl ⟨a, v, rfl⟩
    | cksum c d => exact .inr ⟨c, d, rfl⟩
  · cases raises_of_status h hr hst nofun with
    | tooLong _ y d hi => exact ⟨y, d, hi⟩
  · cases raises_of_status h hr hst nofun with
    | query f y p o d => exact .inl ⟨f, y, p, o, d, rfl⟩
    | ladd l o => exact .inr ⟨l, o, rfl⟩
  · cases raises_of_status h hr hst nofun with
    | lrem k => exact .inl ⟨k, rfl⟩
    | lrenew k => exact .inr (.inl ⟨k, rfl⟩)
    | lread k => exact .inr (.inr ⟨k, rfl⟩)
  · cases raises_of_status h hr hst nofun with
    | cfgwRegister a v => exact .inl ⟨a, v, rfl⟩
    | cfgr a => exact .inr ⟨a, rfl⟩
  · rcases (exec_ends h).status hr with hraises | ⟨-, hcount⟩
    · exact absurd (hst ▸ hraises) not_raises_ok
    · exact hcount

/-! ## TABLE_FULL (R242) -/

/-- TABLE_FULL is raised only with every slot in range valid. -/
theorem Raises.valid_of_tableFull {s : State} {i : Instr} (h : Raises s i .tableFull) {k : Nat}
    (hk : slotInRange s.params.nIdSlots k = true) : (slotAt s.slots k).valid = true := by
  cases h with
  | query _ _ _ _ _ hfull | ladd _ _ hfull => exact freeSlot?_eq_none.1 hfull k hk

theorem status_ne_tableFull {i : Instr} {s t : State} {r : Response} {k : Nat}
    (hk : slotInRange s.params.nIdSlots k = true) (hfree : (slotAt s.slots k).valid = false)
    (h : exec i s = .next t) (hr : t.output = s.output ++ [r]) : r.status ≠ .tableFull := fun hst =>
  Bool.false_ne_true (hfree.symm.trans ((raises_of_status h hr hst nofun).valid_of_tableFull hk))

/-- Settles O25: no free slot is found exactly when every slot in range is valid; in an unbounded file the one after
the last listed is in range and free. -/
theorem tableFullExactlyWhenNoSlotIsFree : Obligations.TableFullExactlyWhenNoSlotIsFree := by
  refine ⟨fun s n hn hall => ?_, fun i s t r k hk hfree h hr => status_ne_tableFull hk hfree h hr,
    fun i s t r hn h hr => ?_⟩
  · have hfull : freeSlot? s.params.nIdSlots s.slots = none := by
      rw [hn, freeSlot?_eq_none]
      exact fun k hk => hall k (of_decide_eq_true hk)
    exact ⟨fun lid o => execLadd_eq_next.2 (.inl ⟨hfull, rfl⟩),
      fun r f y o d hd => execQuery_eq_next.2 (.inr (.inl ⟨lenOverflows_eq_false.2 hd, hfull, rfl⟩))⟩
  · have hk : slotInRange s.params.nIdSlots s.slots.length = true := by
      rw [hn]
      rfl
    have hfree : (slotAt s.slots s.slots.length).valid = false := by
      rw [slotAt_of_le (Nat.le_refl _)]
      rfl
    exact status_ne_tableFull hk hfree h hr

/-! ## The host (R252, R253) -/

section
variable {l : HostLinks} {h : HostTables} {e : Event} {es : List Event} {as bs : List HostAct} {f : Fault}

theorem hostDeliverAll_cons (he : hostDeliver l h e = .next as) (hes : hostDeliverAll l h es = .next bs) :
    hostDeliverAll l h (e :: es) = .next (as ++ bs) := by
  simp only [hostDeliverAll, he, hes]

/-- A fault at an event is a fault of the whole list. -/
theorem hostDeliverAll_cons_fault (he : hostDeliver l h e = .fault f) : hostDeliverAll l h (e :: es) = .fault f := by
  simp only [hostDeliverAll, he]

theorem hostDeliverAll_cons_of_fault (he : hostDeliver l h e = .next as) (hes : hostDeliverAll l h es = .fault f) :
    hostDeliverAll l h (e :: es) = .fault f := by
  simp only [hostDeliverAll, he, hes]

/-- A connected sink takes every chunk, in order (R252). -/
theorem hostDeliverAll_txChunks (hsink : l.sink = true) (hes : hostDeliverAll l h es = .next bs)
    (ps : List (List Byte)) :
    hostDeliverAll l h (ps.map .txChunk ++ es) = .next (ps.map .writeSink ++ bs) := by
  induction ps with
  | nil => exact hes
  | cons p ps ih => exact hostDeliverAll_cons (as := [.writeSink p]) (by simp only [hostDeliver, hsink, if_true]) ih

end

/-- The type listeners called are those of the message's type (R253). -/
theorem mem_typeMatches {h : HostTables} {t : Word} {k : Nat} :
    k ∈ typeMatches h t ↔ h.typeListeners[k]? = some t := by
  simp only [typeMatches, List.mem_filter, List.mem_range, beq_iff_eq, List.getElem?_eq_some_iff]
  constructor
  · rintro ⟨hk, rfl⟩
    exact ⟨hk, by simp [hk]⟩
  · rintro ⟨hk, rfl⟩
    exact ⟨hk, by simp [hk]⟩

/-- The type listeners are called in table order (log entry 14). -/
theorem typeMatches_pairwise (h : HostTables) (t : Word) : (typeMatches h t).Pairwise (· < ·) :=
  List.Pairwise.filter _ List.pairwise_lt_range

/-- Settles O60: the first chunk is the fault of a host with no sink; the type listeners called are the matching
positions. -/
theorem hostForwardsChunksAndFansOut : Obligations.HostForwardsChunksAndFansOut := by
  refine ⟨fun h c r ps hne => ?_, fun h c r ps => ?_, fun l h d => ?_⟩
  · obtain ⟨p, ps, rfl⟩ := List.exists_cons_of_ne_nil hne
    exact hostDeliverAll_cons_of_fault rfl (hostDeliverAll_cons_fault rfl)
  · have hrelease : hostDeliverAll ⟨c, true, r⟩ h [.txRelease] = .next (if r then [.releaseBus] else []) :=
      (hostDeliverAll_cons rfl rfl).trans (by rw [List.append_nil])
    rw [List.append_assoc]
    exact hostDeliverAll_cons rfl (hostDeliverAll_txChunks rfl hrelease ps)
  · exact ⟨typeMatches h d.typ, typeMatches_pairwise h d.typ, fun _ => mem_typeMatches, rfl⟩

end Sys2Proof.Machine
end

section
/-! PROOFS. The RESET input and waiting for a command (70_reset_and_hazards.md). -/

namespace Sys2Proof.Machine

/-! ## Waiting (R271) -/

theorem decode_nil : decode [] = .incomplete := rfl

/-- Settles O7: a step with no RESET and no whole command is idle, and just after RESET no word has been delivered. -/
theorem stepWaitsForAWholeCommand : Obligations.StepWaitsForAWholeCommand :=
  ⟨fun _ => step_of_incomplete, decode_nil, step_of_incomplete rfl decode_nil⟩

/-! ## RESET (R270) -/

/-- With the RESET input asserted, a step performs RESET, whatever command waits. -/
theorem step_of_resetIn {s : State} (hr : s.resetIn = true) : step s = .next s.hwReset := by
  simp [step, hr]

/-- Every slot of the reset file reads as free: a listed one, and any past the listed ones. -/
@[simp] theorem slotAt_resetSlots (n : Option Nat) (k : Nat) : slotAt (resetSlots n) k = Slot.free := by
  rw [slotAt, resetSlots, List.getD_eq_getElem?_getD, List.getElem?_getD_replicate_default_eq]

/-- Settles O8: the step performs RESET, whose every field is the reset value by the laws of `State.hwReset`. -/
theorem resetInputResetsEveryElement : Obligations.ResetInputResetsEveryElement := fun _ =>
  ⟨_, step_of_resetIn rfl, State.hwReset_cfg _, State.hwReset_nextId _, State.hwReset_parser _,
    slotAt_resetSlots _, State.hwReset_output _, State.hwReset_params _, State.hwReset_resetIn _⟩

end Sys2Proof.Machine
end
